-- ==== Sys2Proof/Word.lean ====
section
/-! DEFINITION. The word types of the block: registers, bytes, packed colours, stored pixels. -/

namespace Sys2Proof

/-- A 32-bit register, bus datum or command word (R101, R300). -/
abbrev Word := BitVec 32

/-- One byte of frame memory (R210). -/
abbrev Byte := BitVec 8

/-- A packed RGB24 colour: R in bits 23:16, G in bits 15:8, B in bits 7:0 (R15). -/
abbrev Colour := BitVec 24

/-- The stored value of one pixel, zero-extended to the widest format: an index, a 16-bit word or a
24-bit value (R535). -/
abbrev Raw := BitVec 24

end Sys2Proof
end

