-- ==== Sys2Proof/Config.lean ====
section
/-! DEFINITION. What an implementation fixes (the OPEN parameters of R10) and the free values of the
model: what the spec leaves unspecified and lets a model draw freely. -/

namespace Sys2Proof

/-- The two OPEN parameters of R10. They are an argument of the model: `State` carries them in its field
`cfg`, no step changes them (R100: a parameter, not state), and a statement about every state holds for
every value of them. -/
structure Config where
  /-- FMEM_SIZE, the number of bytes of frame memory. -/
  fmemSize : Nat
  /-- NODE_CAPACITY, the most octree nodes alive at once, root included. -/
  nodeCapacity : Nat
  deriving DecidableEq, Repr

/-- The ranges R10 gives the two parameters. -/
def Config.valid (c : Config) : Bool :=
  decide (1 ≤ c.fmemSize) && decide (c.fmemSize ≤ 0x0FF00000) && decide (9 ≤ c.nodeCapacity)

/-- DESIGN CHOICE (log 2), unsafe: the parameters of `State.reset`. FMEM_SIZE is the value R10 suggests;
NODE_CAPACITY is this model's. -/
def Config.standard : Config := { fmemSize := 0x00100000, nodeCapacity := 0x10000 }

/-- PAL_ENTRIES, the entries of each palette RAM (R10). -/
abbrev palEntries : Nat := 256

/-- The largest number of colours an octree counts (R622): 2^32 - 1. -/
abbrev maxTotal : Nat := 2 ^ 32 - 1

/-- Free value (log 3): what a byte of FMEM that nothing has written reads as, at draw `n`, offset `a`
(R211, U3, U4), and the byte an aborted command leaves there (R1103, U6). -/
opaque Config.freeByte : Nat → Nat → Byte

/-- Free value (log 3): what SRC_PAL entry `i` reads as at draw `n` when nothing has written it (R211). -/
opaque Config.freeSrcPal : Nat → Nat → Colour

/-- Free value (log 3): what DST_PAL entry `i` reads as at draw `n` when nothing has written it (R211). -/
opaque Config.freeDstPal : Nat → Nat → Colour

/-- Free value (log 4): what a host read at address `a` returns at draw `n` when R404 leaves it
unspecified (U1). -/
opaque Config.freeRead : Nat → Nat → Word

end Sys2Proof
end

