-- ==== Sys2Proof/Syntax.lean ====
section
/-! DEFINITION. The command set: one constructor per row of spec/opcode_table.json (R311). -/

namespace Sys2Proof

/-- The six pixel formats (R11, R330). -/
inductive PixFmt where
  | indexed1 | indexed4 | indexed8 | rgb555 | rgb565 | rgb24
  deriving DecidableEq, Repr

/-- The thirteen commands (R311). Four take a FORMAT, which R350 lets a program write as a number: the
legal numbers are 0..7 (`Instr.wellFormed`), of which 6 and 7 are reserved codes that decode and fail in
execution (R331). -/
inductive Instr where
  /-- NOP (R420). -/
  | nop
  /-- REFORMAT t (R810). -/
  | reformat (fmt : Nat)
  /-- GETPIXEL (R910). -/
  | getpixel
  /-- SETPIXEL (R920). -/
  | setpixel
  /-- PAL_MATCH (R710). -/
  | palMatch
  /-- PACK f (R540). -/
  | pack (fmt : Nat)
  /-- UNPACK f (R550). -/
  | unpack (fmt : Nat)
  /-- STRIDE f (R560). -/
  | stride (fmt : Nat)
  /-- OCT_RESET (R670). -/
  | octReset
  /-- OCT_ADD (R671). -/
  | octAdd
  /-- OCT_REDUCE (R672). -/
  | octReduce
  /-- OCT_PALETTE (R674). -/
  | octPalette
  /-- OCT_INDEX (R676). -/
  | octIndex
  deriving DecidableEq, Repr

end Sys2Proof
end

