-- ==== Sys2Proof/Machine/State.lean ====
section
/-! DEFINITION. The state of the block (R100), the reasons a command or a step ends, and the reset state
(R180). -/

namespace Sys2Proof.Machine

/-! ### The octree unit (R601 to R605) -/

/-- A child slot number 0..7 (R601): the 3-bit key of R610. -/
inductive Key where
  | k0 | k1 | k2 | k3 | k4 | k5 | k6 | k7
  deriving DecidableEq, Repr

/-- What a leaf holds (R601): its creation number, pixel count, channel sums and palette index. -/
structure LeafData where
  /-- `seq`, the creation sequence number. -/
  seq : Nat
  /-- `count`, COUNT_BITS = 32. -/
  count : BitVec 32
  /-- `sumR`, SUM_BITS = 40. -/
  sumR : BitVec 40
  /-- `sumG`, SUM_BITS = 40. -/
  sumG : BitVec 40
  /-- `sumB`, SUM_BITS = 40. -/
  sumB : BitVec 40
  /-- `palIdx`, empty or 0..255. -/
  palIdx : Option Byte
  deriving DecidableEq, Repr

/-- An octree node, or an empty child slot (R601). A node's level is its distance from the root. A non-leaf
node has `count = sumR = sumG = sumB = 0` and an empty `palIdx` (I5 and I8 of R606), so `branch` stores only
`seq` and its eight slots, slot 0 first; a leaf has no children (I2), so `leaf` stores none. -/
inductive Node where
  | empty
  | leaf (d : LeafData)
  | branch (seq : Nat) (c0 c1 c2 c3 c4 c5 c6 c7 : Node)
  deriving DecidableEq, Repr

/-- A node handle (R602): the keys of the path from the root to the node. -/
abbrev Path := List Key

/-- The seven reducible lists `red[1] .. red[7]`, each oldest first (R603). -/
structure Reducible where
  l1 : List Path
  l2 : List Path
  l3 : List Path
  l4 : List Path
  l5 : List Path
  l6 : List Path
  l7 : List Path
  deriving DecidableEq, Repr

/-- The phase of an octree (R604). -/
inductive Phase where
  | build | frozen
  deriving DecidableEq, Repr

/-- An octree T (R602 to R604). -/
structure Octree where
  /-- The root node, level 0. -/
  root : Node
  /-- The reducible lists. -/
  red : Reducible
  /-- `leafCount`, shown by OCT_LEAVES. -/
  leafCount : Nat
  /-- `total`, the number of colours added, shown by OCT_PIXELS. -/
  total : Nat
  /-- `live`, the number of live nodes, shown by OCT_NODES. -/
  live : Nat
  /-- The next creation sequence number (R620). -/
  nextSeq : Nat
  /-- The insertion cache: colour and leaf handle, `none` when invalid. -/
  addCache : Option (Colour × Path)
  /-- The lookup cache: colour and index, `none` when invalid. -/
  idxCache : Option (Colour × Byte)
  /-- BUILD or FROZEN, shown by OCT_STATUS. -/
  phase : Phase
  deriving DecidableEq, Repr

/-- The empty octree (R605): a root with eight empty slots. -/
def Octree.empty : Octree where
  root := .branch 0 .empty .empty .empty .empty .empty .empty .empty .empty
  red := { l1 := [], l2 := [], l3 := [], l4 := [], l5 := [], l6 := [], l7 := [] }
  leafCount := 0
  total := 0
  live := 1
  nextSeq := 1
  addCache := none
  idxCache := none
  phase := .build

/-! ### Frame descriptors (R130 to R141) -/

/-- The fields of a frame descriptor, each with the implemented bits of its register. The source descriptor
is the host's; of the destination descriptor the host writes `base` and `maskBase` and a command the rest. -/
structure FrameDesc where
  /-- SRC_FMT / DST_FMT [2:0]. -/
  fmt : BitVec 3
  /-- SRC_WIDTH / DST_WIDTH [15:0]. -/
  width : BitVec 16
  /-- SRC_HEIGHT / DST_HEIGHT [15:0]. -/
  height : BitVec 16
  /-- SRC_STRIDE / DST_STRIDE. -/
  stride : Word
  /-- SRC_BASE / DST_BASE. -/
  base : Word
  /-- SRC_BUF_LEN / DST_BUF_LEN. -/
  bufLen : Word
  /-- SRC_PAL_LEN / DST_PAL_LEN [8:0]. -/
  palLen : BitVec 9
  /-- SRC_MASK_CTRL / DST_MASK_CTRL [0] PRESENT. -/
  maskPresent : Bool
  /-- SRC_MASK_BASE / DST_MASK_BASE. -/
  maskBase : Word
  /-- SRC_TRANSP / DST_TRANSP, two's complement. -/
  transp : Word
  deriving DecidableEq, Repr

/-- A descriptor at reset (R180): all 0, the transparent index -1. -/
def FrameDesc.reset : FrameDesc where
  fmt := 0
  width := 0
  height := 0
  stride := 0
  base := 0
  bufLen := 0
  palLen := 0
  maskPresent := false
  maskBase := 0
  transp := 0xFFFFFFFF

/-! ### Errors of commands (R1001, R1010) -/

/-- The field STATUS.ERR by name (R1001). -/
inductive ErrCode where
  | none | unsupportedConversion | invalidArgument | paletteLookupFailure | quantizerExhausted
  | capacityExceeded | sequenceError | illegalCommand
  deriving DecidableEq, Repr

/-- The subcodes of INVALID_ARGUMENT by name (R1010). -/
inductive Subcode where
  | dimZero | strideMismatch | bufLenMismatch | srcBufRange | paletteLen | srcMaskRange
  | dstBufRange | dstBufOverlap | dstMaskRange | dstMaskOverlap | indexNotInPalette | indexTooWide
  | coordRange | fmtNotTruecolor | fmtReserved | maxColorsRange | paletteEmpty | dstPal1bpp
  deriving DecidableEq, Repr

/-- An error a command raises (R1001, R1030). -/
inductive CmdError where
  | unsupportedConversion
  | invalidArgument (sub : Subcode)
  | paletteLookupFailure
  | quantizerExhausted
  | capacityExceeded
  | sequenceError
  | illegalCommand
  deriving DecidableEq, Repr

/-! ### The host port and the other inputs (R200) -/

/-- The size of a host transaction: 1, 2 or 4 bytes (R200). -/
inductive BusSize where
  | b1 | b2 | b4
  deriving DecidableEq, Repr

/-- What can happen next, outside the block or in its engine (R200, R400, R1100). The list of these in
`State` is one interleaving of the host's transactions with the engine's completion steps (R403). -/
inductive Input where
  /-- `Read(addr, size)`. -/
  | read (addr : Word) (size : BusSize)
  /-- `Write(addr, size, data)`; the data is the low 8, 16 or 32 bits of `data`. -/
  | write (addr : Word) (size : BusSize) (data : Word)
  /-- The command engine's turn. -/
  | engine
  /-- `rst_n` goes low. -/
  | resetAssert
  /-- `rst_n` goes high. -/
  | resetRelease
  deriving DecidableEq, Repr

/-- What the host port answers (R200). -/
inductive BusResponse where
  /-- A read's data, zero-extended to 32 bits. -/
  | data (v : Word)
  /-- `OK`, of a write. -/
  | ok
  /-- `BUS_ERROR`. -/
  | busError
  deriving DecidableEq, Repr

/-! ### The state -/

/-- The state of the block (R100) and, below the line, the model's own fields. The registers ID and CTRL
store nothing: they read as constants (R110, R111). STATUS.BUSY is `inflight.isSome` (R401). -/
structure State where
  /-- The parameters FMEM_SIZE and NODE_CAPACITY, which no step changes (R10, R100). -/
  cfg : Config
  /-- The level of the input `rst_n` (R200, R1100). -/
  rstN : Bool
  /-- The accepted command word while BUSY = 1 (R170). -/
  inflight : Option Word
  /-- STATUS [1] DONE (R112). -/
  done : Bool
  /-- STATUS [2] OVR (R112). -/
  ovr : Bool
  /-- STATUS [11:8] ERR (R112). -/
  err : ErrCode
  /-- ERR_INFO [7:0] SUBCODE (R113). -/
  errInfo : Byte
  /-- CMD (R120). -/
  cmd : Word
  /-- ARG0 (R121). -/
  arg0 : Word
  /-- ARG1 (R121). -/
  arg1 : Word
  /-- ARG2 (R121). -/
  arg2 : Word
  /-- RESULT0 (R122). -/
  result0 : Word
  /-- RESULT1 (R122). -/
  result1 : Word
  /-- SRC_FMT .. SRC_TRANSP (R130 to R135). -/
  src : FrameDesc
  /-- DST_FMT .. DST_TRANSP (R140, R141). -/
  dst : FrameDesc
  /-- SRC_PAL: the entries that hold a value, by rising index (R150, R211). -/
  srcPal : List (Nat × Colour)
  /-- DST_PAL: the entries that hold a value, by rising index (R150, R211). -/
  dstPal : List (Nat × Colour)
  /-- The octree unit (R160). -/
  oct : Octree
  /-- FMEM: the bytes that hold a value, by rising offset (R210, R211). -/
  fmem : List Host.Cell
  /-- The model's own: what happens next, first entry first (log 5). -/
  inputs : List Input
  /-- The model's own: the answer to the last host transaction (log 6). -/
  response : Option BusResponse
  /-- The model's own: the number of the current draw of free values (log 3). -/
  draws : Nat
  deriving DecidableEq, Repr

/-- Why the machine stops. -/
inductive Fault where
  /-- Raised by `hostTransaction` for a host transaction while `rst_n` is low: R1100 gives it no result and
  forbids it to the host (U7). Safe: the hardware goes on where the model stops. -/
  | hostTransactionInReset
  deriving DecidableEq, Repr

/-- Why an instruction has no meaning. -/
inductive Refusal where
  /-- Raised by an arm of `exec` whose instruction has no meaning yet; no arm raises it. Safe. -/
  | notModelled (mnemonic : String)
  deriving DecidableEq, Repr

/-- The state after power-on reset of a block with parameters `cfg` (R180, R1100): memories hold no value,
the octree is empty, the engine idle. The model's own fields start empty, at 0. -/
def State.resetWith (cfg : Config) : State where
  cfg := cfg
  rstN := true
  inflight := none
  done := false
  ovr := false
  err := .none
  errInfo := 0
  cmd := 0
  arg0 := 0
  arg1 := 0
  arg2 := 0
  result0 := 0
  result1 := 0
  src := .reset
  dst := .reset
  srcPal := []
  dstPal := []
  oct := .empty
  fmem := []
  inputs := []
  response := none
  draws := 0

/-- The state after power-on reset of the block with the parameters of `Config.standard` (log 2). -/
def State.reset : State := .resetWith .standard

end Sys2Proof.Machine
end

