-- ==== Sys2Proof/Machine/Ops.lean ====
section
/-! DEFINITION. The named operations over memory and registers, taking a command error (R1030) and its
counterparts: normal completion (R410), acceptance of a command, which clears an error (R402, R1032), and the
reset values of a soft reset (R180). -/

namespace Sys2Proof.Machine

/-! ### Sparse memories

FMEM and the palette RAMs are lists of (address, value) pairs with strictly rising addresses. An address
without a pair holds no value (R211). -/

/-- The value at an address, `none` if nothing has written it. -/
def Memory.get? {α : Type} : List (Nat × α) → Nat → Option α
  | [], _ => none
  | (k, v) :: m, a => if k = a then some v else Memory.get? m a

/-- Write one value, keeping the addresses strictly rising. -/
def Memory.set {α : Type} : List (Nat × α) → Nat → α → List (Nat × α)
  | [], a, v => [(a, v)]
  | (k, w) :: m, a, v =>
    if a < k then (a, v) :: (k, w) :: m
    else if a = k then (a, v) :: m
    else (k, w) :: Memory.set m a v

/-- The canonical form: strictly rising addresses, all below the memory's size. No pair equals what an
unlisted address reads as, since an unlisted address holds no value (R211). -/
abbrev Memory.wf {α : Type} (size : Nat) (m : List (Nat × α)) : Prop :=
  (m.map Prod.fst).Pairwise (· < ·) ∧ ∀ c ∈ m, c.1 < size

/-- Write the values `f 0 .. f (n-1)` to the addresses `a .. a+n-1`, the lowest first. -/
def Memory.fill {α : Type} (m : List (Nat × α)) (a : Nat) (f : Nat → α) : Nat → List (Nat × α)
  | 0 => m
  | n + 1 => Memory.set (Memory.fill m a f n) (a + n) (f n)

/-- Write the values of a list to consecutive addresses from `a`. -/
def Memory.setList {α : Type} (m : List (Nat × α)) (a : Nat) : List α → List (Nat × α)
  | [] => m
  | v :: vs => Memory.setList (Memory.set m a v) (a + 1) vs

/-! ### FMEM: bytes and little-endian values (R14, R224)

`d` is the draw number that fixes the free value of a byte nothing has written (U4). -/

/-- `MemRead8(a)`. -/
def read8 (d : Nat) (m : List Host.Cell) (a : Nat) : Byte :=
  (Memory.get? m a).getD (Config.freeByte d a)

/-- `MemRead(a, 2)`: the byte at `a` in bits 7:0. -/
def read16 (d : Nat) (m : List Host.Cell) (a : Nat) : BitVec 16 :=
  read8 d m (a + 1) ++ read8 d m a

/-- `MemRead(a, 3)`. -/
def read24 (d : Nat) (m : List Host.Cell) (a : Nat) : BitVec 24 :=
  read8 d m (a + 2) ++ read8 d m (a + 1) ++ read8 d m a

/-- `MemRead(a, 4)`. -/
def read32 (d : Nat) (m : List Host.Cell) (a : Nat) : BitVec 32 :=
  read8 d m (a + 3) ++ read8 d m (a + 2) ++ read8 d m (a + 1) ++ read8 d m a

/-- `MemWrite(a, 1, v)`. -/
def write8 (m : List Host.Cell) (a : Nat) (v : Byte) : List Host.Cell := Memory.set m a v

/-- `MemWrite(a, 2, v)`. -/
def write16 (m : List Host.Cell) (a : Nat) (v : BitVec 16) : List Host.Cell :=
  write8 (write8 m a (v.extractLsb' 0 8)) (a + 1) (v.extractLsb' 8 8)

/-- `MemWrite(a, 3, v)`. -/
def write24 (m : List Host.Cell) (a : Nat) (v : BitVec 24) : List Host.Cell :=
  write8 (write8 (write8 m a (v.extractLsb' 0 8)) (a + 1) (v.extractLsb' 8 8)) (a + 2) (v.extractLsb' 16 8)

/-- `MemWrite(a, 4, v)`. -/
def write32 (m : List Host.Cell) (a : Nat) (v : BitVec 32) : List Host.Cell :=
  write8 (write8 (write8 (write8 m a (v.extractLsb' 0 8)) (a + 1) (v.extractLsb' 8 8)) (a + 2)
    (v.extractLsb' 16 8)) (a + 3) (v.extractLsb' 24 8)

/-- `MemWrite(a + i, 1, 0)` for i in 0 .. n-1 (`fillZero`, R830 ff.). -/
def zeroBytes (m : List Host.Cell) (a n : Nat) : List Host.Cell := Memory.fill m a (fun _ => 0) n

/-- `MemWrite(to + i, 1, MemRead8(from + i))` for i in 0 .. n-1, in that order (R830, R881). -/
def copyBytes (d : Nat) (m : List Host.Cell) (src dst : Nat) : Nat → List Host.Cell
  | 0 => m
  | n + 1 => write8 (copyBytes d m src dst n) (dst + n) (read8 d (copyBytes d m src dst n) (src + n))

/-- The bytes `a .. a+n-1` take free values (R1103). -/
def scrambleBytes (d : Nat) (m : List Host.Cell) (a n : Nat) : List Host.Cell :=
  Memory.fill m a (fun i => Config.freeByte d (a + i)) n

/-! ### Palette RAMs (R150) -/

/-- SRC_PAL[i] (R14); an entry nothing has written reads as a free value (R211). -/
def srcPalAt (s : State) (i : Nat) : Colour := (Memory.get? s.srcPal i).getD (Config.freeSrcPal s.draws i)

/-- DST_PAL[i]; an entry nothing has written reads as a free value (R211). -/
def dstPalAt (s : State) (i : Nat) : Colour := (Memory.get? s.dstPal i).getD (Config.freeDstPal s.draws i)

/-- SRC_PAL[0 .. n-1] as a list. -/
def srcPalList (s : State) (n : Nat) : List Colour := (List.range n).map (srcPalAt s)

/-! ### Ending a command: normal completion and the error entry -/

/-- The STATUS.ERR code of an error (R1001). -/
def CmdError.code : CmdError → ErrCode
  | .unsupportedConversion => .unsupportedConversion
  | .invalidArgument _ => .invalidArgument
  | .paletteLookupFailure => .paletteLookupFailure
  | .quantizerExhausted => .quantizerExhausted
  | .capacityExceeded => .capacityExceeded
  | .sequenceError => .sequenceError
  | .illegalCommand => .illegalCommand

/-- The number of a subcode (R1010). -/
def Subcode.number : Subcode → Byte
  | .dimZero => 1
  | .strideMismatch => 2
  | .bufLenMismatch => 3
  | .srcBufRange => 4
  | .paletteLen => 5
  | .srcMaskRange => 6
  | .dstBufRange => 7
  | .dstBufOverlap => 8
  | .dstMaskRange => 9
  | .dstMaskOverlap => 10
  | .indexNotInPalette => 11
  | .indexTooWide => 12
  | .coordRange => 13
  | .fmtNotTruecolor => 14
  | .fmtReserved => 15
  | .maxColorsRange => 16
  | .paletteEmpty => 17
  | .dstPal1bpp => 18

/-- What ERR_INFO.SUBCODE becomes: the subcode of INVALID_ARGUMENT, 0 for every other error (R113). -/
def CmdError.subcode : CmdError → Byte
  | .invalidArgument sub => sub.number
  | _ => 0

/-- Taking a command error (R1030): ERR, ERR_INFO, BUSY and DONE are written and nothing else. -/
def takeError (e : CmdError) (s : State) : State :=
  { s with err := e.code, errInfo := e.subcode, inflight := none, done := true }

/-- Normal completion (R410): the command's effects are in `s`; ERR and ERR_INFO become 0. -/
def finish (s : State) : State :=
  { s with err := .none, errInfo := 0, inflight := none, done := true }

/-- `complete` of R410: commit the working copy a command's rule left, or discard it and take the error
(R411). -/
def complete (s : State) (r : Except CmdError State) : Host.Outcome State Fault Refusal :=
  match r with
  | .ok w => .next (finish w)
  | .error e => .next (takeError e s)

/-- Acceptance of the word `w` (R402): BUSY is set, and DONE and the error of the last command are cleared,
which is how an error state ends (R1032). -/
def acceptCommand (w : Word) (s : State) : State :=
  { s with cmd := w, inflight := some w, done := false, err := .none }

/-- Every register at its soft-reset value and the octree unit empty; FMEM and both palette RAMs are kept
(R180, R1101, R1102). -/
def softResetRegs (s : State) : State :=
  { State.resetWith s.cfg with
    rstN := s.rstN
    srcPal := s.srcPal
    dstPal := s.dstPal
    fmem := s.fmem
    inputs := s.inputs
    response := s.response
    draws := s.draws }

/-- Every piece of state at its power-on value (R1100); `rst_n` at the level given. -/
def powerOn (level : Bool) (s : State) : State :=
  { State.resetWith s.cfg with rstN := level, inputs := s.inputs, draws := s.draws }

/-! ### Writing one part of a working copy -/

/-- `reg[RESULT0] <- v`. -/
def setResult0 (v : Word) (s : State) : State := { s with result0 := v }

/-- `reg[RESULT1] <- v`. -/
def setResult1 (v : Word) (s : State) : State := { s with result1 := v }

/-- FMEM of the working copy. -/
def setFmem (m : List Host.Cell) (s : State) : State := { s with fmem := m }

/-- The octree unit of the working copy. -/
def setOct (t : Octree) (s : State) : State := { s with oct := t }

/-- `DST_PAL[i] <- pal[i]` for every i below the length of `pal` (R674, R880). -/
def setDstPal (pal : List Colour) (s : State) : State := { s with dstPal := Memory.setList s.dstPal 0 pal }

/-- `reg[DST_PAL_LEN] <- n`. -/
def setDstPalLen (n : Nat) (s : State) : State := { s with dst := { s.dst with palLen := BitVec.ofNat 9 n } }

/-- The next entry of `inputs` is taken and a new draw of free values begins. -/
def nextTurn (rest : List Input) (s : State) : State := { s with inputs := rest, draws := s.draws + 1 }

/-- The host port answers. -/
def answer (r : BusResponse) (s : State) : State := { s with response := some r }

end Sys2Proof.Machine
end

