-- ==== Sys2Proof/Machine/Operands.lean ====
section
/-! DEFINITION. Operand forms: fields of colours (R15), format codes (R330), and the operand registers and
descriptor fields as a command reads them (R340). -/

namespace Sys2Proof

/-- `R(c) = c[23:16]` (R15). -/
def redOf (c : Colour) : Byte := c.extractLsb' 16 8

/-- `G(c) = c[15:8]` (R15). -/
def greenOf (c : Colour) : Byte := c.extractLsb' 8 8

/-- `B(c) = c[7:0]` (R15). -/
def blueOf (c : Colour) : Byte := c.extractLsb' 0 8

/-- `rgb(r, g, b)`, the concatenation `{r, g, b}` (R15). -/
def rgb (r g b : Byte) : Colour := r ++ g ++ b

/-- The format of a code, `none` for a reserved code (R330). -/
def PixFmt.ofCode : Nat → Option PixFmt
  | 0 => some .indexed1
  | 1 => some .indexed4
  | 2 => some .indexed8
  | 3 => some .rgb555
  | 4 => some .rgb565
  | 5 => some .rgb24
  | _ => none

/-- The code of a format (R330). -/
def PixFmt.code : PixFmt → Nat
  | .indexed1 => 0
  | .indexed4 => 1
  | .indexed8 => 2
  | .rgb555 => 3
  | .rgb565 => 4
  | .rgb24 => 5

/-- `bpp(f)` (R11). -/
def PixFmt.bpp : PixFmt → Nat
  | .indexed1 => 1
  | .indexed4 => 4
  | .indexed8 => 8
  | .rgb555 => 16
  | .rgb565 => 16
  | .rgb24 => 24

/-- `isIndexed(f)` (R11). -/
def PixFmt.isIndexed : PixFmt → Bool
  | .indexed1 => true
  | .indexed4 => true
  | .indexed8 => true
  | .rgb555 => false
  | .rgb565 => false
  | .rgb24 => false

namespace Machine

/-- A colour operand: bits 23:0, the rest ignored (R340). -/
def colourOperand (w : Word) : Colour := w.extractLsb' 0 24

/-- The width operand of STRIDE: bits 15:0 (R340). -/
def widthOperand (w : Word) : Nat := (w.extractLsb' 0 16).toNat

/-- The raw operand of UNPACK: bits 23:0 for Rgb24, 15:0 for the 16-bit formats (R340, R550). -/
def rawOperand (f : PixFmt) (w : Word) : Raw :=
  match f with
  | .rgb24 => w.extractLsb' 0 24
  | _ => (w.extractLsb' 0 16).setWidth 24

/-- The column x: ARG0, all 32 bits (R340). -/
def xOperand (s : State) : Nat := s.arg0.toNat

/-- The row y: ARG1, all 32 bits (R340). -/
def yOperand (s : State) : Nat := s.arg1.toNat

/-- The operand maxColors: ARG0, all 32 bits (R340). -/
def maxColorsOperand (s : State) : Nat := s.arg0.toNat

/-- The code in SRC_FMT. -/
def srcFmtCode (s : State) : Nat := s.src.fmt.toNat

/-- w, the width in SRC_WIDTH. -/
def srcW (s : State) : Nat := s.src.width.toNat

/-- h, the height in SRC_HEIGHT. -/
def srcH (s : State) : Nat := s.src.height.toNat

/-- st, the declared stride. -/
def srcStride (s : State) : Nat := s.src.stride.toNat

/-- base, the offset of the source's row 0. -/
def srcBase (s : State) : Nat := s.src.base.toNat

/-- len, the declared buffer length. -/
def srcBufLen (s : State) : Nat := s.src.bufLen.toNat

/-- n, the source palette length. -/
def srcPalLen (s : State) : Nat := s.src.palLen.toNat

/-- mb, the offset of the source mask. -/
def srcMaskBase (s : State) : Nat := s.src.maskBase.toNat

/-- DST_BASE as an offset. -/
def dstBase (s : State) : Nat := s.dst.base.toNat

/-- DST_MASK_BASE as an offset. -/
def dstMaskBase (s : State) : Nat := s.dst.maskBase.toNat

end Machine

end Sys2Proof
end

