-- ==== Sys2Proof/Machine/Codec.lean ====
section
/-! DEFINITION. bitdepth_codec_pack_unpack: stride, channel scaling, pixel layouts and addressing, and the
commands PACK, UNPACK and STRIDE (R501 to R560). -/

namespace Sys2Proof

/-! ### Stride (R501 to R503) -/

/-- `stride(f, w)` (R501). -/
def stride (f : PixFmt) (w : Nat) : Nat := (w * f.bpp + 31) / 32 * 4

/-- `maskStride(w)` (R502). -/
def maskStride (w : Nat) : Nat := stride .indexed1 w

/-- `bufLen(f, w, h)` (R503). -/
def bufLen (f : PixFmt) (w h : Nat) : Nat := h * stride f w

/-! ### Channel scaling (R510, R511) -/

/-- `promote(v, n)`: n bits to 8 by multiplication and truncating division (R510). -/
def promote {n : Nat} (v : BitVec n) : Byte := BitVec.ofNat 8 (v.toNat * 255 / (2 ^ n - 1))

/-- `demote(v8, n)`: the top n bits of v8 (R511). -/
def demote (n : Nat) (v : Byte) : BitVec n := v.extractLsb' (8 - n) n

/-! ### Truecolor layouts (R520 to R527) -/

/-- `pack555(c)`: bit 15 is 0, R in 14:10, G in 9:5, B in 4:0 (R520). -/
def pack555 (c : Colour) : BitVec 16 :=
  0#1 ++ demote 5 (redOf c) ++ demote 5 (greenOf c) ++ demote 5 (blueOf c)

/-- `pack565(c)`: R in 15:11, G in 10:5, B in 4:0 (R521). -/
def pack565 (c : Colour) : BitVec 16 :=
  demote 5 (redOf c) ++ demote 6 (greenOf c) ++ demote 5 (blueOf c)

/-- `unpack555(w)`; bit 15 is ignored (R523). -/
def unpack555 (w : BitVec 16) : Colour :=
  rgb (promote (w.extractLsb' 10 5)) (promote (w.extractLsb' 5 5)) (promote (w.extractLsb' 0 5))

/-- `unpack565(w)` (R524). -/
def unpack565 (w : BitVec 16) : Colour :=
  rgb (promote (w.extractLsb' 11 5)) (promote (w.extractLsb' 5 6)) (promote (w.extractLsb' 0 5))

/-- `pack(f, c)` (R526). Callers check that f is truecolor; for an indexed format it is 0. -/
def packPixel (f : PixFmt) (c : Colour) : Raw :=
  match f with
  | .rgb555 => (pack555 c).setWidth 24
  | .rgb565 => (pack565 c).setWidth 24
  | .rgb24 => c
  | .indexed1 => 0
  | .indexed4 => 0
  | .indexed8 => 0

/-- `unpack(f, raw)` (R526). Callers check that f is truecolor; for an indexed format it is 0. -/
def unpackPixel (f : PixFmt) (raw : Raw) : Colour :=
  match f with
  | .rgb555 => unpack555 (raw.extractLsb' 0 16)
  | .rgb565 => unpack565 (raw.extractLsb' 0 16)
  | .rgb24 => raw
  | .indexed1 => 0
  | .indexed4 => 0
  | .indexed8 => 0

/-- `convert(fs, ft, raw)`: through the 8-bit-per-channel value (R527). -/
def convertPixel (fs ft : PixFmt) (raw : Raw) : Raw := packPixel ft (unpackPixel fs raw)

namespace Machine

/-! ### Pixel addressing (R530 to R535) -/

/-- The offset within a row of the first byte of pixel x (R530 to R534). -/
def pixelOffset (f : PixFmt) (x : Nat) : Nat :=
  match f with
  | .indexed1 => x / 8
  | .indexed4 => x / 2
  | .indexed8 => x
  | .rgb555 => 2 * x
  | .rgb565 => 2 * x
  | .rgb24 => 3 * x

/-- How many bytes a pixel, or the byte that packs it, takes. -/
def pixelBytes : PixFmt → Nat
  | .indexed1 => 1
  | .indexed4 => 1
  | .indexed8 => 1
  | .rgb555 => 2
  | .rgb565 => 2
  | .rgb24 => 3

/-- The FMEM offset of the first byte of pixel (x, y) of a frame at `base` with stride `st`. -/
def pixelAddr (f : PixFmt) (base st x y : Nat) : Nat := base + y * st + pixelOffset f x

/-- The 4-bit field of pixel x in its byte (R531): the even pixel is the high nibble. -/
def nibbleOf (b : Byte) (x : Nat) : BitVec 4 := if x % 2 = 0 then b.extractLsb' 4 4 else b.extractLsb' 0 4

/-- The bit of pixel x in its byte (R532): bit 7 is the leftmost pixel. -/
def bitOf (b : Byte) (x : Nat) : BitVec 1 := b.extractLsb' (7 - x % 8) 1

/-- `readRaw(f, base, st, x, y)` (R535). -/
def readRaw (d : Nat) (m : List Host.Cell) (f : PixFmt) (base st x y : Nat) : Raw :=
  let a := pixelAddr f base st x y
  match f with
  | .indexed1 => (bitOf (read8 d m a) x).setWidth 24
  | .indexed4 => (nibbleOf (read8 d m a) x).setWidth 24
  | .indexed8 => (read8 d m a).setWidth 24
  | .rgb555 => (read16 d m a).setWidth 24
  | .rgb565 => (read16 d m a).setWidth 24
  | .rgb24 => read24 d m a

/-- The byte `b` with the nibble of pixel x replaced by `v` (R535). -/
def withNibble (b : Byte) (x : Nat) (v : BitVec 4) : Byte :=
  if x % 2 = 0 then v ++ b.extractLsb' 0 4 else b.extractLsb' 4 4 ++ v

/-- The byte `b` with the bit of pixel x replaced by `v` (R535). -/
def withBit (b : Byte) (x : Nat) (v : BitVec 1) : Byte :=
  (b &&& ~~~(1#8 <<< (7 - x % 8))) ||| (v.setWidth 8 <<< (7 - x % 8))

/-- `writeRaw(f, base, st, x, y, v)` (R535): read-modify-write of the containing byte for Indexed1 and
Indexed4, all the pixel's bytes otherwise. -/
def writeRaw (d : Nat) (m : List Host.Cell) (f : PixFmt) (base st x y : Nat) (v : Raw) : List Host.Cell :=
  let a := pixelAddr f base st x y
  match f with
  | .indexed1 => write8 m a (withBit (read8 d m a) x (v.extractLsb' 0 1))
  | .indexed4 => write8 m a (withNibble (read8 d m a) x (v.extractLsb' 0 4))
  | .indexed8 => write8 m a (v.extractLsb' 0 8)
  | .rgb555 => write16 m a (v.extractLsb' 0 16)
  | .rgb565 => write16 m a (v.extractLsb' 0 16)
  | .rgb24 => write24 m a v

/-- `pixelRGB` on a stored value (R537): the palette entry of an index below the palette length, or the
unpacked truecolor value. -/
def colourOfRaw (s : State) (f : PixFmt) (raw : Raw) : Except CmdError Colour :=
  if f.isIndexed then
    if srcPalLen s ≤ raw.toNat then .error (.invalidArgument .indexNotInPalette)
    else .ok (srcPalAt s raw.toNat)
  else .ok (unpackPixel f raw)

/-! ### Commands -/

/-- The format of a command's FMT, which must not be reserved (R331: subcode 15). -/
def formatOperand (code : Nat) : Except CmdError PixFmt :=
  match PixFmt.ofCode code with
  | none => .error (.invalidArgument .fmtReserved)
  | some f => .ok f

/-- The format of PACK and UNPACK: not reserved (15), then not indexed (14) (R540, R550). -/
def truecolorOperand (code : Nat) : Except CmdError PixFmt :=
  match formatOperand code with
  | .error e => .error e
  | .ok f => if f.isIndexed then .error (.invalidArgument .fmtNotTruecolor) else .ok f

/-- PACK f (R540). -/
def execPack (fmt : Nat) (s : State) : Host.Outcome State Fault Refusal :=
  complete s <|
    match truecolorOperand fmt with
    | .error e => .error e
    | .ok f => .ok (setResult0 ((packPixel f (colourOperand s.arg0)).setWidth 32) s)

/-- UNPACK f (R550). -/
def execUnpack (fmt : Nat) (s : State) : Host.Outcome State Fault Refusal :=
  complete s <|
    match truecolorOperand fmt with
    | .error e => .error e
    | .ok f => .ok (setResult0 ((unpackPixel f (rawOperand f s.arg0)).setWidth 32) s)

/-- STRIDE f (R560). -/
def execStride (fmt : Nat) (s : State) : Host.Outcome State Fault Refusal :=
  complete s <|
    match formatOperand fmt with
    | .error e => .error e
    | .ok f =>
      let w := widthOperand s.arg0
      .ok (setResult1 (BitVec.ofNat 32 (maskStride w)) (setResult0 (BitVec.ofNat 32 (stride f w)) s))

end Machine

end Sys2Proof
end

