-- ==== Sys2Proof/Machine/Control.lean ====
section
/-! DEFINITION. The command NOP (R420). -/

namespace Sys2Proof.Machine

/-- NOP (R420): no effects. -/
def execNop (s : State) : Host.Outcome State Fault Refusal := complete s (.ok s)

end Sys2Proof.Machine
end

