-- ==== Sys2Proof/Machine/Frame.lean ====
section
/-! DEFINITION. Checks of frames against their descriptors and FMEM: the source frame (R820), the destination
(R821), a pixel's coordinates (R901). -/

namespace Sys2Proof.Machine

/-- A half-open range of FMEM offsets `[lo, hi)` (R240). -/
abbrev Range := Nat × Nat

/-- `overlaps([a, b), [c, d))` (R821). -/
def overlaps (r q : Range) : Bool := decide (r.1 < q.2) && decide (q.1 < r.2)

/-- The palette length legal for a format (R820, check 5). -/
def palLenLegal (f : PixFmt) (n : Nat) : Bool :=
  if f.isIndexed then decide (1 ≤ n) && decide (n ≤ 256) && (f != .indexed1 || n == 2) else n == 0

/-- The length of the mask of the source frame in bytes (R502). -/
def maskLen (s : State) : Nat := srcH s * maskStride (srcW s)

/-- The length of the output buffer of a conversion to `t` in bytes (R821). -/
def dstLen (s : State) (t : PixFmt) : Nat := srcH s * stride t (srcW s)

/-- `validateSource()` (R820) for a source of format `f`. -/
def validateSource (s : State) (f : PixFmt) : Except CmdError Unit :=
  if srcW s = 0 ∨ srcH s = 0 then .error (.invalidArgument .dimZero)
  else if srcStride s ≠ stride f (srcW s) then .error (.invalidArgument .strideMismatch)
  else if srcBufLen s ≠ srcH s * srcStride s then .error (.invalidArgument .bufLenMismatch)
  else if s.cfg.fmemSize < srcBase s + srcBufLen s then .error (.invalidArgument .srcBufRange)
  else if palLenLegal f (srcPalLen s) = false then .error (.invalidArgument .paletteLen)
  else if s.src.maskPresent = true ∧ s.cfg.fmemSize < srcMaskBase s + maskLen s then
    .error (.invalidArgument .srcMaskRange)
  else .ok ()

/-- The source pixel region. -/
def srcBufRange (s : State) : Range := (srcBase s, srcBase s + srcBufLen s)

/-- The source mask region, empty without a mask. -/
def srcMaskRange (s : State) : Range :=
  if s.src.maskPresent then (srcMaskBase s, srcMaskBase s + maskLen s) else (0, 0)

/-- The destination pixel region of a conversion to `t`. -/
def dstBufRange (s : State) (t : PixFmt) : Range := (dstBase s, dstBase s + dstLen s t)

/-- The destination mask region, empty without a mask. -/
def dstMaskRange (s : State) : Range :=
  if s.src.maskPresent then (dstMaskBase s, dstMaskBase s + maskLen s) else (0, 0)

/-- `validateDestination(t)` (R821). -/
def validateDestination (s : State) (t : PixFmt) : Except CmdError Unit :=
  if s.cfg.fmemSize < dstBase s + dstLen s t then .error (.invalidArgument .dstBufRange)
  else if overlaps (dstBufRange s t) (srcBufRange s) || overlaps (dstBufRange s t) (srcMaskRange s) then
    .error (.invalidArgument .dstBufOverlap)
  else if s.src.maskPresent = false then .ok ()
  else if s.cfg.fmemSize < dstMaskBase s + maskLen s then .error (.invalidArgument .dstMaskRange)
  else if overlaps (dstMaskRange s) (srcBufRange s) || overlaps (dstMaskRange s) (srcMaskRange s)
      || overlaps (dstMaskRange s) (dstBufRange s t) then
    .error (.invalidArgument .dstMaskOverlap)
  else .ok ()

/-- `validatePixelAccess()` (R901): the format of the source frame if the access is legal. -/
def validatePixelAccess (s : State) : Except CmdError PixFmt :=
  match formatOperand (srcFmtCode s) with
  | .error e => .error e
  | .ok f =>
    match validateSource s f with
    | .error e => .error e
    | .ok () =>
      if srcW s ≤ xOperand s ∨ srcH s ≤ yOperand s then .error (.invalidArgument .coordRange) else .ok f

end Sys2Proof.Machine
end

