-- ==== Sys2Proof/Machine/Octree.lean ====
section
/-! DEFINITION. color_quantizer_octree: AddColor, Reduce, CreatePalette and GetPaletteIndex on an octree
(R600 to R654). -/

namespace Sys2Proof.Machine

/-! ### Child selection (R610, R611) -/

/-- The slot of a key `r << 2 | g << 1 | b` (R610). -/
def Key.ofBits : Bool → Bool → Bool → Key
  | false, false, false => .k0
  | false, false, true => .k1
  | false, true, false => .k2
  | false, true, true => .k3
  | true, false, false => .k4
  | true, false, true => .k5
  | true, true, false => .k6
  | true, true, true => .k7

/-- `key(c, L)`: bit 7-L of R, G and B (R610). -/
def keyAt (c : Colour) (level : Nat) : Key :=
  Key.ofBits ((redOf c).getLsbD (7 - level)) ((greenOf c).getLsbD (7 - level)) ((blueOf c).getLsbD (7 - level))

/-- The path of a colour, `key(c, 0) .. key(c, 7)` (R611). -/
def pathOf (c : Colour) : Path :=
  [keyAt c 0, keyAt c 1, keyAt c 2, keyAt c 3, keyAt c 4, keyAt c 5, keyAt c 6, keyAt c 7]

/-! ### Nodes -/

/-- `child[k]` of a node (R601). -/
def Node.child : Node → Key → Node
  | .branch _ c0 c1 c2 c3 c4 c5 c6 c7, k =>
    match k with
    | .k0 => c0
    | .k1 => c1
    | .k2 => c2
    | .k3 => c3
    | .k4 => c4
    | .k5 => c5
    | .k6 => c6
    | .k7 => c7
  | .empty, _ => .empty
  | .leaf _, _ => .empty

/-- `child[k] <- n` of a non-leaf node. -/
def Node.setChild : Node → Key → Node → Node
  | .branch q c0 c1 c2 c3 c4 c5 c6 c7, k, n =>
    match k with
    | .k0 => .branch q n c1 c2 c3 c4 c5 c6 c7
    | .k1 => .branch q c0 n c2 c3 c4 c5 c6 c7
    | .k2 => .branch q c0 c1 n c3 c4 c5 c6 c7
    | .k3 => .branch q c0 c1 c2 n c4 c5 c6 c7
    | .k4 => .branch q c0 c1 c2 c3 n c5 c6 c7
    | .k5 => .branch q c0 c1 c2 c3 c4 n c6 c7
    | .k6 => .branch q c0 c1 c2 c3 c4 c5 n c7
    | .k7 => .branch q c0 c1 c2 c3 c4 c5 c6 n
  | .empty, _, _ => .empty
  | .leaf d, _, _ => .leaf d

/-- The eight child slots in ascending order. -/
def Node.kids (n : Node) : List Node :=
  [n.child .k0, n.child .k1, n.child .k2, n.child .k3, n.child .k4, n.child .k5, n.child .k6, n.child .k7]

/-- `leaf` of a node (R601). -/
def Node.isLeaf : Node → Bool
  | .leaf _ => true
  | .empty => false
  | .branch _ _ _ _ _ _ _ _ _ => false

/-- Whether a child slot is empty. -/
def Node.isEmpty : Node → Bool
  | .empty => true
  | .leaf _ => false
  | .branch _ _ _ _ _ _ _ _ _ => false

/-- `count` of a node; 0 for a non-leaf node (I5). -/
def Node.count : Node → BitVec 32
  | .leaf d => d.count
  | .empty => 0
  | .branch _ _ _ _ _ _ _ _ _ => 0

/-- `sumR` of a node; 0 for a non-leaf node (I5). -/
def Node.sumR : Node → BitVec 40
  | .leaf d => d.sumR
  | .empty => 0
  | .branch _ _ _ _ _ _ _ _ _ => 0

/-- `sumG` of a node; 0 for a non-leaf node (I5). -/
def Node.sumG : Node → BitVec 40
  | .leaf d => d.sumG
  | .empty => 0
  | .branch _ _ _ _ _ _ _ _ _ => 0

/-- `sumB` of a node; 0 for a non-leaf node (I5). -/
def Node.sumB : Node → BitVec 40
  | .leaf d => d.sumB
  | .empty => 0
  | .branch _ _ _ _ _ _ _ _ _ => 0

/-- `k` of R630: the number of children. -/
def Node.childCount (n : Node) : Nat := n.kids.countP (fun m => !m.isEmpty)

/-- The node at a path below a node, `empty` if there is none. -/
def Node.sub : Node → Path → Node
  | n, [] => n
  | n, k :: ks => (n.child k).sub ks

/-- The tree with the node at a path changed by `f`. -/
def Node.modify (f : Node → Node) : Node → Path → Node
  | n, [] => f n
  | n, k :: ks => n.setChild k ((n.child k).modify f ks)

/-! ### AddColor (R620 to R623) -/

/-- A leaf as R620 creates it, with nothing accumulated. -/
def LeafData.fresh (seq : Nat) : LeafData where
  seq := seq
  count := 0
  sumR := 0
  sumG := 0
  sumB := 0
  palIdx := none

/-- The accumulation of one colour in a leaf (R620). -/
def LeafData.accumulate (c : Colour) (d : LeafData) : LeafData :=
  { d with
    count := d.count + 1
    sumR := d.sumR + (redOf c).setWidth 40
    sumG := d.sumG + (greenOf c).setWidth 40
    sumB := d.sumB + (blueOf c).setWidth 40 }

/-- Accumulate a colour in a node that is a leaf. -/
def Node.bump (c : Colour) : Node → Node
  | .leaf d => .leaf (d.accumulate c)
  | .empty => .empty
  | .branch q c0 c1 c2 c3 c4 c5 c6 c7 => .branch q c0 c1 c2 c3 c4 c5 c6 c7

/-- A non-leaf node with no children. -/
def Node.bare (seq : Nat) : Node := .branch seq .empty .empty .empty .empty .empty .empty .empty .empty

/-- The nodes a descent creates below an empty slot, for the keys still to descend: one non-leaf node per key
and a leaf at level 8, numbered from `seq` in order of creation, the leaf holding `c` once. -/
def Node.fresh (c : Colour) (seq : Nat) : Path → Node
  | [] => .leaf ((LeafData.fresh seq).accumulate c)
  | k :: ks => (Node.bare seq).setChild k (Node.fresh c (seq + 1) ks)

/-- How many nodes the descent along the keys will create (`need` of R620): none when it meets a leaf, one for
the empty slot it meets and one for each key after it. -/
def Node.need : Node → Path → Nat
  | .empty, ks => ks.length + 1
  | .leaf _, _ => 0
  | .branch _ _ _ _ _ _ _ _ _, [] => 0
  | .branch q c0 c1 c2 c3 c4 c5 c6 c7, k :: ks =>
    ((Node.branch q c0 c1 c2 c3 c4 c5 c6 c7).child k).need ks

/-- The descent of R620: create what is missing, stop at the first leaf and accumulate there. -/
def Node.insert (c : Colour) (seq : Nat) : Node → Path → Node
  | .empty, ks => Node.fresh c seq ks
  | .leaf d, _ => .leaf (d.accumulate c)
  | .branch q c0 c1 c2 c3 c4 c5 c6 c7, [] => .branch q c0 c1 c2 c3 c4 c5 c6 c7
  | .branch q c0 c1 c2 c3 c4 c5 c6 c7, k :: ks =>
    (Node.branch q c0 c1 c2 c3 c4 c5 c6 c7).setChild k
      (((Node.branch q c0 c1 c2 c3 c4 c5 c6 c7).child k).insert c seq ks)

/-- The handle of the first leaf along the keys: the part of the path that leads to it. -/
def Node.leafPath : Node → Path → Path
  | .branch q c0 c1 c2 c3 c4 c5 c6 c7, k :: ks =>
    k :: ((Node.branch q c0 c1 c2 c3 c4 c5 c6 c7).child k).leafPath ks
  | .branch _ _ _ _ _ _ _ _ _, [] => []
  | .leaf _, _ => []
  | .empty, _ => []

/-- `red[L]` (R603); levels outside 1..7 have no list. -/
def Reducible.get (r : Reducible) (level : Nat) : List Path :=
  match level with
  | 1 => r.l1
  | 2 => r.l2
  | 3 => r.l3
  | 4 => r.l4
  | 5 => r.l5
  | 6 => r.l6
  | 7 => r.l7
  | _ => []

/-- Registration (R603): append a node of a level to that level's list. -/
def Reducible.push (r : Reducible) (level : Nat) (p : Path) : Reducible :=
  match level with
  | 1 => { r with l1 := r.l1 ++ [p] }
  | 2 => { r with l2 := r.l2 ++ [p] }
  | 3 => { r with l3 := r.l3 ++ [p] }
  | 4 => { r with l4 := r.l4 ++ [p] }
  | 5 => { r with l5 := r.l5 ++ [p] }
  | 6 => { r with l6 := r.l6 ++ [p] }
  | 7 => { r with l7 := r.l7 ++ [p] }
  | _ => r

/-- Register the node of one level on the path `ks` if a descent that created `need` nodes, the last of them at
level 8, created it: the nodes created have levels 9 - need .. 8. -/
def Reducible.registerAt (ks : Path) (need : Nat) (r : Reducible) (level : Nat) : Reducible :=
  if 9 - need ≤ level then r.push level (ks.take level) else r

/-- The registrations of a descent, in order of creation (R620, R603). -/
def Reducible.register (r : Reducible) (ks : Path) (need : Nat) : Reducible :=
  [1, 2, 3, 4, 5, 6, 7].foldl (Reducible.registerAt ks need) r

/-- The number of registered nodes. -/
def Reducible.size (r : Reducible) : Nat :=
  r.l1.length + r.l2.length + r.l3.length + r.l4.length + r.l5.length + r.l6.length + r.l7.length

/-- The leaf handle of the insertion cache, if it is valid for the colour. -/
def Octree.cachedLeaf (t : Octree) (c : Colour) : Option Path :=
  match t.addCache with
  | none => none
  | some (c', p) => if c' = c then some p else none

/-- The AddColor that descends (R620), once the capacity checks have passed. -/
def Octree.descend (t : Octree) (c : Colour) : Octree :=
  let ks := pathOf c
  let need := t.root.need ks
  let root := t.root.insert c t.nextSeq ks
  { t with
    root := root
    red := t.red.register ks need
    leafCount := if need = 0 then t.leafCount else t.leafCount + 1
    total := t.total + 1
    live := t.live + need
    nextSeq := t.nextSeq + need
    addCache := some (c, root.leafPath ks) }

/-- The AddColor that takes the run-length shortcut to the leaf `p` (R621). -/
def Octree.shortcut (t : Octree) (c : Colour) (p : Path) : Octree :=
  { t with
    root := t.root.modify (Node.bump c) p
    total := t.total + 1
    addCache := some (c, p) }

/-- `addColor(T, c)` (R620) with NODE_CAPACITY `cap`. -/
def Octree.addColour (cap : Nat) (t : Octree) (c : Colour) : Except CmdError Octree :=
  if maxTotal < t.total + 1 then .error .capacityExceeded
  else
    match t.cachedLeaf c with
    | some p => .ok (t.shortcut c p)
    | none =>
      if cap < t.live + t.root.need (pathOf c) then .error .capacityExceeded
      else .ok (t.descend c)

/-! ### Reduce (R630 to R633) -/

/-- The fold of R630: a non-leaf node becomes a leaf that holds the totals of its children. -/
def Node.fold (n : Node) : Node :=
  match n with
  | .branch q _ _ _ _ _ _ _ _ =>
    .leaf
      { seq := q
        count := (n.kids.map Node.count).foldl (· + ·) 0
        sumR := (n.kids.map Node.sumR).foldl (· + ·) 0
        sumG := (n.kids.map Node.sumG).foldl (· + ·) 0
        sumB := (n.kids.map Node.sumB).foldl (· + ·) 0
        palIdx := none }
  | .leaf d => .leaf d
  | .empty => .empty

/-- The last element of a level's list, and the lists without it. -/
def Reducible.popAt (r : Reducible) (level : Nat) : Option (Path × Reducible) :=
  match (r.get level).getLast? with
  | none => none
  | some p =>
    some (p,
      match level with
      | 1 => { r with l1 := r.l1.dropLast }
      | 2 => { r with l2 := r.l2.dropLast }
      | 3 => { r with l3 := r.l3.dropLast }
      | 4 => { r with l4 := r.l4.dropLast }
      | 5 => { r with l5 := r.l5.dropLast }
      | 6 => { r with l6 := r.l6.dropLast }
      | 7 => { r with l7 := r.l7.dropLast }
      | _ => r)

/-- The search of R630, from `level` down to 1: the deepest level whose list is not empty, its most recently
registered node, and the lists without it. -/
def Reducible.popFrom (r : Reducible) : Nat → Option (Nat × Path × Reducible)
  | 0 => none
  | level + 1 =>
    match r.popAt (level + 1) with
    | some (p, r') => some (level + 1, p, r')
    | none => r.popFrom level

/-- Fold the node at the handle `p`, whose registration `red` no longer holds (R630). -/
def Octree.foldNode (t : Octree) (p : Path) (red : Reducible) : Octree :=
  let k := (t.root.sub p).childCount
  { t with
    root := t.root.modify Node.fold p
    red := red
    live := t.live - k
    leafCount := t.leafCount + 1 - k
    addCache := none }

/-- `reduce(T)` (R630): the level of the folded node and the reduced octree, or QuantizerExhausted (R633). -/
def Octree.reduce (t : Octree) : Except CmdError (Nat × Octree) :=
  match t.red.popFrom 7 with
  | none => .error .quantizerExhausted
  | some (level, p, red) => .ok (level, t.foldNode p red)

/-! ### CreatePalette (R640 to R644) -/

/-- The loop of R640. The fuel bounds the number of reductions; `createPalette` gives it the number of
registered nodes, of which every reduction removes one (R641). -/
def Octree.reduceTo (maxColors : Nat) : Nat → Octree → Except CmdError Octree
  | 0, t => if maxColors < t.leafCount then .error .quantizerExhausted else .ok t
  | fuel + 1, t =>
    if maxColors < t.leafCount then
      match t.reduce with
      | .error e => .error e
      | .ok (_, t') => Octree.reduceTo maxColors fuel t'
    else .ok t

/-- One channel of a palette entry: the truncated mean (R643). -/
def meanOf (sum : BitVec 40) (count : BitVec 32) : Byte := BitVec.ofNat 8 (sum.toNat / count.toNat)

/-- The palette entry of a leaf (R640, R643). -/
def LeafData.colour (d : LeafData) : Colour :=
  rgb (meanOf d.sumR d.count) (meanOf d.sumG d.count) (meanOf d.sumB d.count)

/-- `visit(n)` (R640): the node with its leaves' indices recorded, and the palette extended. -/
def Node.visit : Node → List Colour → Node × List Colour
  | .empty, pal => (.empty, pal)
  | .leaf d, pal => (.leaf { d with palIdx := some (BitVec.ofNat 8 pal.length) }, pal ++ [d.colour])
  | .branch q c0 c1 c2 c3 c4 c5 c6 c7, pal =>
    let r0 := c0.visit pal
    let r1 := c1.visit r0.2
    let r2 := c2.visit r1.2
    let r3 := c3.visit r2.2
    let r4 := c4.visit r3.2
    let r5 := c5.visit r4.2
    let r6 := c6.visit r5.2
    let r7 := c7.visit r6.2
    (.branch q r0.1 r1.1 r2.1 r3.1 r4.1 r5.1 r6.1 r7.1, r7.2)

/-- The extraction of R640 after the reductions: visit the tree, freeze it, invalidate the lookup cache. -/
def Octree.extract (t : Octree) : Octree × List Colour :=
  let r := t.root.visit []
  ({ t with root := r.1, phase := .frozen, idxCache := none }, r.2)

/-- `createPalette(T, maxColors)` (R640). -/
def Octree.createPalette (t : Octree) (maxColors : Nat) : Except CmdError (Octree × List Colour) :=
  match t.reduceTo maxColors t.red.size with
  | .error e => .error e
  | .ok t' => .ok t'.extract

/-! ### GetPaletteIndex (R650 to R654) -/

/-- The descent of R650: the index of the first leaf along the keys, `none` at an empty slot or for a leaf
without an index. -/
def Node.lookup : Node → Path → Option Byte
  | .leaf d, _ => d.palIdx
  | .empty, _ => none
  | .branch _ _ _ _ _ _ _ _ _, [] => none
  | .branch q c0 c1 c2 c3 c4 c5 c6 c7, k :: ks =>
    ((Node.branch q c0 c1 c2 c3 c4 c5 c6 c7).child k).lookup ks

/-- The index of the lookup cache, if it is valid for the colour. -/
def Octree.cachedIndex (t : Octree) (c : Colour) : Option Byte :=
  match t.idxCache with
  | none => none
  | some (c', i) => if c' = c then some i else none

/-- `getPaletteIndex(T, c)` (R650): the index, and T with its lookup cache set. -/
def Octree.getPaletteIndex (t : Octree) (c : Colour) : Except CmdError (Octree × Byte) :=
  match t.cachedIndex c with
  | some i => .ok (t, i)
  | none =>
    match t.root.lookup (pathOf c) with
    | none => .error .paletteLookupFailure
    | some i => .ok ({ t with idxCache := some (c, i) }, i)

end Sys2Proof.Machine
end

