-- ==== Sys2Proof/Machine/Convert.lean ====
section
/-! DEFINITION. frame_format_converter: the conversion table, the conversion routines and the command REFORMAT
(R810 to R884). -/

namespace Sys2Proof.Machine

/-! ### The conversion table (R811, R812) -/

/-- The entries of the conversion table. -/
inductive Route where
  | clone | repack | expand | convert | quantize | unsupported
  deriving DecidableEq, Repr

/-- The table of R811, row the source format, column the target. -/
def routeTable : PixFmt → PixFmt → Route
  | .indexed1, .indexed1 => .clone
  | .indexed1, .indexed4 => .repack
  | .indexed1, .indexed8 => .repack
  | .indexed1, .rgb555 => .expand
  | .indexed1, .rgb565 => .expand
  | .indexed1, .rgb24 => .expand
  | .indexed4, .indexed1 => .repack
  | .indexed4, .indexed4 => .clone
  | .indexed4, .indexed8 => .repack
  | .indexed4, .rgb555 => .expand
  | .indexed4, .rgb565 => .expand
  | .indexed4, .rgb24 => .expand
  | .indexed8, .indexed1 => .repack
  | .indexed8, .indexed4 => .repack
  | .indexed8, .indexed8 => .clone
  | .indexed8, .rgb555 => .expand
  | .indexed8, .rgb565 => .expand
  | .indexed8, .rgb24 => .expand
  | .rgb555, .indexed1 => .unsupported
  | .rgb555, .indexed4 => .quantize
  | .rgb555, .indexed8 => .quantize
  | .rgb555, .rgb555 => .clone
  | .rgb555, .rgb565 => .convert
  | .rgb555, .rgb24 => .convert
  | .rgb565, .indexed1 => .unsupported
  | .rgb565, .indexed4 => .quantize
  | .rgb565, .indexed8 => .quantize
  | .rgb565, .rgb555 => .convert
  | .rgb565, .rgb565 => .clone
  | .rgb565, .rgb24 => .convert
  | .rgb24, .indexed1 => .unsupported
  | .rgb24, .indexed4 => .quantize
  | .rgb24, .indexed8 => .quantize
  | .rgb24, .rgb555 => .convert
  | .rgb24, .rgb565 => .convert
  | .rgb24, .rgb24 => .clone

/-- `route(s, t)` on codes: a table miss for a reserved code (R812). -/
def route (s t : Nat) : Route :=
  match PixFmt.ofCode s, PixFmt.ofCode t with
  | some f, some g => routeTable f g
  | some _, none => .unsupported
  | none, some _ => .unsupported
  | none, none => .unsupported

/-- The two formats and the routine of a conversion, or UNSUPPORTED_CONVERSION (R810, R811): a reserved
source, then a pair that is not in the table. -/
def selectRoute (s t : Nat) : Except CmdError (PixFmt × PixFmt × Route) :=
  match PixFmt.ofCode s, PixFmt.ofCode t with
  | some f, some g =>
    if route s t = .unsupported then .error .unsupportedConversion else .ok (f, g, route s t)
  | some _, none => .error .unsupportedConversion
  | none, some _ => .error .unsupportedConversion
  | none, none => .error .unsupportedConversion

/-! ### Row-major loops (R16) -/

/-- The pixels of a w by h frame in row-major order, as (x, y). -/
def rowMajor (w h : Nat) : List (Nat × Nat) :=
  (List.range h).flatMap fun y => (List.range w).map fun x => (x, y)

/-- Run a loop body on a list of pixels, in order; the first error ends the loop. -/
def forPixels {σ : Type} (body : σ → Nat → Nat → Except CmdError σ) : List (Nat × Nat) → σ → Except CmdError σ
  | [], a => .ok a
  | (x, y) :: ps, a =>
    match body a x y with
    | .error e => .error e
    | .ok a' => forPixels body ps a'

/-! ### The routines (R830 to R873) -/

/-- What a routine returns (R830): FMEM with the destination buffer written, the palette, and the transparent
index. -/
structure Converted where
  fmem : List Host.Cell
  pal : List Colour
  transp : Word
  deriving DecidableEq, Repr

/-- The transparent index of EXPAND, CONVERT and QUANTIZE: -1 (R882). -/
def noTransparent : Word := 0xFFFFFFFF

/-- `readRaw` of a source pixel in a working copy `m` of FMEM. -/
def readSrc (s : State) (f : PixFmt) (m : List Host.Cell) (x y : Nat) : Raw :=
  readRaw s.draws m f (srcBase s) (srcStride s) x y

/-- `writeRaw` of a destination pixel in a working copy `m` of FMEM. -/
def writeDst (s : State) (t : PixFmt) (m : List Host.Cell) (x y : Nat) (v : Raw) : List Host.Cell :=
  writeRaw s.draws m t (dstBase s) (stride t (srcW s)) x y v

/-- `fillZero()`. -/
def fillZero (s : State) (t : PixFmt) (m : List Host.Cell) : List Host.Cell :=
  zeroBytes m (dstBase s) (dstLen s t)

/-- The pixels of the source frame in row-major order. -/
def srcPixels (s : State) : List (Nat × Nat) := rowMajor (srcW s) (srcH s)

/-- `cloneFrame()` (R830). -/
def cloneFrame (s : State) : Except CmdError Converted :=
  .ok
    { fmem := copyBytes s.draws s.fmem (srcBase s) (dstBase s) (srcBufLen s)
      pal := srcPalList s (srcPalLen s)
      transp := s.src.transp }

/-- The loop body of R840. -/
def repackPixel (s : State) (f t : PixFmt) (m : List Host.Cell) (x y : Nat) : Except CmdError (List Host.Cell) :=
  let i := readSrc s f m x y
  if srcPalLen s ≤ i.toNat then .error (.invalidArgument .indexNotInPalette)
  else if 2 ^ t.bpp ≤ i.toNat then .error (.invalidArgument .indexTooWide)
  else .ok (writeDst s t m x y i)

/-- `repack(s, t)` (R840). -/
def repack (s : State) (f t : PixFmt) : Except CmdError Converted :=
  if t = .indexed1 ∧ srcPalLen s ≠ 2 then .error (.invalidArgument .dstPal1bpp)
  else
    match forPixels (repackPixel s f t) (srcPixels s) (fillZero s t s.fmem) with
    | .error e => .error e
    | .ok m => .ok { fmem := m, pal := srcPalList s (srcPalLen s), transp := s.src.transp }

/-- The loop body of R850. -/
def expandPixel (s : State) (f t : PixFmt) (m : List Host.Cell) (x y : Nat) : Except CmdError (List Host.Cell) :=
  match colourOfRaw s f (readSrc s f m x y) with
  | .error e => .error e
  | .ok c => .ok (writeDst s t m x y (packPixel t c))

/-- `expand(s, t)` (R850). -/
def expand (s : State) (f t : PixFmt) : Except CmdError Converted :=
  match forPixels (expandPixel s f t) (srcPixels s) (fillZero s t s.fmem) with
  | .error e => .error e
  | .ok m => .ok { fmem := m, pal := [], transp := noTransparent }

/-- The loop body of R860. -/
def convertOne (s : State) (f t : PixFmt) (m : List Host.Cell) (x y : Nat) : Except CmdError (List Host.Cell) :=
  .ok (writeDst s t m x y (convertPixel f t (readSrc s f m x y)))

/-- `convertTrue(s, t)` (R860). -/
def convertTrue (s : State) (f t : PixFmt) : Except CmdError Converted :=
  match forPixels (convertOne s f t) (srcPixels s) (fillZero s t s.fmem) with
  | .error e => .error e
  | .ok m => .ok { fmem := m, pal := [], transp := noTransparent }

/-- Pass 1 of R870: one AddColor to the private octree (R871, R873). -/
def buildPixel (s : State) (f : PixFmt) (T : Octree) (x y : Nat) : Except CmdError Octree :=
  T.addColour s.cfg.nodeCapacity (unpackPixel f (readSrc s f s.fmem x y))

/-- Pass 2 of R870: look one pixel up and store its index. -/
def indexPixel (s : State) (f t : PixFmt) (w : Octree × List Host.Cell) (x y : Nat) :
    Except CmdError (Octree × List Host.Cell) :=
  match w.1.getPaletteIndex (unpackPixel f (readSrc s f w.2 x y)) with
  | .error e => .error e
  | .ok (T, i) => .ok (T, writeDst s t w.2 x y (i.setWidth 24))

/-- `quantize(s, t)` (R870): pass 1, the palette, pass 2. -/
def quantize (s : State) (f t : PixFmt) : Except CmdError Converted :=
  match forPixels (buildPixel s f) (srcPixels s) Octree.empty with
  | .error e => .error e
  | .ok built =>
    match built.createPalette (2 ^ t.bpp) with
    | .error e => .error e
    | .ok (frozen, pal) =>
      match forPixels (indexPixel s f t) (srcPixels s) (frozen, fillZero s t s.fmem) with
      | .error e => .error e
      | .ok (_, m) => .ok { fmem := m, pal := pal, transp := noTransparent }

/-- The routine of a table entry (R810). -/
def runRoute (s : State) (f t : PixFmt) : Route → Except CmdError Converted
  | .clone => cloneFrame s
  | .repack => repack s f t
  | .expand => expand s f t
  | .convert => convertTrue s f t
  | .quantize => quantize s f t
  | .unsupported => .error .unsupportedConversion

/-! ### Mask, commit, command -/

/-- `copyMask()` (R881). -/
def copyMask (s : State) (m : List Host.Cell) : List Host.Cell :=
  if s.src.maskPresent then copyBytes s.draws m (srcMaskBase s) (dstMaskBase s) (maskLen s) else m

/-- The destination descriptor after a conversion to `t` (R880); DST_BASE and DST_MASK_BASE are the host's. -/
def dstDescriptor (s : State) (t : PixFmt) (np : Nat) (transp : Word) : FrameDesc :=
  { s.dst with
    fmt := BitVec.ofNat 3 t.code
    width := s.src.width
    height := s.src.height
    stride := BitVec.ofNat 32 (stride t (srcW s))
    bufLen := BitVec.ofNat 32 (dstLen s t)
    palLen := BitVec.ofNat 9 np
    maskPresent := s.src.maskPresent
    transp := transp }

/-- `commit(t, out)` (R880), with the mask copied. -/
def commit (s : State) (t : PixFmt) (out : Converted) : State :=
  { s with
    fmem := copyMask s out.fmem
    dstPal := Memory.setList s.dstPal 0 out.pal
    dst := dstDescriptor s t out.pal.length out.transp }

/-- The checks of REFORMAT before any pixel is read (R810): the conversion table, the source, the
destination. -/
def reformatChecks (s : State) (t : Nat) : Except CmdError (PixFmt × PixFmt × Route) :=
  match selectRoute (srcFmtCode s) t with
  | .error e => .error e
  | .ok r =>
    match validateSource s r.1 with
    | .error e => .error e
    | .ok () =>
      match validateDestination s r.2.1 with
      | .error e => .error e
      | .ok () => .ok r

/-- `execute(REFORMAT t)` (R810). -/
def reformat (s : State) (t : Nat) : Except CmdError State :=
  match reformatChecks s t with
  | .error e => .error e
  | .ok (f, g, r) =>
    match runRoute s f g r with
    | .error e => .error e
    | .ok out => .ok (commit s g out)

/-- REFORMAT t (R810). -/
def execReformat (fmt : Nat) (s : State) : Host.Outcome State Fault Refusal := complete s (reformat s fmt)

end Sys2Proof.Machine
end

