-- ==== Sys2Proof/Machine/Matcher.lean ====
section
/-! DEFINITION. palette_matcher_cam: the nearest palette entry by squared Euclidean distance, and the command
PAL_MATCH (R700 to R710). -/

namespace Sys2Proof.Machine

/-- The square of the signed difference of two channels (R701). -/
def sqDiff (a b : Byte) : Nat := (((a.toNat : Int) - (b.toNat : Int)) ^ 2).toNat

/-- `dist2(c, p)` (R701). -/
def dist2 (c p : Colour) : Nat :=
  sqDiff (redOf c) (redOf p) + sqDiff (greenOf c) (greenOf p) + sqDiff (blueOf c) (blueOf p)

/-- The loop of `match` after the entries 0 .. i (R702): the first index of the least distance so far, and
that distance. `dist i` is the distance to entry i. -/
def nearestUpTo (dist : Nat → Nat) : Nat → Nat × Nat
  | 0 => (0, dist 0)
  | i + 1 =>
    let best := nearestUpTo dist i
    if dist (i + 1) < best.2 then (i + 1, dist (i + 1)) else best

/-- `match(c, P, m)` for m ≥ 1 (R702): index and squared distance. -/
def matchPalette (c : Colour) (pal : Nat → Colour) (m : Nat) : Nat × Nat :=
  nearestUpTo (fun i => dist2 c (pal i)) (m - 1)

/-- PAL_MATCH (R710). -/
def execPalMatch (s : State) : Host.Outcome State Fault Refusal :=
  complete s <|
    let n := srcPalLen s
    if n < 1 ∨ 256 < n then .error (.invalidArgument .paletteEmpty)
    else
      let r := matchPalette (colourOperand s.arg0) (srcPalAt s) n
      .ok (setResult1 (BitVec.ofNat 32 r.2) (setResult0 (BitVec.ofNat 32 r.1) s))

end Sys2Proof.Machine
end

