-- ==== Sys2Proof/Machine/OctreeUnit.lean ====
section
/-! DEFINITION. The commands of the octree unit: OCT_RESET, OCT_ADD, OCT_REDUCE, OCT_PALETTE, OCT_INDEX
(R670 to R676). -/

namespace Sys2Proof.Machine

/-- `reg[RESULT0] <- T.leafCount`. -/
def setLeafResult (t : Octree) (s : State) : State := setResult0 (BitVec.ofNat 32 t.leafCount) s

/-- OCT_RESET (R670). -/
def execOctReset (s : State) : Host.Outcome State Fault Refusal := complete s (.ok (setOct .empty s))

/-- OCT_ADD (R671). -/
def execOctAdd (s : State) : Host.Outcome State Fault Refusal :=
  complete s <|
    if s.oct.phase = .frozen then .error .sequenceError
    else
      match s.oct.addColour s.cfg.nodeCapacity (colourOperand s.arg0) with
      | .error e => .error e
      | .ok t => .ok (setLeafResult t (setOct t s))

/-- OCT_REDUCE (R672). -/
def execOctReduce (s : State) : Host.Outcome State Fault Refusal :=
  complete s <|
    if s.oct.phase = .frozen then .error .sequenceError
    else
      match s.oct.reduce with
      | .error e => .error e
      | .ok (level, t) => .ok (setResult1 (BitVec.ofNat 32 level) (setLeafResult t (setOct t s)))

/-- OCT_PALETTE (R674). -/
def execOctPalette (s : State) : Host.Outcome State Fault Refusal :=
  complete s <|
    if s.oct.phase = .frozen then .error .sequenceError
    else
      let m := maxColorsOperand s
      if m < 1 ∨ 256 < m then .error (.invalidArgument .maxColorsRange)
      else
        match s.oct.createPalette m with
        | .error e => .error e
        | .ok (t, pal) =>
          .ok (setResult0 (BitVec.ofNat 32 pal.length) (setDstPalLen pal.length (setDstPal pal (setOct t s))))

/-- OCT_INDEX (R676). -/
def execOctIndex (s : State) : Host.Outcome State Fault Refusal :=
  complete s <|
    if s.oct.phase = .build then .error .sequenceError
    else
      match s.oct.getPaletteIndex (colourOperand s.arg0) with
      | .error e => .error e
      | .ok (t, i) => .ok (setResult0 (i.setWidth 32) (setOct t s))

end Sys2Proof.Machine
end

