-- ==== Sys2Proof/Machine/Pixel.lean ====
section
/-! DEFINITION. The per-pixel accessors GETPIXEL and SETPIXEL (R900 to R922). -/

namespace Sys2Proof.Machine

/-- The stored value of the addressed pixel of the source frame. -/
def addressedRaw (s : State) (f : PixFmt) : Raw :=
  readRaw s.draws s.fmem f (srcBase s) (srcStride s) (xOperand s) (yOperand s)

/-- The FMEM offset of the first byte of the addressed pixel. -/
def addressedByte (s : State) (f : PixFmt) : Nat :=
  pixelAddr f (srcBase s) (srcStride s) (xOperand s) (yOperand s)

/-- GETPIXEL (R910). -/
def execGetpixel (s : State) : Host.Outcome State Fault Refusal :=
  complete s <|
    match validatePixelAccess s with
    | .error e => .error e
    | .ok f =>
      match colourOfRaw s f (addressedRaw s f) with
      | .error e => .error e
      | .ok c => .ok (setResult1 ((addressedRaw s f).setWidth 32) (setResult0 (c.setWidth 32) s))

/-- The search length of SETPIXEL (R921): the entries a pixel of the frame's depth can store. -/
def searchLength (s : State) (f : PixFmt) : Nat := min (srcPalLen s) (2 ^ f.bpp)

/-- The value SETPIXEL stores for a colour, and the squared distance it reports (R920). -/
def pixelValue (s : State) (f : PixFmt) (c : Colour) : Raw × Nat :=
  if f.isIndexed then
    let r := matchPalette c (srcPalAt s) (searchLength s f)
    (BitVec.ofNat 24 r.1, r.2)
  else (packPixel f c, 0)

/-- SETPIXEL (R920). -/
def execSetpixel (s : State) : Host.Outcome State Fault Refusal :=
  complete s <|
    match validatePixelAccess s with
    | .error e => .error e
    | .ok f =>
      let v := pixelValue s f (colourOperand s.arg2)
      let m := writeRaw s.draws s.fmem f (srcBase s) (srcStride s) (xOperand s) (yOperand s) v.1
      .ok (setResult1 (BitVec.ofNat 32 v.2) (setResult0 (v.1.setWidth 32) (setFmem m s)))

end Sys2Proof.Machine
end

