-- ==== Sys2Proof/Machine/Dispatch.lean ====
section
/-! DEFINITION. The completion of a decoded command (R410): one arm per command, one meaning per arm. -/

namespace Sys2Proof.Machine

/-- The completion step of command `i` on the state `s` (R410). -/
def exec (i : Instr) (s : State) : Host.Outcome State Fault Refusal :=
  match i with
  | .nop => Sys2Proof.Machine.execNop s
  | .reformat fmt => Sys2Proof.Machine.execReformat fmt s
  | .getpixel => Sys2Proof.Machine.execGetpixel s
  | .setpixel => Sys2Proof.Machine.execSetpixel s
  | .palMatch => Sys2Proof.Machine.execPalMatch s
  | .pack fmt => Sys2Proof.Machine.execPack fmt s
  | .unpack fmt => Sys2Proof.Machine.execUnpack fmt s
  | .stride fmt => Sys2Proof.Machine.execStride fmt s
  | .octReset => Sys2Proof.Machine.execOctReset s
  | .octAdd => Sys2Proof.Machine.execOctAdd s
  | .octReduce => Sys2Proof.Machine.execOctReduce s
  | .octPalette => Sys2Proof.Machine.execOctPalette s
  | .octIndex => Sys2Proof.Machine.execOctIndex s

end Sys2Proof.Machine
end

