-- ==== Sys2Proof/WellFormed.lean ====
section
/-! DEFINITION. Which terms of `Instr` are commands the word format can hold. -/

namespace Sys2Proof

/-- The FORMAT number of a command, 0 for the nine commands that take none (R310). -/
def Instr.fmtCode : Instr → Nat
  | .nop => 0
  | .reformat f => f
  | .getpixel => 0
  | .setpixel => 0
  | .palMatch => 0
  | .pack f => f
  | .unpack f => f
  | .stride f => f
  | .octReset => 0
  | .octAdd => 0
  | .octReduce => 0
  | .octPalette => 0
  | .octIndex => 0

/-- A FORMAT is a number 0..7 (R350); it fills the 3-bit field FMT (R310). -/
def Instr.wellFormed (i : Instr) : Bool := decide (i.fmtCode < 8)

end Sys2Proof
end

