-- ==== Sys2Proof/Decode.lean ====
section
/-! DEFINITION. The command word CMDW (R310): the decoder, total over all words (R316), and the encoder. -/

namespace Sys2Proof

/-- Why a word is illegal, in the order R316 checks. Each of the three completes with ILLEGAL_COMMAND. -/
inductive DecodeError where
  /-- Fewer than four bytes: not a command word (R300). Raised by `decodeBytes` only. -/
  | shortWord
  /-- A bit of RSVD [31:11] is set (R313). -/
  | reservedBits
  /-- OPCODE is not in the opcode map (R312). -/
  | reservedOpcode
  /-- OPCODE takes no format and FMT is not 0 (R314). -/
  | formatNotZero
  deriving DecidableEq, Repr

/-- The field OPCODE [7:0] (R310). -/
def opcodeField (w : Word) : BitVec 8 := w.extractLsb' 0 8

/-- The field FMT [10:8] (R310). -/
def fmtField (w : Word) : BitVec 3 := w.extractLsb' 8 3

/-- The field RSVD [31:11] (R310). -/
def rsvdField (w : Word) : BitVec 21 := w.extractLsb' 11 21

/-- A command that takes no format is legal only with FMT = 0 (R314). -/
def plainCommand (fmt : BitVec 3) (i : Instr) : Except DecodeError Instr :=
  if fmt = 0 then .ok i else .error .formatNotZero

/-- The opcode map (R311): the command of an OPCODE and FMT, or why there is none. -/
def decodeFields (op : BitVec 8) (fmt : BitVec 3) : Except DecodeError Instr :=
  match op.toNat with
  | 0x00 => plainCommand fmt .nop
  | 0x01 => .ok (.reformat fmt.toNat)
  | 0x02 => plainCommand fmt .getpixel
  | 0x03 => plainCommand fmt .setpixel
  | 0x04 => plainCommand fmt .palMatch
  | 0x05 => .ok (.pack fmt.toNat)
  | 0x06 => .ok (.unpack fmt.toNat)
  | 0x07 => .ok (.stride fmt.toNat)
  | 0x10 => plainCommand fmt .octReset
  | 0x11 => plainCommand fmt .octAdd
  | 0x12 => plainCommand fmt .octReduce
  | 0x13 => plainCommand fmt .octPalette
  | 0x14 => plainCommand fmt .octIndex
  | _ => .error .reservedOpcode

/-- `decode` of R316: RSVD first, then OPCODE, then FMT of a command without a format. -/
def decode (w : Word) : Except DecodeError Instr :=
  if rsvdField w = 0 then decodeFields (opcodeField w) (fmtField w) else .error .reservedBits

/-- A command word as the host port moves it: four bytes, bits 7:0 in the first (R224, R300), and the bytes
after it. -/
def decodeBytes : List Byte → Except DecodeError (Instr × List Byte)
  | b0 :: b1 :: b2 :: b3 :: rest =>
    match decode (b3 ++ b2 ++ b1 ++ b0) with
    | .ok i => .ok (i, rest)
    | .error e => .error e
  | _ => .error .shortWord

/-- The OPCODE of a command (R311). -/
def Instr.opcode : Instr → BitVec 8
  | .nop => 0x00
  | .reformat _ => 0x01
  | .getpixel => 0x02
  | .setpixel => 0x03
  | .palMatch => 0x04
  | .pack _ => 0x05
  | .unpack _ => 0x06
  | .stride _ => 0x07
  | .octReset => 0x10
  | .octAdd => 0x11
  | .octReduce => 0x12
  | .octPalette => 0x13
  | .octIndex => 0x14

/-- The word of a command, OPCODE | (FMT << 8) (R310, R350). -/
def encode (i : Instr) : Word :=
  i.opcode.setWidth 32 ||| (BitVec.ofNat 32 i.fmtCode <<< 8)

/-- The command word of a table row: the row's `nbits` bits, the rest of the 32 being 0. -/
def tableWord (nbits w : Nat) : Word := BitVec.ofNat 32 (w % 2 ^ nbits)

/-- The four bytes of a word in the order the port moves them (R224). -/
def wordBytes (w : Word) : List Byte :=
  [w.extractLsb' 0 8, w.extractLsb' 8 8, w.extractLsb' 16 8, w.extractLsb' 24 8]

/-- What the decoder reads from a table row's bits, laid out as the port moves them. -/
def decodeTableWord (nbits w : Nat) : Option Instr :=
  match decodeBytes (wordBytes (tableWord nbits w)) with
  | .ok (i, _) => some i
  | .error _ => none

end Sys2Proof
end

