-- ==== Sys2Proof/Machine/Flags.lean ====
section
/-! DEFINITION. The status flags and the words STATUS and ERR_INFO show (R112, R113, R172, R1001): BUSY, DONE,
OVR and ERR, what a host write to STATUS clears, and what sets OVR. -/

namespace Sys2Proof.Machine

/-- The 4-bit code of STATUS.ERR (R1001). -/
def ErrCode.bits : ErrCode → BitVec 4
  | .none => 0
  | .unsupportedConversion => 1
  | .invalidArgument => 2
  | .paletteLookupFailure => 3
  | .quantizerExhausted => 4
  | .capacityExceeded => 5
  | .sequenceError => 6
  | .illegalCommand => 7

/-- STATUS.BUSY (R401): a command is in flight. -/
def busy (s : State) : Bool := s.inflight.isSome

/-- The word STATUS reads as: ERR in 11:8, OVR in 2, DONE in 1, BUSY in 0, the rest 0 (R112). -/
def statusWord (s : State) : Word :=
  0#20 ++ s.err.bits ++ 0#5 ++ BitVec.ofBool s.ovr ++ BitVec.ofBool s.done ++ BitVec.ofBool (busy s)

/-- The word ERR_INFO reads as: SUBCODE in 7:0 (R113). -/
def errInfoWord (s : State) : Word := 0#24 ++ s.errInfo

/-- A host write to STATUS (R112): bit 1 clears DONE, bit 2 clears OVR, no other bit does anything. -/
def writeStatus (v : Word) (s : State) : State :=
  { s with done := s.done && !v.getLsbD 1, ovr := s.ovr && !v.getLsbD 2 }

/-- A dropped write sets OVR (R404). -/
def setOverrun (s : State) : State := { s with ovr := true }

end Sys2Proof.Machine
end

