-- ==== Sys2Proof/Machine/HostPort.lean ====
section
/-! DEFINITION. The host target port: the register map (R102), the address map (R220 to R224), reads and writes
(R101, R225), access while BUSY (R404), and the soft reset (R1102, R1103). -/

namespace Sys2Proof.Machine

/-! ### The register map -/

/-- The registers of R102, in the order of their offsets. -/
inductive Reg where
  | id | ctrl | status | errInfo | cmd | arg0 | arg1 | arg2 | result0 | result1
  | srcFmt | srcWidth | srcHeight | srcStride | srcBase | srcBufLen | srcPalLen | srcMaskCtrl | srcMaskBase
  | srcTransp
  | dstFmt | dstWidth | dstHeight | dstStride | dstBase | dstBufLen | dstPalLen | dstMaskCtrl | dstMaskBase
  | dstTransp
  | octStatus | octLeaves | octNodes | octPixels
  deriving DecidableEq, Repr

/-- What a host address names (R102, R220). -/
inductive Target where
  | reg (r : Reg)
  | srcPal (i : Nat)
  | dstPal (i : Nat)
  /-- The FMEM byte at an offset, the first of the access. -/
  | fmem (offset : Nat)
  deriving DecidableEq, Repr

/-- The register at an offset below 0x400 (R102). -/
def Reg.ofOffset : Nat → Option Reg
  | 0x000 => some .id
  | 0x004 => some .ctrl
  | 0x008 => some .status
  | 0x00C => some .errInfo
  | 0x010 => some .cmd
  | 0x014 => some .arg0
  | 0x018 => some .arg1
  | 0x01C => some .arg2
  | 0x020 => some .result0
  | 0x024 => some .result1
  | 0x040 => some .srcFmt
  | 0x044 => some .srcWidth
  | 0x048 => some .srcHeight
  | 0x04C => some .srcStride
  | 0x050 => some .srcBase
  | 0x054 => some .srcBufLen
  | 0x058 => some .srcPalLen
  | 0x05C => some .srcMaskCtrl
  | 0x060 => some .srcMaskBase
  | 0x064 => some .srcTransp
  | 0x080 => some .dstFmt
  | 0x084 => some .dstWidth
  | 0x088 => some .dstHeight
  | 0x08C => some .dstStride
  | 0x090 => some .dstBase
  | 0x094 => some .dstBufLen
  | 0x098 => some .dstPalLen
  | 0x09C => some .dstMaskCtrl
  | 0x0A0 => some .dstMaskBase
  | 0x0A4 => some .dstTransp
  | 0x0C0 => some .octStatus
  | 0x0C4 => some .octLeaves
  | 0x0C8 => some .octNodes
  | 0x0CC => some .octPixels
  | _ => none

/-- The offset of a register (R102). -/
def Reg.offset : Reg → Nat
  | .id => 0x000
  | .ctrl => 0x004
  | .status => 0x008
  | .errInfo => 0x00C
  | .cmd => 0x010
  | .arg0 => 0x014
  | .arg1 => 0x018
  | .arg2 => 0x01C
  | .result0 => 0x020
  | .result1 => 0x024
  | .srcFmt => 0x040
  | .srcWidth => 0x044
  | .srcHeight => 0x048
  | .srcStride => 0x04C
  | .srcBase => 0x050
  | .srcBufLen => 0x054
  | .srcPalLen => 0x058
  | .srcMaskCtrl => 0x05C
  | .srcMaskBase => 0x060
  | .srcTransp => 0x064
  | .dstFmt => 0x080
  | .dstWidth => 0x084
  | .dstHeight => 0x088
  | .dstStride => 0x08C
  | .dstBase => 0x090
  | .dstBufLen => 0x094
  | .dstPalLen => 0x098
  | .dstMaskCtrl => 0x09C
  | .dstMaskBase => 0x0A0
  | .dstTransp => 0x0A4
  | .octStatus => 0x0C0
  | .octLeaves => 0x0C4
  | .octNodes => 0x0C8
  | .octPixels => 0x0CC

/-- The register or palette entry at an offset below 0xC00, if the offset is mapped (R102). -/
def targetAt (off : Nat) : Option Target :=
  if off % 4 ≠ 0 then none
  else if off < 0x400 then (Reg.ofOffset off).map .reg
  else if off < 0x800 then some (.srcPal ((off - 0x400) / 4))
  else if off < 0xC00 then some (.dstPal ((off - 0x800) / 4))
  else none

/-- The number of bytes of an access. -/
def BusSize.bytes : BusSize → Nat
  | .b1 => 1
  | .b2 => 2
  | .b4 => 4

/-- The host address of FMEM byte 0 (R212). -/
def fmemWindow : Nat := 0x00100000

/-- What an access reaches, `none` for a BUS_ERROR (R220 to R223): a register or palette entry needs 4 bytes at
a mapped multiple of 4; FMEM needs an address that is a multiple of the size and all bytes in the window. -/
def access (cfg : Config) (a : Nat) (n : BusSize) : Option Target :=
  if a < 0xC00 then
    if n = .b4 then targetAt a else none
  else if a < fmemWindow then none
  else if a % n.bytes = 0 ∧ a - fmemWindow + n.bytes ≤ cfg.fmemSize then some (.fmem (a - fmemWindow))
  else none

/-! ### Reads -/

/-- The word ID reads as (R110). -/
def idWord : Word := 0x43510100

/-- The word OCT_STATUS reads as (R161). -/
def octStatusWord (t : Octree) : Word :=
  match t.phase with
  | .build => 0
  | .frozen => 1

/-- The word a register reads as, reserved bits 0 (R110 to R161). -/
def readReg (s : State) : Reg → Word
  | .id => idWord
  | .ctrl => 0
  | .status => statusWord s
  | .errInfo => errInfoWord s
  | .cmd => s.cmd
  | .arg0 => s.arg0
  | .arg1 => s.arg1
  | .arg2 => s.arg2
  | .result0 => s.result0
  | .result1 => s.result1
  | .srcFmt => s.src.fmt.setWidth 32
  | .srcWidth => s.src.width.setWidth 32
  | .srcHeight => s.src.height.setWidth 32
  | .srcStride => s.src.stride
  | .srcBase => s.src.base
  | .srcBufLen => s.src.bufLen
  | .srcPalLen => s.src.palLen.setWidth 32
  | .srcMaskCtrl => (BitVec.ofBool s.src.maskPresent).setWidth 32
  | .srcMaskBase => s.src.maskBase
  | .srcTransp => s.src.transp
  | .dstFmt => s.dst.fmt.setWidth 32
  | .dstWidth => s.dst.width.setWidth 32
  | .dstHeight => s.dst.height.setWidth 32
  | .dstStride => s.dst.stride
  | .dstBase => s.dst.base
  | .dstBufLen => s.dst.bufLen
  | .dstPalLen => s.dst.palLen.setWidth 32
  | .dstMaskCtrl => (BitVec.ofBool s.dst.maskPresent).setWidth 32
  | .dstMaskBase => s.dst.maskBase
  | .dstTransp => s.dst.transp
  | .octStatus => octStatusWord s.oct
  | .octLeaves => BitVec.ofNat 32 s.oct.leafCount
  | .octNodes => BitVec.ofNat 32 s.oct.live
  | .octPixels => BitVec.ofNat 32 s.oct.total

/-- The FMEM bytes at an offset, little-endian, zero-extended (R223, R224). -/
def readFmem (s : State) (off : Nat) : BusSize → Word
  | .b1 => (read8 s.draws s.fmem off).setWidth 32
  | .b2 => (read16 s.draws s.fmem off).setWidth 32
  | .b4 => read32 s.draws s.fmem off

/-- The data of a read. -/
def readTarget (s : State) (n : BusSize) : Target → Word
  | .reg r => readReg s r
  | .srcPal i => (srcPalAt s i).setWidth 32
  | .dstPal i => (dstPalAt s i).setWidth 32
  | .fmem off => readFmem s off n

/-- Whether a register is a command output, which reads as an unspecified value while BUSY = 1 (R404). -/
def Reg.isOutput : Reg → Bool
  | .id => false
  | .ctrl => false
  | .status => false
  | .errInfo => true
  | .cmd => false
  | .arg0 => false
  | .arg1 => false
  | .arg2 => false
  | .result0 => true
  | .result1 => true
  | .srcFmt => false
  | .srcWidth => false
  | .srcHeight => false
  | .srcStride => false
  | .srcBase => false
  | .srcBufLen => false
  | .srcPalLen => false
  | .srcMaskCtrl => false
  | .srcMaskBase => false
  | .srcTransp => false
  | .dstFmt => true
  | .dstWidth => true
  | .dstHeight => true
  | .dstStride => true
  | .dstBase => false
  | .dstBufLen => true
  | .dstPalLen => true
  | .dstMaskCtrl => true
  | .dstMaskBase => false
  | .dstTransp => true
  | .octStatus => true
  | .octLeaves => true
  | .octNodes => true
  | .octPixels => true

/-- The targets whose reads are unspecified while BUSY = 1 (R404). -/
def Target.isOutput : Target → Bool
  | .reg r => r.isOutput
  | .srcPal _ => false
  | .dstPal _ => true
  | .fmem _ => true

/-- The low bytes of a value, as many as the access has. -/
def truncateTo (n : BusSize) (v : Word) : Word :=
  match n with
  | .b1 => (v.extractLsb' 0 8).setWidth 32
  | .b2 => (v.extractLsb' 0 16).setWidth 32
  | .b4 => v

/-- `Read(addr, size)` (R200): no side effect (R225). -/
def hostRead (s : State) (addr : Word) (n : BusSize) : BusResponse :=
  match access s.cfg addr.toNat n with
  | none => .busError
  | some t =>
    if busy s && t.isOutput then .data (truncateTo n (Config.freeRead s.draws addr.toNat))
    else .data (readTarget s n t)

/-! ### The soft reset -/

/-- The FMEM ranges, as (first byte, length), that a REFORMAT to `t` writes if its checks of R811, R820 and R821
pass (R1103). -/
def reformatRanges (s : State) (t : Nat) : List (Nat × Nat) :=
  match reformatChecks s t with
  | .error _ => []
  | .ok (_, g, _) =>
    if s.src.maskPresent then [(dstBase s, dstLen s g), (dstMaskBase s, maskLen s)] else [(dstBase s, dstLen s g)]

/-- The FMEM range of the pixel that a SETPIXEL writes if its checks pass (R1103). -/
def setpixelRanges (s : State) : List (Nat × Nat) :=
  match validatePixelAccess s with
  | .error _ => []
  | .ok f => [(addressedByte s f, pixelBytes f)]

/-- The FMEM ranges a command may have started to write (R1103). -/
def writtenRanges (s : State) : Instr → List (Nat × Nat)
  | .reformat t => reformatRanges s t
  | .setpixel => setpixelRanges s
  | .nop => []
  | .getpixel => []
  | .palMatch => []
  | .pack _ => []
  | .unpack _ => []
  | .stride _ => []
  | .octReset => []
  | .octAdd => []
  | .octReduce => []
  | .octPalette => []
  | .octIndex => []

/-- Those of the command in flight; none while idle or for an illegal word. -/
def abortedRanges (s : State) : List (Nat × Nat) :=
  match s.inflight with
  | none => []
  | some w =>
    match decode w with
    | .ok i => writtenRanges s i
    | .error _ => []

/-- FMEM after the abort: the bytes of those ranges take free values (R1103, U6). -/
def abortedFmem (s : State) : List Host.Cell :=
  (abortedRanges s).foldl (fun m r => scrambleBytes s.draws m r.1 r.2) s.fmem

/-- The soft reset (R1102). -/
def softReset (s : State) : State := setFmem (abortedFmem s) (softResetRegs s)

/-! ### Writes -/

/-- Whether host writes to a register are ignored, or act whether the engine is busy or not. -/
inductive WriteKind where
  /-- RO: ignored (R101). -/
  | ignored
  /-- CTRL and STATUS: take effect even while BUSY = 1 (R404). -/
  | always
  /-- Stored or, while BUSY = 1, dropped (R404). -/
  | stored
  deriving DecidableEq, Repr

/-- The access type of a register (R102). -/
def Reg.writeKind : Reg → WriteKind
  | .id => .ignored
  | .ctrl => .always
  | .status => .always
  | .errInfo => .ignored
  | .cmd => .stored
  | .arg0 => .stored
  | .arg1 => .stored
  | .arg2 => .stored
  | .result0 => .ignored
  | .result1 => .ignored
  | .srcFmt => .stored
  | .srcWidth => .stored
  | .srcHeight => .stored
  | .srcStride => .stored
  | .srcBase => .stored
  | .srcBufLen => .stored
  | .srcPalLen => .stored
  | .srcMaskCtrl => .stored
  | .srcMaskBase => .stored
  | .srcTransp => .stored
  | .dstFmt => .ignored
  | .dstWidth => .ignored
  | .dstHeight => .ignored
  | .dstStride => .ignored
  | .dstBase => .stored
  | .dstBufLen => .ignored
  | .dstPalLen => .ignored
  | .dstMaskCtrl => .ignored
  | .dstMaskBase => .stored
  | .dstTransp => .ignored
  | .octStatus => .ignored
  | .octLeaves => .ignored
  | .octNodes => .ignored
  | .octPixels => .ignored

/-- The access type of a target. -/
def Target.writeKind : Target → WriteKind
  | .reg r => r.writeKind
  | .srcPal _ => .stored
  | .dstPal _ => .ignored
  | .fmem _ => .stored

/-- A host write to a register that takes effect: the implemented bits are stored (R101); CMD issues a command
(R402), CTRL bit 0 resets (R111), STATUS clears (R112). -/
def writeReg (v : Word) (s : State) : Reg → State
  | .id => s
  | .ctrl => if v.getLsbD 0 then softReset s else s
  | .status => writeStatus v s
  | .errInfo => s
  | .cmd => acceptCommand v s
  | .arg0 => { s with arg0 := v }
  | .arg1 => { s with arg1 := v }
  | .arg2 => { s with arg2 := v }
  | .result0 => s
  | .result1 => s
  | .srcFmt => { s with src := { s.src with fmt := v.extractLsb' 0 3 } }
  | .srcWidth => { s with src := { s.src with width := v.extractLsb' 0 16 } }
  | .srcHeight => { s with src := { s.src with height := v.extractLsb' 0 16 } }
  | .srcStride => { s with src := { s.src with stride := v } }
  | .srcBase => { s with src := { s.src with base := v } }
  | .srcBufLen => { s with src := { s.src with bufLen := v } }
  | .srcPalLen => { s with src := { s.src with palLen := v.extractLsb' 0 9 } }
  | .srcMaskCtrl => { s with src := { s.src with maskPresent := v.getLsbD 0 } }
  | .srcMaskBase => { s with src := { s.src with maskBase := v } }
  | .srcTransp => { s with src := { s.src with transp := v } }
  | .dstFmt => s
  | .dstWidth => s
  | .dstHeight => s
  | .dstStride => s
  | .dstBase => { s with dst := { s.dst with base := v } }
  | .dstBufLen => s
  | .dstPalLen => s
  | .dstMaskCtrl => s
  | .dstMaskBase => { s with dst := { s.dst with maskBase := v } }
  | .dstTransp => s
  | .octStatus => s
  | .octLeaves => s
  | .octNodes => s
  | .octPixels => s

/-- FMEM after a host write of 1, 2 or 4 bytes (R223). -/
def writeFmem (m : List Host.Cell) (off : Nat) (n : BusSize) (v : Word) : List Host.Cell :=
  match n with
  | .b1 => write8 m off (v.extractLsb' 0 8)
  | .b2 => write16 m off (v.extractLsb' 0 16)
  | .b4 => write32 m off v

/-- A host write that takes effect. -/
def writeTarget (n : BusSize) (v : Word) (s : State) : Target → State
  | .reg r => writeReg v s r
  | .srcPal i => { s with srcPal := Memory.set s.srcPal i (v.extractLsb' 0 24) }
  | .dstPal _ => s
  | .fmem off => setFmem (writeFmem s.fmem off n v) s

/-- A host write that is not a bus error (R404): RO ignored; CTRL and STATUS at any time; every other write is
dropped and sets OVR while BUSY = 1. -/
def writeAccess (n : BusSize) (v : Word) (s : State) (t : Target) : State :=
  match t.writeKind with
  | .ignored => s
  | .always => writeTarget n v s t
  | .stored => if busy s then setOverrun s else writeTarget n v s t

/-- `Write(addr, size, data)` (R200): the state it leaves and the answer. -/
def hostWrite (s : State) (addr : Word) (n : BusSize) (v : Word) : State × BusResponse :=
  match access s.cfg addr.toNat n with
  | none => (s, .busError)
  | some t => (writeAccess n v s t, .ok)

/-- A host transaction takes place only while `rst_n` is high (R1100, U7). -/
def hostTransaction (s : State) (t : State × BusResponse) : Host.Outcome State Fault Refusal :=
  if s.rstN then .next (answer t.2 t.1) else .fault .hostTransactionInReset

end Sys2Proof.Machine
end

