-- ==== Sys2Proof/Machine/Engine.lean ====
section
/-! DEFINITION. The agents of the block (R400): the command engine's completion step (R410), the host's
transactions, the reset input, and which of them acts next. -/

namespace Sys2Proof.Machine

/-- The completion of the word in flight (R410): the command it decodes to, or ILLEGAL_COMMAND (R312 to R316). -/
def completeWord (w : Word) (s : State) : Host.Outcome State Fault Refusal :=
  match decode w with
  | .ok i => exec i s
  | .error _ => .next (takeError .illegalCommand s)

/-- The engine's turn: it completes the command in flight, or does nothing while idle (R401, R1065) or in
reset (R1100). -/
def engineTurn (s : State) : Host.Outcome State Fault Refusal :=
  if s.rstN then
    match s.inflight with
    | none => .next s
    | some w => completeWord w s
  else .next s

/-- `rst_n` goes high (R1100): every piece of state has its power-on value. A high input stays high. -/
def releaseReset (s : State) : State := if s.rstN then s else powerOn true s

/-- What an entry of `inputs` does. -/
def perform (s : State) : Input → Host.Outcome State Fault Refusal
  | .read a n => hostTransaction s (s, hostRead s a n)
  | .write a n v => hostTransaction s (hostWrite s a n v)
  | .engine => engineTurn s
  | .resetAssert => .next (powerOn false s)
  | .resetRelease => .next (releaseReset s)

/-- What acts next: the first entry of `inputs`; the engine when there is none (R403: completion is
guaranteed). -/
def nextInput (s : State) : Input := s.inputs.headD .engine

/-- The state in which it acts: its entry taken, a new draw of free values begun. -/
def turnState (s : State) : State := nextTurn s.inputs.tail s

/-- The state in which the engine completes the word `w` next: the host's write of `w` to CMD is accepted
(R402) with `rst_n` high, and the engine acts before the entries of `inputs`. -/
def fetchState (w : Word) (s : State) : State :=
  { acceptCommand w s with rstN := true, inputs := .engine :: s.inputs }

end Sys2Proof.Machine
end

