-- ==== Sys2Proof/Machine/Step.lean ====
section
/-! DEFINITION. One step of the block: the next entry of `inputs` acts, or the engine. -/

namespace Sys2Proof.Machine

/-- One step (R400). -/
def step (s : State) : Host.Outcome State Fault Refusal := perform (turnState s) (nextInput s)

/-- `s` with a table row's word accepted and the engine next, so that the very next step runs it. -/
def State.withFetchWord (s : State) (nbits w : Nat) : State := fetchState (tableWord nbits w) s

end Sys2Proof.Machine
end

