-- ==== Sys2Proof/Machine/HostProgram.lean ====
section
/-! DEFINITION. Command text (R350) and host programs (R351, R352): the lines, the pseudo-instructions as lists of
lines, and a host agent that runs a program against the block, one agent acting at a time (R400, R403). -/

namespace Sys2Proof

/-- The name of a format (R330, R350). -/
def PixFmt.name : PixFmt → String
  | .indexed1 => "Indexed1"
  | .indexed4 => "Indexed4"
  | .indexed8 => "Indexed8"
  | .rgb555 => "Rgb555"
  | .rgb565 => "Rgb565"
  | .rgb24 => "Rgb24"

/-- A FORMAT: a format's name, or the number of a code that has none (R350). -/
def formatText (code : Nat) : String :=
  match PixFmt.ofCode code with
  | some f => f.name
  | none => toString code

/-- A command as R350 writes it. -/
def Instr.text : Instr → String
  | .nop => "NOP"
  | .reformat f => "REFORMAT " ++ formatText f
  | .getpixel => "GETPIXEL"
  | .setpixel => "SETPIXEL"
  | .palMatch => "PAL_MATCH"
  | .pack f => "PACK " ++ formatText f
  | .unpack f => "UNPACK " ++ formatText f
  | .stride f => "STRIDE " ++ formatText f
  | .octReset => "OCT_RESET"
  | .octAdd => "OCT_ADD"
  | .octReduce => "OCT_REDUCE"
  | .octPalette => "OCT_PALETTE"
  | .octIndex => "OCT_INDEX"

namespace Machine

/-- A base line of a host program (R351). Temporaries are numbered; a label is the number of the line it
marks. DESIGN CHOICE (log 13). -/
inductive Line where
  /-- `WR32`, `WR16`, `WR8`. -/
  | wr (n : BusSize) (addr : Word) (v : Word)
  /-- `RD32 addr -> t`, `RD16`, `RD8`. -/
  | rd (n : BusSize) (addr : Word) (t : Nat)
  /-- `RD32 addr == v`: an assertion, not an effect. -/
  | rdIs (n : BusSize) (addr : Word) (v : Word)
  /-- `BNE t, mask, v, label`. -/
  | bne (t : Nat) (mask : Word) (v : Word) (label : Nat)
  deriving DecidableEq, Repr

/-- The host address of a register. -/
def regAddr (r : Reg) : Word := BitVec.ofNat 32 r.offset

/-- `WR32 name, v`. -/
def wrReg (r : Reg) (v : Word) : Line := .wr .b4 (regAddr r) v

/-- A command line: `WR32 CMD, word` (R351). -/
def cmdLine (i : Instr) : Line := wrReg .cmd (encode i)

/-- `FMEM+a` (R351). DESIGN CHOICE (log 13): an address that does not fit 32 bits is taken modulo 2^32. -/
def fmemAddr (a : Nat) : Word := BitVec.ofNat 32 (fmemWindow + a)

/-- `WAIT` at line `here`, polling with temporary `t` (R352). -/
def waitLines (here t : Nat) : List Line := [.rd .b4 (regAddr .status) t, .bne t 1 0 here]

/-- `RUN cmd` whose first line is line `here` (R352). -/
def runLines (here t : Nat) (i : Instr) : List Line := cmdLine i :: waitLines (here + 1) t

/-- `CHECK_OK` (R352). -/
def checkOk : Line := .rdIs .b4 (regAddr .status) 2

/-- `SRCDESC f, w, h, base, npal, maskbase|none, transp` (R352). R352 does not say what is written for a number that does
not fit 32 bits, such as `h × stride(f, w)`, which D43 lets come near 2^34. DESIGN CHOICE (log 13): it is written modulo
2^32; and `f` is one of the six formats, since a reserved code has no stride. -/
def srcDesc (f : PixFmt) (w h base npal : Nat) (mask : Option Nat) (transp : Word) : List Line :=
  [ wrReg .srcFmt (BitVec.ofNat 32 f.code)
  , wrReg .srcWidth (BitVec.ofNat 32 w)
  , wrReg .srcHeight (BitVec.ofNat 32 h)
  , wrReg .srcStride (BitVec.ofNat 32 (stride f w))
  , wrReg .srcBase (BitVec.ofNat 32 base)
  , wrReg .srcBufLen (BitVec.ofNat 32 (h * stride f w))
  , wrReg .srcPalLen (BitVec.ofNat 32 npal)
  , wrReg .srcMaskCtrl (if mask.isSome then 1 else 0)
  , wrReg .srcMaskBase (BitVec.ofNat 32 (mask.getD 0))
  , wrReg .srcTransp transp ]

/-- `DSTDESC base, maskbase` (R352). DESIGN CHOICE (log 13): numbers are written modulo 2^32. -/
def dstDesc (base maskBase : Nat) : List Line :=
  [wrReg .dstBase (BitVec.ofNat 32 base), wrReg .dstMaskBase (BitVec.ofNat 32 maskBase)]

/-- `PAL i, c` (R352). DESIGN CHOICE (log 13): an `i` above 255 gives the address SRC_PAL + 4i, modulo 2^32, all the same. -/
def palLine (i : Nat) (c : Colour) : Line := .wr .b4 (BitVec.ofNat 32 (0x400 + 4 * i)) (c.setWidth 32)

/-- `ARGS a0[, a1[, a2]]` (R352): omitted operands are not written. DESIGN CHOICE (log 13): an empty list writes nothing,
and what follows a2 is ignored. -/
def argsLines : List Word → List Line
  | [] => []
  | [a0] => [wrReg .arg0 a0]
  | [a0, a1] => [wrReg .arg0 a0, wrReg .arg1 a1]
  | a0 :: a1 :: a2 :: _ => [wrReg .arg0 a0, wrReg .arg1 a1, wrReg .arg2 a2]

/-- A host that runs a program: its lines, the number of the next one, its temporaries (an unwritten one reads
0), and the number of assertions that failed. DESIGN CHOICE (log 13). -/
structure HostAgent where
  prog : List Line
  next : Nat
  temps : List (Nat × Word)
  failed : Nat
  deriving DecidableEq, Repr

/-- The block and the host that drives it. -/
structure System where
  host : HostAgent
  block : State
  deriving DecidableEq, Repr

/-- The two agents (R400). -/
inductive Agent where
  | host | engine
  deriving DecidableEq, Repr

/-- One step of the block in which `i` acts. -/
def stepInput (i : Input) (s : State) : Host.Outcome State Fault Refusal :=
  step { s with inputs := i :: s.inputs }

/-- The data of the block's last answer. DESIGN CHOICE (log 13): 0 for an answer without data, as BUS_ERROR is. -/
def answeredData (s : State) : Word :=
  match s.response with
  | some (.data v) => v
  | some .ok => 0
  | some .busError => 0
  | none => 0

/-- The host after the answer to its line `l` (R351). What the host does with a BUS_ERROR is outside the block (R201), and
R351 is silent. DESIGN CHOICE (log 13): the host goes on to the next line, whatever the answer; a `WR` line ignores it, an
`RD` line that has no data sets its temporary to 0, and an assertion that does not read its value counts as failed. -/
def HostAgent.afterLine (h : HostAgent) (s : State) : Line → HostAgent
  | .wr _ _ _ => { h with next := h.next + 1 }
  | .rd _ _ t => { h with next := h.next + 1, temps := Memory.set h.temps t (answeredData s) }
  | .rdIs _ _ v =>
    { h with next := h.next + 1, failed := if s.response = some (.data v) then h.failed else h.failed + 1 }
  | .bne t mask v label =>
    { h with next := if (Memory.get? h.temps t).getD 0 &&& mask ≠ v then label else h.next + 1 }

/-- The transaction of a line, if it has one. -/
def Line.input : Line → Option Input
  | .wr n a v => some (.write a n v)
  | .rd n a _ => some (.read a n)
  | .rdIs n a _ => some (.read a n)
  | .bne _ _ _ _ => none

/-- The host runs its next line; it does nothing after its last one (DESIGN CHOICE, log 13). -/
def System.hostStep (S : System) : Host.Outcome System Fault Refusal :=
  match S.host.prog[S.host.next]? with
  | none => .next S
  | some l =>
    match l.input with
    | none => .next { S with host := S.host.afterLine S.block l }
    | some i =>
      match stepInput i S.block with
      | .next s => .next { host := S.host.afterLine s l, block := s }
      | .fault r => .fault r
      | .refused r => .refused r

/-- The engine completes the command in flight, if there is one. -/
def System.engineStep (S : System) : Host.Outcome System Fault Refusal :=
  match stepInput .engine S.block with
  | .next s => .next { S with block := s }
  | .fault r => .fault r
  | .refused r => .refused r

/-- One step of the system in which `a` acts; a schedule of agents is one interleaving (R403). -/
def System.step (S : System) : Agent → Host.Outcome System Fault Refusal
  | .host => S.hostStep
  | .engine => S.engineStep

/-- A schedule run to its end, or to the first fault. -/
def System.run : List Agent → System → Host.Outcome System Fault Refusal
  | [], S => .next S
  | a :: as, S =>
    match S.step a with
    | .next S' => System.run as S'
    | .fault r => .fault r
    | .refused r => .refused r

end Machine

end Sys2Proof
end

