-- ==== Sys2Proof/Safety.lean ====
section
/-! DEFINITION. The terms claims use: how a command ends (R410), what it leaves alone, legal frames and the order of
their checks (R820, R821), the octree invariants (R606), and the invariant of the whole state. -/

namespace Sys2Proof.Machine

/-! ### How a command ends (R410, R1030) -/

/-- The state after a command without error, `s` holding its effects: ERR, ERR_INFO and BUSY 0, DONE 1 (R410). -/
def State.succeeded (s : State) : State := { s with err := .none, errInfo := 0, inflight := none, done := true }

/-- The state after a command that failed in `s` with a code and subcode: nothing else changes (R1030). -/
def State.failed (s : State) (code : ErrCode) (sub : Byte) : State :=
  { s with err := code, errInfo := sub, inflight := none, done := true }

/-- What no command writes: the operand, source and placement registers, CMD, SRC_PAL and OVR (R121, R140, R150,
R170, R172), and the model's own fields. -/
structure InputsKept (s t : State) : Prop where
  cfg : t.cfg = s.cfg
  rstN : t.rstN = s.rstN
  ovr : t.ovr = s.ovr
  cmd : t.cmd = s.cmd
  arg0 : t.arg0 = s.arg0
  arg1 : t.arg1 = s.arg1
  arg2 : t.arg2 = s.arg2
  src : t.src = s.src
  srcPal : t.srcPal = s.srcPal
  dstBase : t.dst.base = s.dst.base
  dstMaskBase : t.dst.maskBase = s.dst.maskBase
  inputs : t.inputs = s.inputs
  response : t.response = s.response
  draws : t.draws = s.draws

/-- FMEM byte `a` holds in `t` what it holds in `s`, so that every read of it gives the same. -/
def SameByte (s t : State) (a : Nat) : Prop := Memory.get? t.fmem a = Memory.get? s.fmem a

/-! ### Legal frames -/

/-- The source descriptor passes every check of R820 for the format `f`, which is the one in SRC_FMT. -/
structure SourceLegal (s : State) (f : PixFmt) : Prop where
  fmt : PixFmt.ofCode (srcFmtCode s) = some f
  width : 1 ≤ srcW s
  height : 1 ≤ srcH s
  stride : srcStride s = Sys2Proof.stride f (srcW s)
  length : srcBufLen s = srcH s * srcStride s
  buffer : srcBase s + srcBufLen s ≤ s.cfg.fmemSize
  palette : f.isIndexed = true → 1 ≤ srcPalLen s ∧ srcPalLen s ≤ 256
  palette1 : f = .indexed1 → srcPalLen s = 2
  noPalette : f.isIndexed = false → srcPalLen s = 0
  mask : s.src.maskPresent = true → srcMaskBase s + srcH s * maskStride (srcW s) ≤ s.cfg.fmemSize

/-- Two ranges given by first byte and length have no byte in common. -/
def Apart (a n b m : Nat) : Prop := a + n ≤ b ∨ b + m ≤ a

/-- The destination of a conversion to `t` passes every check of R821. -/
structure DestinationLegal (s : State) (t : PixFmt) : Prop where
  buffer : dstBase s + srcH s * Sys2Proof.stride t (srcW s) ≤ s.cfg.fmemSize
  offSource : Apart (dstBase s) (srcH s * Sys2Proof.stride t (srcW s)) (srcBase s) (srcBufLen s)
  offMask : s.src.maskPresent = true →
    Apart (dstBase s) (srcH s * Sys2Proof.stride t (srcW s)) (srcMaskBase s) (srcH s * maskStride (srcW s))
  mask : s.src.maskPresent = true → dstMaskBase s + srcH s * maskStride (srcW s) ≤ s.cfg.fmemSize
  maskOffSource : s.src.maskPresent = true →
    Apart (dstMaskBase s) (srcH s * maskStride (srcW s)) (srcBase s) (srcBufLen s)
  maskOffMask : s.src.maskPresent = true →
    Apart (dstMaskBase s) (srcH s * maskStride (srcW s)) (srcMaskBase s) (srcH s * maskStride (srcW s))
  maskOffBuffer : s.src.maskPresent = true →
    Apart (dstMaskBase s) (srcH s * maskStride (srcW s)) (dstBase s) (srcH s * Sys2Proof.stride t (srcW s))

/-- Whether an FMEM offset lies in a range given by first byte and length. -/
def InRange (a n x : Nat) : Prop := a ≤ x ∧ x < a + n

/-- The offsets a successful REFORMAT to `t` writes (R883): the destination buffer and, with a mask, the
destination mask. -/
def Footprint (s : State) (t : PixFmt) (x : Nat) : Prop :=
  InRange (dstBase s) (srcH s * Sys2Proof.stride t (srcW s)) x ∨
  (s.src.maskPresent = true ∧ InRange (dstMaskBase s) (srcH s * maskStride (srcW s)) x)

/-- The stored value of pixel (x, y) of the source frame, whose format is `f`. -/
def sourceRaw (s : State) (f : PixFmt) (x y : Nat) : Raw :=
  readRaw s.draws s.fmem f (srcBase s) (Sys2Proof.stride f (srcW s)) x y

/-- The stored value of pixel (x, y) of the frame at DST_BASE that a REFORMAT of `s` to `t` has left in `s'`. -/
def destinationRaw (s s' : State) (t : PixFmt) (x y : Nat) : Raw :=
  readRaw s.draws s'.fmem t (dstBase s) (Sys2Proof.stride t (srcW s)) x y

/-- Whether pixel (u, v) comes before pixel (x, y) in row-major order (R16). -/
def Before (u v x y : Nat) : Prop := v < y ∨ (v = y ∧ u < x)

/-- The checks of R820 in order, for a source of format `f`: whether each fails, and its subcode. -/
def sourceChecks (s : State) (f : PixFmt) : List (Bool × Byte) :=
  [ (srcW s == 0 || srcH s == 0, 1)
  , (srcStride s != (srcW s * f.bpp + 31) / 32 * 4, 2)
  , (srcBufLen s != srcH s * srcStride s, 3)
  , (decide (srcBase s + srcBufLen s > s.cfg.fmemSize), 4)
  , (if f.isIndexed then srcPalLen s == 0 || decide (srcPalLen s > 256) || (f == .indexed1 && srcPalLen s != 2)
      else srcPalLen s != 0, 5)
  , (s.src.maskPresent && decide (srcMaskBase s + srcH s * ((srcW s + 31) / 32 * 4) > s.cfg.fmemSize), 6) ]

/-- Two half-open ranges, each given by first byte and length, overlap as R821 defines it. -/
def rangesOverlap (a n b m : Nat) : Bool := decide (a < b + m) && decide (b < a + n)

/-- The checks of R821 in order, for a conversion to `t`. -/
def destinationChecks (s : State) (t : PixFmt) : List (Bool × Byte) :=
  let dlen := srcH s * ((srcW s * t.bpp + 31) / 32 * 4)
  let mlen := srcH s * ((srcW s + 31) / 32 * 4)
  let mp := s.src.maskPresent
  [ (decide (dstBase s + dlen > s.cfg.fmemSize), 7)
  , (rangesOverlap (dstBase s) dlen (srcBase s) (srcBufLen s)
      || (mp && rangesOverlap (dstBase s) dlen (srcMaskBase s) mlen), 8)
  , (mp && decide (dstMaskBase s + mlen > s.cfg.fmemSize), 9)
  , (mp && (rangesOverlap (dstMaskBase s) mlen (srcBase s) (srcBufLen s)
      || rangesOverlap (dstMaskBase s) mlen (srcMaskBase s) mlen
      || rangesOverlap (dstMaskBase s) mlen (dstBase s) dlen), 10) ]

/-- The check of R901 after those of the source frame. -/
def coordinateCheck (s : State) : List (Bool × Byte) := [(decide (xOperand s ≥ srcW s) || decide (yOperand s ≥ srcH s), 13)]

/-- The subcode of the first check that fails (R1020). -/
def firstFailure : List (Bool × Byte) → Option Byte
  | [] => none
  | (bad, sub) :: rest => if bad then some sub else firstFailure rest

/-- The number of bytes of a row of `w` pixels that hold pixels; the rest of the row is padding (R536). -/
def pixelRowBytes (t : PixFmt) (w : Nat) : Nat := (w * t.bpp + 7) / 8

/-- The colour of a pixel of a truecolor source (R873). -/
def sourceColour (s : State) (f : PixFmt) (x y : Nat) : Colour := unpackPixel f (sourceRaw s f x y)

/-- The colours of a truecolor source in row-major order (R872). -/
def sourceColours (s : State) (f : PixFmt) : List Colour :=
  (rowMajor (srcW s) (srcH s)).map fun p => sourceColour s f p.1 p.2

/-- The squared Euclidean distance of two colours (R701), over signed integers. -/
def squaredDistance (c p : Colour) : Int :=
  (((redOf c).toNat : Int) - (redOf p).toNat) ^ 2 + (((greenOf c).toNat : Int) - (greenOf p).toNat) ^ 2 +
    (((blueOf c).toNat : Int) - (blueOf p).toNat) ^ 2

/-! ### Child slots of a colour -/

/-- The number of a child slot (R601). -/
def Key.number : Key → Nat
  | .k0 => 0
  | .k1 => 1
  | .k2 => 2
  | .k3 => 3
  | .k4 => 4
  | .k5 => 5
  | .k6 => 6
  | .k7 => 7

/-- `key(c, L)` as a number, from the bits of the colour: bit 7-L of R, of G and of B (R610). -/
def keySlot (c : Colour) (level : Nat) : Nat :=
  4 * (c.getLsbD (23 - level)).toNat + 2 * (c.getLsbD (15 - level)).toNat + (c.getLsbD (7 - level)).toNat

/-- The path of a colour as slot numbers, level 0 first (R611). -/
def keySlots (c : Colour) : List Nat := (List.range 8).map (keySlot c)

/-! ### Octree measures -/

/-- A node that is neither empty nor a leaf. -/
def Node.isBranch (n : Node) : Bool := !n.isEmpty && !n.isLeaf

/-- The number of leaves of a tree. -/
def Node.leaves : Node → Nat
  | .empty => 0
  | .leaf _ => 1
  | .branch _ c0 c1 c2 c3 c4 c5 c6 c7 =>
    c0.leaves + c1.leaves + c2.leaves + c3.leaves + c4.leaves + c5.leaves + c6.leaves + c7.leaves

/-- The number of nodes of a tree. -/
def Node.nodes : Node → Nat
  | .empty => 0
  | .leaf _ => 1
  | .branch _ c0 c1 c2 c3 c4 c5 c6 c7 =>
    1 + (c0.nodes + c1.nodes + c2.nodes + c3.nodes + c4.nodes + c5.nodes + c6.nodes + c7.nodes)

/-- The sum of `count` over the leaves of a tree. -/
def Node.pixels : Node → Nat
  | .empty => 0
  | .leaf d => d.count.toNat
  | .branch _ c0 c1 c2 c3 c4 c5 c6 c7 =>
    c0.pixels + c1.pixels + c2.pixels + c3.pixels + c4.pixels + c5.pixels + c6.pixels + c7.pixels

/-- The sum of a quantity over the leaves of a tree. -/
def Node.sumOver (q : LeafData → Nat) : Node → Nat
  | .empty => 0
  | .leaf d => q d
  | .branch _ c0 c1 c2 c3 c4 c5 c6 c7 =>
    c0.sumOver q + c1.sumOver q + c2.sumOver q + c3.sumOver q + c4.sumOver q + c5.sumOver q + c6.sumOver q +
      c7.sumOver q

/-- I6 of R606 on one leaf. -/
def LeafData.sound (d : LeafData) : Prop :=
  1 ≤ d.count.toNat ∧ d.sumR.toNat ≤ 255 * d.count.toNat ∧ d.sumG.toNat ≤ 255 * d.count.toNat ∧
    d.sumB.toNat ≤ 255 * d.count.toNat

/-- I1, I4 and I6 of R606 on a tree whose root is at `level`: a node of level 8 is a leaf, a leaf is below level
0, a non-leaf node of levels 1..7 has a child, and every leaf is sound. -/
def Node.shaped : Nat → Node → Prop
  | _, .empty => True
  | level, .leaf d => 1 ≤ level ∧ d.sound
  | level, .branch _ c0 c1 c2 c3 c4 c5 c6 c7 =>
    level ≤ 7 ∧
    (1 ≤ level → 1 ≤ c0.nodes + c1.nodes + c2.nodes + c3.nodes + c4.nodes + c5.nodes + c6.nodes + c7.nodes) ∧
    c0.shaped (level + 1) ∧ c1.shaped (level + 1) ∧ c2.shaped (level + 1) ∧ c3.shaped (level + 1) ∧
    c4.shaped (level + 1) ∧ c5.shaped (level + 1) ∧ c6.shaped (level + 1) ∧ c7.shaped (level + 1)

/-- Every leaf of a tree satisfies a predicate. -/
def Node.allLeaves (P : LeafData → Prop) : Node → Prop
  | .empty => True
  | .leaf d => P d
  | .branch _ c0 c1 c2 c3 c4 c5 c6 c7 =>
    c0.allLeaves P ∧ c1.allLeaves P ∧ c2.allLeaves P ∧ c3.allLeaves P ∧ c4.allLeaves P ∧ c5.allLeaves P ∧
      c6.allLeaves P ∧ c7.allLeaves P

/-- The leaves of a tree in depth-first order, slots ascending (R640, R644). -/
def Node.leafList : Node → List LeafData
  | .empty => []
  | .leaf d => [d]
  | .branch _ c0 c1 c2 c3 c4 c5 c6 c7 =>
    c0.leafList ++ c1.leafList ++ c2.leafList ++ c3.leafList ++ c4.leafList ++ c5.leafList ++ c6.leafList ++
      c7.leafList

/-- The first leaf along the keys (R620, R650), `none` if an empty slot comes first. -/
def Node.leafAt : Node → Path → Option LeafData
  | .leaf d, _ => some d
  | .empty, _ => none
  | .branch _ _ _ _ _ _ _ _ _, [] => none
  | .branch q c0 c1 c2 c3 c4 c5 c6 c7, k :: ks =>
    ((Node.branch q c0 c1 c2 c3 c4 c5 c6 c7).child k).leafAt ks

/-- The invariants I1 to I9 of R606 and the soundness of the two caches, for a node store of `cap` nodes. (I2 and
I5 hold of every `Node` by its type.) -/
structure Octree.Sound (cap : Nat) (t : Octree) : Prop where
  /-- The root is a non-leaf node (R602, I1). -/
  root : t.root.isBranch = true
  /-- I1, I4, I6. -/
  shape : t.root.shaped 0
  /-- I3: a handle is in `red[L]` exactly if it names a live non-leaf node of level L, 1 ≤ L ≤ 7 ... -/
  registered : ∀ level p, p ∈ t.red.get level ↔ 1 ≤ level ∧ level ≤ 7 ∧ p.length = level ∧ (t.root.sub p).isBranch = true
  /-- ... and at most once. -/
  once : ∀ level, (t.red.get level).Nodup
  /-- I7. -/
  leafCount : t.leafCount = t.root.leaves
  /-- I7. -/
  total : t.total = t.root.pixels
  /-- R602. -/
  live : t.live = t.root.nodes
  /-- I8. -/
  unindexed : t.phase = .build → t.root.allLeaves (fun d => d.palIdx = none)
  /-- After CreatePalette every leaf has an index (R640). -/
  indexed : t.phase = .frozen → t.root.allLeaves (fun d => d.palIdx.isSome = true)
  /-- I9. -/
  totalBound : t.total ≤ maxTotal
  /-- I9. -/
  liveBound : t.live ≤ cap
  /-- The insertion cache names a leaf on its colour's path (R604, R623). -/
  addCache : ∀ c p, t.addCache = some (c, p) → p <+: pathOf c ∧ (t.root.sub p).isLeaf = true
  /-- The lookup cache holds what a descent returns (R652). -/
  idxCache : ∀ c i, t.idxCache = some (c, i) → t.phase = .frozen ∧ t.root.lookup (pathOf c) = some i

/-- A step of building an octree before its palette is made: AddColor or Reduce (R653). -/
inductive BuildOp where
  | add (c : Colour)
  | reduce
  deriving DecidableEq, Repr

/-- Run a list of such steps; the first error ends it. -/
def Octree.build (cap : Nat) : List BuildOp → Octree → Except CmdError Octree
  | [], t => .ok t
  | .add c :: ops, t =>
    match t.addColour cap c with
    | .error e => .error e
    | .ok t' => Octree.build cap ops t'
  | .reduce :: ops, t =>
    match t.reduce with
    | .error e => .error e
    | .ok (_, t') => Octree.build cap ops t'

/-! ### The state -/

/-- What a host write can change in a register that the host writes and reads: its implemented bits (R101, R120 to
R141). -/
def Reg.implemented : Reg → Word
  | .srcFmt => 0x7
  | .srcWidth => 0xFFFF
  | .srcHeight => 0xFFFF
  | .srcPalLen => 0x1FF
  | .srcMaskCtrl => 0x1
  | .id => 0
  | .ctrl => 0
  | .status => 0
  | .errInfo => 0
  | .cmd => 0xFFFFFFFF
  | .arg0 => 0xFFFFFFFF
  | .arg1 => 0xFFFFFFFF
  | .arg2 => 0xFFFFFFFF
  | .result0 => 0
  | .result1 => 0
  | .srcStride => 0xFFFFFFFF
  | .srcBase => 0xFFFFFFFF
  | .srcBufLen => 0xFFFFFFFF
  | .srcMaskBase => 0xFFFFFFFF
  | .srcTransp => 0xFFFFFFFF
  | .dstFmt => 0
  | .dstWidth => 0
  | .dstHeight => 0
  | .dstStride => 0
  | .dstBase => 0xFFFFFFFF
  | .dstBufLen => 0
  | .dstPalLen => 0
  | .dstMaskCtrl => 0
  | .dstMaskBase => 0xFFFFFFFF
  | .dstTransp => 0
  | .octStatus => 0
  | .octLeaves => 0
  | .octNodes => 0
  | .octPixels => 0

/-- The word a register reads as after a reset (R180). -/
def Reg.resetWord (r : Reg) : Word :=
  if r = .id then 0x43510100
  else if r = .srcTransp ∨ r = .dstTransp then 0xFFFFFFFF
  else if r = .octNodes then 1
  else 0

/-- The code of an error in STATUS.ERR (R1001). -/
def ErrCode.number : ErrCode → Nat
  | .none => 0
  | .unsupportedConversion => 1
  | .invalidArgument => 2
  | .paletteLookupFailure => 3
  | .quantizerExhausted => 4
  | .capacityExceeded => 5
  | .sequenceError => 6
  | .illegalCommand => 7

/-- The registers of a frame descriptor from offset `base` on, with the values they show (R102, R130 to R141). -/
def FrameDesc.rows (base : Nat) (d : FrameDesc) : List (Nat × Nat) :=
  [(base + 0x00, d.fmt.toNat), (base + 0x04, d.width.toNat), (base + 0x08, d.height.toNat), (base + 0x0C, d.stride.toNat),
   (base + 0x10, d.base.toNat), (base + 0x14, d.bufLen.toNat), (base + 0x18, d.palLen.toNat),
   (base + 0x1C, d.maskPresent.toNat), (base + 0x20, d.maskBase.toNat), (base + 0x24, d.transp.toNat)]

/-- The register map of R102: the offset of each register and the value it shows (R110 to R141, R161, R1001). -/
def State.registerMap (s : State) : List (Nat × Nat) :=
  [(0x000, 0x43510100), (0x004, 0),
   (0x008, 256 * s.err.number + 4 * s.ovr.toNat + 2 * s.done.toNat + s.inflight.isSome.toNat),
   (0x00C, s.errInfo.toNat), (0x010, s.cmd.toNat), (0x014, s.arg0.toNat), (0x018, s.arg1.toNat), (0x01C, s.arg2.toNat),
   (0x020, s.result0.toNat), (0x024, s.result1.toNat)] ++
  s.src.rows 0x040 ++ s.dst.rows 0x080 ++
  [(0x0C0, if s.oct.phase = .frozen then 1 else 0), (0x0C4, s.oct.leafCount % 2 ^ 32), (0x0C8, s.oct.live % 2 ^ 32),
   (0x0CC, s.oct.total % 2 ^ 32)]

/-- Every piece of the block's state has its power-on value (R180, R1100): the registers as read, the engine idle, the
octree unit empty, the memories without a value. -/
structure State.AtPowerOn (t : State) : Prop where
  registers : ∀ r, readReg t r = r.resetWord
  idle : t.inflight = none
  octree : t.oct = Octree.empty
  fmem : ∀ a, Memory.get? t.fmem a = none
  srcPal : ∀ i, Memory.get? t.srcPal i = none
  dstPal : ∀ i, Memory.get? t.dstPal i = none

/-- The memories of a state are in canonical form and inside their sizes (R150, R210). -/
structure State.MemoriesSound (s : State) : Prop where
  fmem : Memory.wf s.cfg.fmemSize s.fmem
  srcPal : Memory.wf palEntries s.srcPal
  dstPal : Memory.wf palEntries s.dstPal

/-- The flags and the command engine agree (R112, R113, R120, R170, R401, R1100). -/
structure State.EngineSound (s : State) : Prop where
  /-- While BUSY, CMD holds the word in flight (R120, R404). -/
  cmd : ∀ w, s.inflight = some w → s.cmd = w
  /-- While BUSY, DONE and ERR are 0 (R402). -/
  flags : s.inflight.isSome = true → s.done = false ∧ s.err = .none
  /-- While idle, ERR_INFO is 0 unless ERR is INVALID_ARGUMENT, and then it is a subcode 1..18 (R113, R1010). -/
  errInfo : s.inflight = none →
    (s.err ≠ .invalidArgument → s.errInfo = 0) ∧
    (s.err = .invalidArgument → 1 ≤ s.errInfo.toNat ∧ s.errInfo.toNat ≤ 18)
  /-- In reset no command is in flight (R1100). -/
  reset : s.rstN = false → s.inflight = none

/-- The invariant of the block: the parameters are in the ranges of R10, the memories and the flags are sound, and
the octree unit has the invariants of R606. -/
structure State.Sound (s : State) : Prop where
  params : s.cfg.valid = true
  memories : s.MemoriesSound
  engine : s.EngineSound
  octree : s.oct.Sound s.cfg.nodeCapacity

end Sys2Proof.Machine
end

