-- ==== Sys2Proof/Certificates/Slice0/Obligations.lean ====
section
/-! DEFINITION. The statements for the provers. A statement of basis "derived" rests on the sections it cites; where it
speaks of a choice of the model, its docstring names the log entry. -/

open Sys2Proof Sys2Proof.Machine

/-! ### Command words (30_encoding.md) -/

/-- Every bit of a command word is kept: decoding the word of a well-formed command, or its four bytes with more bytes
after them, gives the command back (R310, R316, R350). -/
def Obligations.DecodeOfEncode : Prop :=
  ∀ i : Instr, i.wellFormed = true →
    decode (encode i) = .ok i ∧ ∀ rest, decodeBytes (wordBytes (encode i) ++ rest) = .ok (i, rest)

/-- A word that decodes is the word of the command it decodes to, and no other (R310, R311, R316). -/
def Obligations.EncodeOfDecode : Prop :=
  ∀ (w : Word) (i : Instr), decode w = .ok i → i.wellFormed = true ∧ encode i = w

/-- R312, R313, R314, R316: decoding is total, in the order RSVD, OPCODE, FMT; each kind of illegal word is accepted
like any command and completes with ILLEGAL_COMMAND and no other effect; every other word decodes to the command with
its OPCODE and FMT. -/
def Obligations.DecodeByFields : Prop :=
  ∀ w : Word,
    let rsvd := w.toNat / 2048
    let op := w.toNat % 256
    let fmt := w.toNat / 256 % 8
    let defined := op ≤ 0x07 ∨ (0x10 ≤ op ∧ op ≤ 0x14)
    let takesFormat := op = 0x01 ∨ op = 0x05 ∨ op = 0x06 ∨ op = 0x07
    (rsvd ≠ 0 → decode w = .error .reservedBits) ∧
    (rsvd = 0 → ¬ defined → decode w = .error .reservedOpcode) ∧
    (rsvd = 0 → defined → ¬ takesFormat → fmt ≠ 0 → decode w = .error .formatNotZero) ∧
    (rsvd = 0 → defined → (takesFormat ∨ fmt = 0) →
      ∃ i, decode w = .ok i ∧ i.opcode.toNat = op ∧ i.fmtCode = fmt) ∧
    (∀ e, decode w = .error e → ∀ s : State,
      (s.inflight = none →
        hostWrite s 0x010 .b4 w = ({ s with cmd := w, inflight := some w, done := false, err := .none }, .ok)) ∧
      completeWord w s = .next (s.failed .illegalCommand 0))

/-- R311 and the examples of R350: the words of the thirteen commands. -/
def Obligations.OpcodeMapWords : Prop :=
  decode 0x00000000 = .ok .nop ∧ decode 0x00000201 = .ok (.reformat 2) ∧ decode 0x00000501 = .ok (.reformat 5) ∧
  decode 0x00000002 = .ok .getpixel ∧ decode 0x00000003 = .ok .setpixel ∧ decode 0x00000004 = .ok .palMatch ∧
  decode 0x00000405 = .ok (.pack 4) ∧ decode 0x00000306 = .ok (.unpack 3) ∧ decode 0x00000107 = .ok (.stride 1) ∧
  decode 0x00000010 = .ok .octReset ∧ decode 0x00000011 = .ok .octAdd ∧ decode 0x00000012 = .ok .octReduce ∧
  decode 0x00000013 = .ok .octPalette ∧ decode 0x00000014 = .ok .octIndex

/-! ### Commands in general (40_command_model.md, 60_exceptions.md) -/

/-- A step runs the command in flight (R410): where the engine acts and the word in flight decodes to `i`, the step is
`exec i` in the state whose turn is taken; the step after `withFetchWord` runs the table row's command. Which input acts
is the model's (log 5). -/
def Obligations.StepRunsDecodedCommand : Prop :=
  (∀ (s : State) (w : Word) (i : Instr), s.rstN = true → s.inflight = some w → s.inputs.headD .engine = .engine →
    decode w = .ok i → step s = exec i { s with inputs := s.inputs.tail, draws := s.draws + 1 }) ∧
  (∀ (s : State) (nbits w : Nat) (i : Instr), decodeTableWord nbits w = some i →
    step (s.withFetchWord nbits w) =
      exec i { s with
        cmd := tableWord nbits w
        inflight := some (tableWord nbits w)
        done := false
        err := .none
        rstN := true
        draws := s.draws + 1 })

/-- R402: in an idle block every word written to CMD, legal or not, is accepted, and nothing but CMD, BUSY, DONE, ERR and
the word in flight changes. -/
def Obligations.CommandAcceptance : Prop :=
  ∀ (s : State) (w : Word), s.inflight = none →
    hostWrite s 0x010 .b4 w = ({ s with cmd := w, inflight := some w, done := false, err := .none }, .ok)

/-- Every command completes in every state (R403, R410): BUSY becomes 0 and DONE 1, and ERR_INFO is 0 unless ERR is
INVALID_ARGUMENT. -/
def Obligations.EveryCommandCompletes : Prop :=
  ∀ (w : Word) (s : State), ∃ t, completeWord w s = .next t ∧ t.inflight = none ∧ t.done = true ∧
    (t.err ≠ .invalidArgument → t.errInfo = 0)

/-- R1030: a command that raises an error writes ERR, ERR_INFO, BUSY and DONE and nothing else, whatever it was and
wherever it failed; ERR_INFO is a subcode 1..18 for INVALID_ARGUMENT and 0 otherwise; the failing word is still in CMD. -/
def Obligations.FailedCommandChangesOnlyStatus : Prop :=
  ∀ (w : Word) (s t : State), completeWord w s = .next t → t.err ≠ .none →
    t = s.failed t.err t.errInfo ∧ (t.err ≠ .invalidArgument → t.errInfo = 0) ∧
    (t.err = .invalidArgument → 1 ≤ t.errInfo.toNat ∧ t.errInfo.toNat ≤ 18) ∧ (s.cmd = w → t.cmd = w)

/-- No command writes an operand or source register, CMD, DST_BASE, DST_MASK_BASE, SRC_PAL or OVR (R121, R140, R150,
R172). -/
def Obligations.CommandsKeepTheirInputs : Prop :=
  ∀ (w : Word) (s t : State), completeWord w s = .next t → InputsKept s t

/-- The frame of the commands that write result registers alone (R122, R420, R540, R550, R560, R710, R910, R922). -/
def Obligations.FrameOfRegisterCommands : Prop :=
  ∀ (s t : State) (i : Instr) (n : Nat),
    i = .nop ∨ i = .pack n ∨ i = .unpack n ∨ i = .stride n ∨ i = .palMatch ∨ i = .getpixel →
    exec i s = .next t →
    InputsKept s t ∧ t.dst = s.dst ∧ t.dstPal = s.dstPal ∧ t.oct = s.oct ∧ (∀ a, SameByte s t a) ∧
    (i = .nop → t.result0 = s.result0) ∧
    (i = .nop ∨ i = .pack n ∨ i = .unpack n → t.result1 = s.result1)

/-- The frame of the OCT_* commands (R122, R670 to R676): no FMEM byte changes; OCT_PALETTE alone writes DST_PAL and
DST_PAL_LEN, and no other destination register; OCT_REDUCE alone writes RESULT1; OCT_RESET writes no result. -/
def Obligations.FrameOfOctreeCommands : Prop :=
  ∀ (s t : State) (i : Instr), i = .octReset ∨ i = .octAdd ∨ i = .octReduce ∨ i = .octPalette ∨ i = .octIndex →
    exec i s = .next t →
    InputsKept s t ∧ (∀ a, SameByte s t a) ∧ t.dst = { s.dst with palLen := t.dst.palLen } ∧
    (i ≠ .octPalette → t.dst = s.dst ∧ t.dstPal = s.dstPal) ∧ (i ≠ .octReduce → t.result1 = s.result1) ∧
    (i = .octReset → t.result0 = s.result0)

/-- The frame of SETPIXEL (R920, R922): no destination register, palette entry or octree node changes, and every FMEM
byte but those of the addressed pixel holds what it held. -/
def Obligations.FrameOfSetpixel : Prop :=
  ∀ s t : State, exec .setpixel s = .next t →
    InputsKept s t ∧ t.dst = s.dst ∧ t.dstPal = s.dstPal ∧ t.oct = s.oct ∧
    ∀ f, PixFmt.ofCode (srcFmtCode s) = some f →
      ∀ a, ¬ InRange (pixelAddr f (srcBase s) (srcStride s) (xOperand s) (yOperand s)) (pixelBytes f) a → SameByte s t a

/-- The frame of REFORMAT (R810, R871, R883): RESULT0, RESULT1, the octree unit, and every FMEM byte outside the
destination buffer and, with a source mask, the destination mask are unchanged; DST_PAL changes only below DST_PAL_LEN. -/
def Obligations.FrameOfReformat : Prop :=
  ∀ (s t : State) (n : Nat), s.cfg.valid = true → exec (.reformat n) s = .next t →
    InputsKept s t ∧ t.result0 = s.result0 ∧ t.result1 = s.result1 ∧ t.oct = s.oct ∧
    (∀ f g, PixFmt.ofCode (srcFmtCode s) = some f → PixFmt.ofCode n = some g →
      ∀ a, ¬ Footprint s g a → SameByte s t a) ∧
    (∀ j, t.dst.palLen.toNat ≤ j ∨ t.err ≠ .none → Memory.get? t.dstPal j = Memory.get? s.dstPal j)

/-- The octree unit is used by the OCT_* commands alone (R704, R871): every other command does the same whatever the
unit holds, and leaves it as it is. -/
def Obligations.OnlyOctCommandsUseTheOctreeUnit : Prop :=
  ∀ (i : Instr) (s t : State) (o : Octree),
    i ≠ .octReset → i ≠ .octAdd → i ≠ .octReduce → i ≠ .octPalette → i ≠ .octIndex →
    exec i s = .next t → exec i { s with oct := o } = .next { t with oct := o }

/-- R420: NOP is the word 0 and has no effect but the completion; OPCODE 0x00 with another bit of the word set is
ILLEGAL_COMMAND; written while BUSY it is dropped and sets OVR; from idle it leaves STATUS = 2. -/
def Obligations.NopDoesNothing : Prop :=
  encode .nop = 0x00000000 ∧ decode 0x00000000 = .ok .nop ∧
  ∀ s : State,
    exec .nop s = .next s.succeeded ∧
    (∀ w : Word, w.toNat % 256 = 0 → w ≠ 0 → completeWord w s = .next (s.failed .illegalCommand 0)) ∧
    (s.inflight.isSome = true → hostWrite s 0x010 .b4 0x00000000 = ({ s with ovr := true }, .ok)) ∧
    (s.ovr = false → readReg s.succeeded .status = 0x00000002)

/-! ### The codec (41_bitdepth_codec.md) -/

/-- R520, R521, R540: PACK demotes the channels by dropping low bits and places them, R highest; an indexed format is
INVALID_ARGUMENT 14, a reserved one 15. -/
def Obligations.PackPlacesChannels : Prop :=
  ∀ s : State,
    let r := s.arg0.toNat / 65536 % 256
    let g := s.arg0.toNat / 256 % 256
    let b := s.arg0.toNat % 256
    exec (.pack 3) s = .next ({ s with result0 := BitVec.ofNat 32 (r / 8 * 1024 + g / 8 * 32 + b / 8) }).succeeded ∧
    exec (.pack 4) s = .next ({ s with result0 := BitVec.ofNat 32 (r / 8 * 2048 + g / 4 * 32 + b / 8) }).succeeded ∧
    exec (.pack 5) s = .next ({ s with result0 := BitVec.ofNat 32 (r * 65536 + g * 256 + b) }).succeeded ∧
    (∀ n, n < 3 → exec (.pack n) s = .next (s.failed .invalidArgument 14)) ∧
    (∀ n, n = 6 ∨ n = 7 → exec (.pack n) s = .next (s.failed .invalidArgument 15))

/-- R523, R524, R525, R550: UNPACK promotes each field by multiplying by 255 and dividing, truncated; bit 15 of an
Rgb555 value and the bits above the format's are ignored; an indexed format is INVALID_ARGUMENT 14, a reserved one 15. -/
def Obligations.UnpackScalesChannels : Prop :=
  ∀ s : State,
    let a := s.arg0.toNat
    exec (.unpack 3) s =
      .next ({ s with
        result0 := BitVec.ofNat 32
          (a / 1024 % 32 * 255 / 31 * 65536 + a / 32 % 32 * 255 / 31 * 256 + a % 32 * 255 / 31) }).succeeded ∧
    exec (.unpack 4) s =
      .next ({ s with
        result0 := BitVec.ofNat 32
          (a / 2048 % 32 * 255 / 31 * 65536 + a / 32 % 64 * 255 / 63 * 256 + a % 32 * 255 / 31) }).succeeded ∧
    exec (.unpack 5) s = .next ({ s with result0 := BitVec.ofNat 32 (a % 16777216) }).succeeded ∧
    (∀ n, n < 3 → exec (.unpack n) s = .next (s.failed .invalidArgument 14)) ∧
    (∀ n, n = 6 ∨ n = 7 → exec (.unpack n) s = .next (s.failed .invalidArgument 15))

/-- R501, R502, R560: STRIDE answers the stride and the mask stride of the width in ARG0 15:0; a reserved format is
INVALID_ARGUMENT 15. The stride is the row's bytes rounded up to a multiple of 4. -/
def Obligations.StrideRoundsRowsUp : Prop :=
  (∀ (s : State) (f : PixFmt),
    let w := s.arg0.toNat % 65536
    exec (.stride f.code) s =
      .next ({ s with
        result0 := BitVec.ofNat 32 ((w * f.bpp + 31) / 32 * 4)
        result1 := BitVec.ofNat 32 ((w + 31) / 32 * 4) }).succeeded) ∧
  (∀ (s : State) (n : Nat), n = 6 ∨ n = 7 → exec (.stride n) s = .next (s.failed .invalidArgument 15)) ∧
  (∀ (f : PixFmt) (w h : Nat),
    stride f w = (w * f.bpp + 31) / 32 * 4 ∧ stride f w = ((w * f.bpp + 7) / 8 + 3) / 4 * 4 ∧ stride f w % 4 = 0 ∧
    (w * f.bpp + 7) / 8 ≤ stride f w ∧ (stride f w = (w * f.bpp + 7) / 8 ↔ (w * f.bpp + 7) / 8 % 4 = 0) ∧
    stride f 0 = 0 ∧ maskStride w = (w + 31) / 32 * 4 ∧ bufLen f w h = h * stride f w)

/-- R512: demotion undoes promotion for 5 and 6 bits; promotion undoes demotion exactly on the image of promotion,
which holds 0 and 255. -/
def Obligations.DemotionUndoesPromotion : Prop :=
  (∀ v : BitVec 5, demote 5 (promote v) = v) ∧ (∀ v : BitVec 6, demote 6 (promote v) = v) ∧
  (∀ b : Byte, promote (demote 5 b) = b ↔ ∃ v : BitVec 5, promote v = b) ∧
  (∀ b : Byte, promote (demote 6 b) = b ↔ ∃ v : BitVec 6, promote v = b) ∧
  promote (0 : BitVec 5) = 0 ∧ promote (31 : BitVec 5) = 255 ∧ promote (0 : BitVec 6) = 0 ∧ promote (63 : BitVec 6) = 255

/-- The round trips of R526: packing an unpacked value gives it back, but for bit 15 of an Rgb555 word; black and white
survive packing in every format; 0x808080 does not survive Rgb555. -/
def Obligations.PackUnpackRoundTrips : Prop :=
  (∀ w : BitVec 16, packPixel .rgb565 (unpackPixel .rgb565 (w.setWidth 24)) = w.setWidth 24) ∧
  (∀ w : BitVec 16, packPixel .rgb555 (unpackPixel .rgb555 (w.setWidth 24)) = (w &&& 0x7FFF).setWidth 24) ∧
  (∀ v : Raw, packPixel .rgb24 (unpackPixel .rgb24 v) = v) ∧
  (∀ f : PixFmt, f.isIndexed = false →
    unpackPixel f (packPixel f 0x000000) = 0x000000 ∧ unpackPixel f (packPixel f 0xFFFFFF) = 0xFFFFFF) ∧
  packPixel .rgb555 0x808080 = 0x4210 ∧ unpackPixel .rgb555 0x4210 = 0x838383

/-- R530 to R534: where the stored value of a pixel stands in the bytes of its row. -/
def Obligations.PixelsStandInTheirBytes : Prop :=
  ∀ (d : Nat) (m : List Host.Cell) (base st x y : Nat),
    let byte := fun a => (read8 d m a).toNat
    let row := base + y * st
    (readRaw d m .indexed8 base st x y).toNat = byte (row + x) ∧
    (readRaw d m .indexed4 base st x y).toNat = (if x % 2 = 0 then byte (row + x / 2) / 16 else byte (row + x / 2) % 16) ∧
    (readRaw d m .indexed1 base st x y).toNat = byte (row + x / 8) / 2 ^ (7 - x % 8) % 2 ∧
    (∀ f, f = .rgb555 ∨ f = .rgb565 →
      (readRaw d m f base st x y).toNat = byte (row + 2 * x) + 256 * byte (row + 2 * x + 1)) ∧
    (readRaw d m .rgb24 base st x y).toNat =
      byte (row + 3 * x) + 256 * byte (row + 3 * x + 1) + 65536 * byte (row + 3 * x + 2)

/-- R535: `writeRaw` stores a value that the format can hold where `readRaw` finds it; every other pixel of the frame,
those in the same byte and those past the row's width included, keeps its value, and so does every other byte. -/
def Obligations.PixelWritesAreLocal : Prop :=
  ∀ (d : Nat) (m : List Host.Cell) (f : PixFmt) (base st x y : Nat) (v : Raw),
    pixelOffset f x + pixelBytes f ≤ st → v.toNat < 2 ^ f.bpp →
    readRaw d (writeRaw d m f base st x y v) f base st x y = v ∧
    (∀ u z, pixelOffset f u + pixelBytes f ≤ st → (u, z) ≠ (x, y) →
      readRaw d (writeRaw d m f base st x y v) f base st u z = readRaw d m f base st u z) ∧
    (∀ a, ¬ InRange (pixelAddr f base st x y) (pixelBytes f) a →
      Memory.get? (writeRaw d m f base st x y v) a = Memory.get? m a)

/-! ### The matcher (43_palette_matcher.md) -/

/-- R701, R702, R703, R710: PAL_MATCH answers the lowest index of the least squared distance among the first SRC_PAL_LEN
entries, and that distance, at most 195075; with SRC_PAL_LEN outside 1..256 it is INVALID_ARGUMENT 17. -/
def Obligations.PalMatchFindsNearest : Prop :=
  ∀ s : State,
    let c := s.arg0.extractLsb' 0 24
    let n := s.src.palLen.toNat
    (1 ≤ n → n ≤ 256 → ∃ i d : Nat,
      exec .palMatch s = .next ({ s with result0 := BitVec.ofNat 32 i, result1 := BitVec.ofNat 32 d }).succeeded ∧
      i < n ∧ d ≤ 195075 ∧ (d : Int) = squaredDistance c (srcPalAt s i) ∧
      (∀ j, j < n → (d : Int) ≤ squaredDistance c (srcPalAt s j)) ∧
      (∀ j, j < i → (d : Int) < squaredDistance c (srcPalAt s j)) ∧
      (∀ j, j < n → srcPalAt s j = c → d = 0)) ∧
    (n < 1 ∨ 256 < n → exec .palMatch s = .next (s.failed .invalidArgument 17))

/-! ### Pixel access (45_pixel_access.md) -/

/-- GETPIXEL on a pixel of a legal frame (R537, R910): RESULT0 is the palette entry of an index below the palette length,
or the unpacked value, and RESULT1 the stored value; an index at or above the length is INVALID_ARGUMENT 11. -/
def Obligations.GetpixelReadsColour : Prop :=
  ∀ (s : State) (f : PixFmt), SourceLegal s f → s.arg0.toNat < srcW s → s.arg1.toNat < srcH s →
    let raw := sourceRaw s f s.arg0.toNat s.arg1.toNat
    (f.isIndexed = true → raw.toNat < srcPalLen s →
      exec .getpixel s =
        .next ({ s with
          result0 := (srcPalAt s raw.toNat).setWidth 32
          result1 := raw.setWidth 32 }).succeeded) ∧
    (f.isIndexed = true → srcPalLen s ≤ raw.toNat → exec .getpixel s = .next (s.failed .invalidArgument 11)) ∧
    (f.isIndexed = false →
      exec .getpixel s =
        .next ({ s with
          result0 := (unpackPixel f raw).setWidth 32
          result1 := raw.setWidth 32 }).succeeded)

/-- SETPIXEL on a pixel of a legal frame (R920, R921): on an indexed frame it stores the lowest index of the nearest of
the first min(SRC_PAL_LEN, 2^bpp) entries and reports the distance; on a truecolor frame it stores the packed colour and
reports 0; the pixel then holds the value, and every other pixel of the frame what it held. -/
def Obligations.SetpixelStoresNearest : Prop :=
  ∀ (s : State) (f : PixFmt), SourceLegal s f → s.arg0.toNat < srcW s → s.arg1.toNat < srcH s →
    let c := s.arg2.extractLsb' 0 24
    ∃ (v : Raw) (d : Nat) (m : List Host.Cell),
      exec .setpixel s =
        .next ({ s with
          fmem := m
          result0 := v.setWidth 32
          result1 := BitVec.ofNat 32 d }).succeeded ∧
      (f.isIndexed = true →
        v.toNat < min (srcPalLen s) (2 ^ f.bpp) ∧ d ≤ 195075 ∧ (d : Int) = squaredDistance c (srcPalAt s v.toNat) ∧
        (∀ j, j < min (srcPalLen s) (2 ^ f.bpp) → (d : Int) ≤ squaredDistance c (srcPalAt s j)) ∧
        (∀ j, j < v.toNat → (d : Int) < squaredDistance c (srcPalAt s j))) ∧
      (f.isIndexed = false → v = packPixel f c ∧ d = 0) ∧
      readRaw s.draws m f (srcBase s) (srcStride s) s.arg0.toNat s.arg1.toNat = v ∧
      (∀ x y, pixelOffset f x + pixelBytes f ≤ srcStride s → (x, y) ≠ (s.arg0.toNat, s.arg1.toNat) →
        readRaw s.draws m f (srcBase s) (srcStride s) x y = sourceRaw s f x y)

/-- A GETPIXEL after a SETPIXEL of the same pixel reads what the SETPIXEL stored (R910, R920): the colour demoted and
promoted again, or the chosen palette entry. The GETPIXEL is run by `exec` on the state the SETPIXEL leaves, with no
command in flight (log 1) and in the same draw of free values (log 3). -/
def Obligations.GetpixelAfterSetpixel : Prop :=
  ∀ (s t : State) (f : PixFmt), SourceLegal s f → s.arg0.toNat < srcW s → s.arg1.toNat < srcH s →
    exec .setpixel s = .next t →
    ∃ u, exec .getpixel t = .next u ∧ u.err = .none ∧ u.result1 = t.result0 ∧
      (f.isIndexed = false → u.result0 = (unpackPixel f (packPixel f (s.arg2.extractLsb' 0 24))).setWidth 32) ∧
      (f.isIndexed = true → u.result0 = (srcPalAt s t.result0.toNat).setWidth 32)

/-! ### Frame checks (44_format_converter.md, 45_pixel_access.md) -/

/-- R820, R821, R901: the checks of a frame run in order and the first that fails gives the subcode, for REFORMAT on a
pair of the conversion table, GETPIXEL and SETPIXEL. -/
def Obligations.FrameChecksRunInOrder : Prop :=
  ∀ (s : State) (f : PixFmt), PixFmt.ofCode (srcFmtCode s) = some f →
    (∀ sub, firstFailure (sourceChecks s f ++ coordinateCheck s) = some sub →
      exec .getpixel s = .next (s.failed .invalidArgument sub) ∧
      exec .setpixel s = .next (s.failed .invalidArgument sub)) ∧
    (∀ g sub, routeTable f g ≠ .unsupported → firstFailure (sourceChecks s f ++ destinationChecks s g) = some sub →
      exec (.reformat g.code) s = .next (s.failed .invalidArgument sub)) ∧
    (firstFailure (sourceChecks s f) = none ↔ SourceLegal s f) ∧
    (∀ g, firstFailure (destinationChecks s g) = none ↔ DestinationLegal s g)

/-- The reserved source formats (R331): INVALID_ARGUMENT 15 from GETPIXEL and SETPIXEL, UNSUPPORTED_CONVERSION from
REFORMAT; and the NONE entries of R811, reported before any check of the frame (R812): a reserved target, and a
truecolor source with target Indexed1. No other pair is refused. -/
def Obligations.UnsupportedPairsAreRefusedFirst : Prop :=
  ∀ (s : State) (n : Nat), n < 8 →
    (6 ≤ srcFmtCode s →
      exec .getpixel s = .next (s.failed .invalidArgument 15) ∧
      exec .setpixel s = .next (s.failed .invalidArgument 15)) ∧
    (6 ≤ srcFmtCode s ∨ 6 ≤ n ∨ (3 ≤ srcFmtCode s ∧ n = 0) →
      exec (.reformat n) s = .next (s.failed .unsupportedConversion 0)) ∧
    (¬ (6 ≤ srcFmtCode s ∨ 6 ≤ n ∨ (3 ≤ srcFmtCode s ∧ n = 0)) →
      ∃ t, exec (.reformat n) s = .next t ∧ t.err ≠ .unsupportedConversion)

/-! ### REFORMAT (44_format_converter.md) -/

/-- R830: a REFORMAT to the source's own format copies every byte of the buffer, padding included, the palette, the
transparent index and the mask if there is one, whatever the pixels hold. -/
def Obligations.ReformatClones : Prop :=
  ∀ (s : State) (f : PixFmt), SourceLegal s f → DestinationLegal s f →
    ∃ t, exec (.reformat f.code) s = .next t ∧ t.err = .none ∧
      (∀ i, i < srcBufLen s → Memory.get? t.fmem (dstBase s + i) = some (read8 s.draws s.fmem (srcBase s + i))) ∧
      (∀ i, i < srcPalLen s → Memory.get? t.dstPal i = some (srcPalAt s i)) ∧
      t.dst.palLen = s.src.palLen ∧ (f.isIndexed = false → t.dst.palLen = 0 ∧ t.dstPal = s.dstPal) ∧
      t.dst.transp = s.src.transp ∧
      (s.src.maskPresent = true → ∀ i, i < srcH s * maskStride (srcW s) →
        Memory.get? t.fmem (dstMaskBase s + i) = some (read8 s.draws s.fmem (srcMaskBase s + i)))

/-- REPACK (R811, R840): on a legal frame whose indices are all below the palette length and fit the target, every pixel
keeps its index, and the palette and the transparent index are copied. -/
def Obligations.ReformatRepacks : Prop :=
  ∀ (s : State) (f g : PixFmt), SourceLegal s f → DestinationLegal s g → f.isIndexed = true → g.isIndexed = true →
    f ≠ g → (g = .indexed1 → srcPalLen s = 2) →
    (∀ x y, x < srcW s → y < srcH s →
      (sourceRaw s f x y).toNat < srcPalLen s ∧ (sourceRaw s f x y).toNat < 2 ^ g.bpp) →
    ∃ t, exec (.reformat g.code) s = .next t ∧ t.err = .none ∧
      (∀ x y, x < srcW s → y < srcH s → destinationRaw s t g x y = sourceRaw s f x y) ∧
      (∀ i, i < srcPalLen s → Memory.get? t.dstPal i = some (srcPalAt s i)) ∧
      t.dst.palLen = s.src.palLen ∧ t.dst.transp = s.src.transp

/-- EXPAND (R811, R850): on a legal frame whose indices are all below the palette length, every pixel becomes its palette
entry packed in the target's layout; the output has no palette and no transparent index. -/
def Obligations.ReformatExpands : Prop :=
  ∀ (s : State) (f g : PixFmt), SourceLegal s f → DestinationLegal s g → f.isIndexed = true → g.isIndexed = false →
    (∀ x y, x < srcW s → y < srcH s → (sourceRaw s f x y).toNat < srcPalLen s) →
    ∃ t, exec (.reformat g.code) s = .next t ∧ t.err = .none ∧
      (∀ x y, x < srcW s → y < srcH s →
        destinationRaw s t g x y = packPixel g (srcPalAt s (sourceRaw s f x y).toNat)) ∧
      t.dst.palLen = 0 ∧ t.dst.transp = 0xFFFFFFFF

/-- CONVERT (R527, R811, R860): on a legal truecolor frame every pixel is unpacked to 8 bits a channel and packed again;
no pixel can fail; the output has no palette and no transparent index. -/
def Obligations.ReformatConverts : Prop :=
  ∀ (s : State) (f g : PixFmt), SourceLegal s f → DestinationLegal s g → f.isIndexed = false → g.isIndexed = false →
    f ≠ g →
    ∃ t, exec (.reformat g.code) s = .next t ∧ t.err = .none ∧
      (∀ x y, x < srcW s → y < srcH s →
        destinationRaw s t g x y = packPixel g (unpackPixel f (sourceRaw s f x y))) ∧
      t.dst.palLen = 0 ∧ t.dst.transp = 0xFFFFFFFF

/-- QUANTIZE (R811, R870 to R873): on a legal truecolor frame, with target Indexed4 or Indexed8, a private octree, empty
at first, takes the pixels' colours in row-major order. If the node store does not hold them, REFORMAT is
CAPACITY_EXCEEDED. Otherwise it completes: the palette, of 1 to 2^bpp entries, goes to DST_PAL, and each pixel gets the
index of the first leaf on its colour's path, which is below the palette length. A store of eight nodes a pixel and the
root always holds them. -/
def Obligations.ReformatQuantizes : Prop :=
  ∀ (s : State) (f g : PixFmt), SourceLegal s f → DestinationLegal s g → f.isIndexed = false →
    g = .indexed4 ∨ g = .indexed8 →
    let built := Octree.build s.cfg.nodeCapacity ((sourceColours s f).map .add) .empty
    (∀ e, built = .error e → exec (.reformat g.code) s = .next (s.failed .capacityExceeded 0)) ∧
    (∀ T, built = .ok T → ∃ t frozen pal, exec (.reformat g.code) s = .next t ∧ t.err = .none ∧
      T.createPalette (2 ^ g.bpp) = .ok (frozen, pal) ∧
      1 ≤ pal.length ∧ pal.length ≤ 2 ^ g.bpp ∧ t.dst.palLen.toNat = pal.length ∧
      (∀ i, i < pal.length → Memory.get? t.dstPal i = pal[i]?) ∧ t.dst.transp = 0xFFFFFFFF ∧
      (∀ x y, x < srcW s → y < srcH s → ∃ d i, frozen.root.leafAt (pathOf (sourceColour s f x y)) = some d ∧
        d.palIdx = some i ∧ (destinationRaw s t g x y).toNat = i.toNat ∧ i.toNat < pal.length)) ∧
    (1 + 8 * (srcH s * srcW s) ≤ s.cfg.nodeCapacity → ∃ T, built = .ok T)

/-- Exact reproduction (R884): when a truecolor source has at most 2^bpp distinct colours, a REFORMAT to Indexed4 or
Indexed8 that succeeds stores at every pixel the index of a DST_PAL entry equal to the pixel's colour. -/
def Obligations.FewColoursAreReproducedExactly : Prop :=
  ∀ (s t : State) (f g : PixFmt) (colours : List Colour), s.cfg.valid = true → SourceLegal s f →
    f.isIndexed = false → g = .indexed4 ∨ g = .indexed8 → colours.length ≤ 2 ^ g.bpp →
    (∀ x y, x < srcW s → y < srcH s → sourceColour s f x y ∈ colours) →
    exec (.reformat g.code) s = .next t → t.err = .none →
    ∀ x y, x < srcW s → y < srcH s →
      (destinationRaw s t g x y).toNat < t.dst.palLen.toNat ∧
      Memory.get? t.dstPal (destinationRaw s t g x y).toNat = some (sourceColour s f x y)

/-- Padding (R536): in a frame that a REFORMAT other than a clone makes, every byte of a row after its pixel bytes is 0,
and so is every position of Indexed1 and Indexed4 past the row's width. -/
def Obligations.ConvertedPaddingIsZero : Prop :=
  ∀ (s t : State) (f g : PixFmt), s.cfg.valid = true → PixFmt.ofCode (srcFmtCode s) = some f → f ≠ g →
    exec (.reformat g.code) s = .next t → t.err = .none →
    (∀ y o, y < srcH s → pixelRowBytes g (srcW s) ≤ o → o < stride g (srcW s) →
      Memory.get? t.fmem (dstBase s + y * stride g (srcW s) + o) = some 0) ∧
    (∀ x y, srcW s ≤ x → y < srcH s → pixelOffset g x + pixelBytes g ≤ stride g (srcW s) →
      destinationRaw s t g x y = 0)

/-- R881: a REFORMAT that succeeds copies the mask byte for byte, padding included, whatever the conversion; without a
source mask DST_MASK_CTRL.PRESENT becomes 0. -/
def Obligations.MasksAreCopiedVerbatim : Prop :=
  ∀ (s t : State) (n : Nat), exec (.reformat n) s = .next t → t.err = .none →
    t.dst.maskPresent = s.src.maskPresent ∧
    (s.src.maskPresent = true → ∀ i, i < srcH s * maskStride (srcW s) →
      Memory.get? t.fmem (dstMaskBase s + i) = some (read8 s.draws s.fmem (srcMaskBase s + i)))

/-- R880, R882: the destination registers after a REFORMAT that succeeds describe the new frame, which passes every check
of R820 when the registers are copied to the source descriptor. -/
def Obligations.OutputIsALegalFrame : Prop :=
  ∀ (s t : State) (n : Nat), s.cfg.valid = true → exec (.reformat n) s = .next t → t.err = .none →
    ∃ f g, PixFmt.ofCode (srcFmtCode s) = some f ∧ PixFmt.ofCode n = some g ∧ t.dst.fmt.toNat = n ∧
      t.dst.width = s.src.width ∧ t.dst.height = s.src.height ∧ t.dst.stride.toNat = stride g (srcW s) ∧
      t.dst.bufLen.toNat = srcH s * stride g (srcW s) ∧ t.dst.maskPresent = s.src.maskPresent ∧
      t.dst.base = s.dst.base ∧ t.dst.maskBase = s.dst.maskBase ∧
      (g.isIndexed = false → t.dst.palLen = 0) ∧
      t.dst.transp = (if f = g ∨ (f.isIndexed = true ∧ g.isIndexed = true) then s.src.transp else 0xFFFFFFFF) ∧
      SourceLegal { t with src := t.dst } g

/-- The data-dependent errors of REPACK and EXPAND (R840, R850, R1021): subcode 18 for a palette that an Indexed1 target
cannot hold, before any pixel; else the first bad pixel in row-major order decides, 11 before 12. -/
def Obligations.FirstBadPixelDecides : Prop :=
  ∀ (s : State) (f g : PixFmt), SourceLegal s f → DestinationLegal s g → f.isIndexed = true →
    (g = .indexed1 → f ≠ g → srcPalLen s ≠ 2 → exec (.reformat g.code) s = .next (s.failed .invalidArgument 18)) ∧
    (∀ x y, x < srcW s → y < srcH s → g.isIndexed = false →
      (∀ u v, u < srcW s → v < srcH s → Before u v x y → (sourceRaw s f u v).toNat < srcPalLen s) →
      srcPalLen s ≤ (sourceRaw s f x y).toNat → exec (.reformat g.code) s = .next (s.failed .invalidArgument 11)) ∧
    (∀ x y, x < srcW s → y < srcH s → g.isIndexed = true → f ≠ g → (g = .indexed1 → srcPalLen s = 2) →
      (∀ u v, u < srcW s → v < srcH s → Before u v x y →
        (sourceRaw s f u v).toNat < srcPalLen s ∧ (sourceRaw s f u v).toNat < 2 ^ g.bpp) →
      (srcPalLen s ≤ (sourceRaw s f x y).toNat → exec (.reformat g.code) s = .next (s.failed .invalidArgument 11)) ∧
      ((sourceRaw s f x y).toNat < srcPalLen s → 2 ^ g.bpp ≤ (sourceRaw s f x y).toNat →
        exec (.reformat g.code) s = .next (s.failed .invalidArgument 12)))

/-- The errors REFORMAT can report (R653, R810, R1003): UNSUPPORTED_CONVERSION, INVALID_ARGUMENT 1 to 12 or 18, and
CAPACITY_EXCEEDED; never PALETTE_LOOKUP_FAILURE, and never QUANTIZER_EXHAUSTED. -/
def Obligations.ReformatErrorsAreThoseListed : Prop :=
  ∀ (s t : State) (n : Nat), s.cfg.valid = true → exec (.reformat n) s = .next t →
    t.err = .none ∨ t.err = .unsupportedConversion ∨ t.err = .capacityExceeded ∨
    (t.err = .invalidArgument ∧ (1 ≤ t.errInfo.toNat ∧ t.errInfo.toNat ≤ 12 ∨ t.errInfo = 18))

/-! ### The octree unit (42_octree_quantizer.md) -/

/-- R670: OCT_RESET, the word 0x10, empties the octree unit in either phase, and OCT_STATUS, OCT_LEAVES, OCT_NODES and
OCT_PIXELS then read 0, 0, 1 and 0; nothing else but the status changes. -/
def Obligations.OctResetEmptiesTheUnit : Prop :=
  decode 0x00000010 = .ok .octReset ∧ ∀ s : State,
    let t := ({ s with oct := Octree.empty }).succeeded
    exec .octReset s = .next t ∧ readReg t .octStatus = 0 ∧ readReg t .octLeaves = 0 ∧ readReg t .octNodes = 1 ∧
    readReg t .octPixels = 0

/-- OCT_ADD on a unit in phase BUILD with room (R620, R671): the leaf on the colour's path, which is created if no leaf
was there, has one more pixel and the colour's channels added to its sums; every leaf elsewhere is as before; the counts
follow; the invariants stay. Each created node of levels 1 to 7 is appended to its level's list (R603): the `need` nodes
created are those of levels 9 - need to 8. -/
def Obligations.OctAddAccumulates : Prop :=
  ∀ s : State,
    let c := s.arg0.extractLsb' 0 24
    let need := s.oct.root.need (pathOf c)
    s.oct.Sound s.cfg.nodeCapacity → s.oct.phase = .build → s.oct.total + 1 ≤ 2 ^ 32 - 1 →
    s.oct.live + need ≤ s.cfg.nodeCapacity →
    ∃ t' : Octree,
      exec .octAdd s = .next ({ s with oct := t', result0 := BitVec.ofNat 32 t'.leafCount }).succeeded ∧
      t'.Sound s.cfg.nodeCapacity ∧ t'.phase = .build ∧ t'.total = s.oct.total + 1 ∧ t'.live = s.oct.live + need ∧
      need ≤ 8 ∧ t'.nextSeq = s.oct.nextSeq + need ∧
      (∀ level, 1 ≤ level → level ≤ 7 →
        t'.red.get level = s.oct.red.get level ++ (if 9 - need ≤ level then [(pathOf c).take level] else [])) ∧
      (∀ d, s.oct.root.leafAt (pathOf c) = some d →
        need = 0 ∧ t'.leafCount = s.oct.leafCount ∧
        ∃ d', t'.root.leafAt (pathOf c) = some d' ∧ d'.seq = d.seq ∧ d'.count.toNat = d.count.toNat + 1 ∧
          d'.sumR.toNat = d.sumR.toNat + (redOf c).toNat ∧ d'.sumG.toNat = d.sumG.toNat + (greenOf c).toNat ∧
          d'.sumB.toNat = d.sumB.toNat + (blueOf c).toNat) ∧
      (s.oct.root.leafAt (pathOf c) = none →
        t'.leafCount = s.oct.leafCount + 1 ∧
        ∃ d', t'.root.leafAt (pathOf c) = some d' ∧ d'.count = 1 ∧ d'.sumR.toNat = (redOf c).toNat ∧
          d'.sumG.toNat = (greenOf c).toNat ∧ d'.sumB.toNat = (blueOf c).toNat) ∧
      (∀ e d, s.oct.root.leafAt (pathOf e) = some d → s.oct.root.leafPath (pathOf e) ≠ s.oct.root.leafPath (pathOf c) →
        t'.root.leafAt (pathOf e) = some d)

/-- The errors of the OCT_* commands in the order of their rules (R622, R633, R671 to R676, R1125), each leaving the unit
as it was. -/
def Obligations.OctreeCommandErrors : Prop :=
  ∀ s : State,
    let c := s.arg0.extractLsb' 0 24
    (s.oct.phase = .frozen →
      exec .octAdd s = .next (s.failed .sequenceError 0) ∧ exec .octReduce s = .next (s.failed .sequenceError 0) ∧
      exec .octPalette s = .next (s.failed .sequenceError 0)) ∧
    (s.oct.phase = .build → exec .octIndex s = .next (s.failed .sequenceError 0)) ∧
    (s.oct.phase = .build → s.oct.total + 1 > 2 ^ 32 - 1 → exec .octAdd s = .next (s.failed .capacityExceeded 0)) ∧
    (s.oct.phase = .build → s.oct.Sound s.cfg.nodeCapacity →
      s.oct.live + s.oct.root.need (pathOf c) > s.cfg.nodeCapacity →
      exec .octAdd s = .next (s.failed .capacityExceeded 0)) ∧
    (s.oct.phase = .build → (∀ level, 1 ≤ level → level ≤ 7 → s.oct.red.get level = []) →
      exec .octReduce s = .next (s.failed .quantizerExhausted 0) ∧
      (s.oct.Sound s.cfg.nodeCapacity → s.oct.leafCount ≤ 8)) ∧
    (s.oct.phase = .build → s.arg0.toNat < 1 ∨ 256 < s.arg0.toNat →
      exec .octPalette s = .next (s.failed .invalidArgument 16))

/-- R623: the insertion cache is transparent: AddColor does the same with the cache invalid. -/
def Obligations.InsertionCacheIsTransparent : Prop :=
  ∀ (cap : Nat) (t : Octree) (c : Colour), t.Sound cap →
    t.addColour cap c = ({ t with addCache := none } : Octree).addColour cap c

/-- The lookup cache is transparent (R652): GetPaletteIndex answers the same with the cache invalid, and CreatePalette
invalidates it. -/
def Obligations.LookupCacheIsTransparent : Prop :=
  (∀ (cap : Nat) (t : Octree) (c : Colour), t.Sound cap →
    (t.getPaletteIndex c).map Prod.snd = (({ t with idxCache := none } : Octree).getPaletteIndex c).map Prod.snd) ∧
  (∀ (t t' : Octree) (m : Nat) (pal : List Colour), t.createPalette m = .ok (t', pal) → t'.idxCache = none)

/-- OCT_REDUCE (R630, R631, R632, R672): it folds the newest node of the deepest non-empty list into a leaf with its
children's totals; k ≥ 1 children go, so the leaf count falls by k - 1; every leaf elsewhere is as before. -/
def Obligations.OctReduceFoldsDeepestNewest : Prop :=
  ∀ (s : State) (level : Nat) (p : Path), s.oct.Sound s.cfg.nodeCapacity → s.oct.phase = .build →
    1 ≤ level → level ≤ 7 → (s.oct.red.get level).getLast? = some p →
    (∀ l, level < l → l ≤ 7 → s.oct.red.get l = []) →
    let n := s.oct.root.sub p
    ∃ (t' : Octree) (d : LeafData),
      exec .octReduce s =
        .next ({ s with
          oct := t'
          result0 := BitVec.ofNat 32 t'.leafCount
          result1 := BitVec.ofNat 32 level }).succeeded ∧
      t'.Sound s.cfg.nodeCapacity ∧ t'.phase = .build ∧ t'.addCache = none ∧ t'.total = s.oct.total ∧
      t'.red.get level = (s.oct.red.get level).dropLast ∧ (∀ l, l ≠ level → t'.red.get l = s.oct.red.get l) ∧
      1 ≤ n.childCount ∧ t'.leafCount + (n.childCount - 1) = s.oct.leafCount ∧ t'.live + n.childCount = s.oct.live ∧
      (∀ k, (n.child k).isBranch = false) ∧ t'.root.sub p = .leaf d ∧ d.palIdx = none ∧
      d.count.toNat = n.sumOver (fun e => e.count.toNat) ∧ d.sumR.toNat = n.sumOver (fun e => e.sumR.toNat) ∧
      d.sumG.toNat = n.sumOver (fun e => e.sumG.toNat) ∧ d.sumB.toNat = n.sumOver (fun e => e.sumB.toNat) ∧
      (∀ c e, s.oct.root.leafAt (pathOf c) = some e → ¬ p <+: pathOf c → t'.root.leafAt (pathOf c) = some e)

/-- OCT_PALETTE (R633, R640, R642, R644, R674) with a bound of 1 to 256: it completes unless the root has more children
than the bound, and then raises QUANTIZER_EXHAUSTED. DST_PAL gets the colours of the leaves in depth-first order, at most
the bound, and each leaf the number of its entry; the unit is frozen. The tree extracted is the unit's after k calls of
Reduce, where k is the least number that brings the leaf count to the bound; k = 0 when the leaves meet it already. Of two
colours whose leaves have different entries, the one whose slot numbers, taken from its bits, are lexicographically
smaller has the lower entry (R644). -/
def Obligations.OctPaletteExtractsLeaves : Prop :=
  ∀ s : State, s.oct.Sound s.cfg.nodeCapacity → s.oct.phase = .build → 1 ≤ s.arg0.toNat → s.arg0.toNat ≤ 256 →
    (s.arg0.toNat < s.oct.root.childCount → exec .octPalette s = .next (s.failed .quantizerExhausted 0)) ∧
    (s.oct.root.childCount ≤ s.arg0.toNat →
      ∃ (t : State) (pal : List Colour), exec .octPalette s = .next t ∧ t.err = .none ∧
        t.oct.Sound s.cfg.nodeCapacity ∧ t.oct.phase = .frozen ∧ t.oct.total = s.oct.total ∧
        pal = t.oct.root.leafList.map LeafData.colour ∧ pal.length = t.oct.leafCount ∧ pal.length ≤ s.arg0.toNat ∧
        t.oct.leafCount ≤ s.oct.leafCount ∧
        (∀ i, i < pal.length → Memory.get? t.dstPal i = pal[i]?) ∧
        (∀ i, pal.length ≤ i → Memory.get? t.dstPal i = Memory.get? s.dstPal i) ∧
        t.dst.palLen.toNat = pal.length ∧ t.result0.toNat = pal.length ∧
        (∀ i d, t.oct.root.leafList[i]? = some d → d.palIdx = some (BitVec.ofNat 8 i)) ∧
        (∀ (c e : Colour) (d f : LeafData) (i j : Byte), t.oct.root.leafAt (pathOf c) = some d →
          t.oct.root.leafAt (pathOf e) = some f → d.palIdx = some i → f.palIdx = some j → i ≠ j →
          (i.toNat < j.toNat ↔ keySlots c < keySlots e)) ∧
        (s.oct.leafCount ≤ s.arg0.toNat →
          pal = s.oct.root.leafList.map LeafData.colour ∧ t.oct.live = s.oct.live) ∧
        ∃ (k : Nat) (T : Octree),
          Octree.build s.cfg.nodeCapacity (List.replicate k .reduce) s.oct = .ok T ∧ T.leafCount ≤ s.arg0.toNat ∧
          (∀ j, j < k → ∃ U, Octree.build s.cfg.nodeCapacity (List.replicate j .reduce) s.oct = .ok U ∧
            s.arg0.toNat < U.leafCount) ∧
          (t.oct, pal) = T.extract)

/-- R643: a palette entry is the per-channel mean of its leaf, truncated; a leaf of one colour gives that colour. -/
def Obligations.PaletteEntriesAreTruncatedMeans : Prop :=
  ∀ d : LeafData, d.sound →
    (redOf d.colour).toNat = d.sumR.toNat / d.count.toNat ∧ (greenOf d.colour).toNat = d.sumG.toNat / d.count.toNat ∧
    (blueOf d.colour).toNat = d.sumB.toNat / d.count.toNat ∧
    (∀ c : Colour, d.sumR.toNat = d.count.toNat * (redOf c).toNat → d.sumG.toNat = d.count.toNat * (greenOf c).toNat →
      d.sumB.toNat = d.count.toNat * (blueOf c).toNat → d.colour = c)

/-- OCT_INDEX on a frozen unit (R650, R676): the index of the first leaf on the colour's path, with no distance computed;
with no leaf on the path it is PALETTE_LOOKUP_FAILURE. The path of a colour in its bits (R610, R611): the slot at level L
is 4 * R[7-L] + 2 * G[7-L] + B[7-L], for L from 0 to 7, and two colours share the first L slots exactly when their top L
bits agree in all three channels. -/
def Obligations.OctIndexFindsFirstLeaf : Prop :=
  (∀ c : Colour, (pathOf c).map Key.number = keySlots c) ∧
  (∀ (c e : Colour) (level : Nat), level ≤ 8 →
    ((pathOf c).take level = (pathOf e).take level ↔
      (redOf c).toNat / 2 ^ (8 - level) = (redOf e).toNat / 2 ^ (8 - level) ∧
      (greenOf c).toNat / 2 ^ (8 - level) = (greenOf e).toNat / 2 ^ (8 - level) ∧
      (blueOf c).toNat / 2 ^ (8 - level) = (blueOf e).toNat / 2 ^ (8 - level))) ∧
  ∀ s : State, s.oct.Sound s.cfg.nodeCapacity → s.oct.phase = .frozen →
    let c := s.arg0.extractLsb' 0 24
    (∀ d, s.oct.root.leafAt (pathOf c) = some d → ∃ i, d.palIdx = some i ∧
      exec .octIndex s =
        .next ({ s with oct := { s.oct with idxCache := some (c, i) }, result0 := i.setWidth 32 }).succeeded) ∧
    (s.oct.root.leafAt (pathOf c) = none → exec .octIndex s = .next (s.failed .paletteLookupFailure 0))

/-- R653: every colour added before CreatePalette, whatever was added or reduced after it, has an index afterwards. -/
def Obligations.AddedColoursHaveAnIndex : Prop :=
  ∀ (cap m : Nat) (ops : List BuildOp) (c : Colour) (T frozen : Octree) (pal : List Colour), 1 ≤ cap → m ≤ 256 →
    Octree.build cap ops .empty = .ok T → BuildOp.add c ∈ ops → T.createPalette m = .ok (frozen, pal) →
    ∃ t' i, frozen.getPaletteIndex c = .ok (t', i) ∧ i.toNat < pal.length

/-! ### The host port (10_state.md, 20_memory.md, 40_command_model.md) -/

/-- The reset input (R180, R1100). A step whose input is the falling edge of `rst_n` aborts the command in flight: nothing
of it survives. That every piece of state has its power-on value already while `rst_n` is low (log 8), and that the
engine's turn does nothing then (log 5), is the model's. A step whose input is the rising edge gives every piece of state its power-on
value: the registers as R180 has them, the memories without a value, the octree unit empty, the engine idle. A rising
edge while `rst_n` is high changes nothing (log 8). `State.reset` has the power-on values. -/
def Obligations.PowerOnValues : Prop :=
  (∀ (s : State) (rest : List Input), s.inputs = .resetAssert :: rest →
    ∃ t, step s = .next t ∧ t.AtPowerOn ∧ t.rstN = false ∧ t.cfg = s.cfg ∧ t.inputs = rest) ∧
  (∀ (s : State) (rest : List Input), s.rstN = false → s.inputs = .resetRelease :: rest →
    ∃ t, step s = .next t ∧ t.AtPowerOn ∧ t.rstN = true ∧ t.cfg = s.cfg ∧ t.inputs = rest) ∧
  (∀ (s : State) (rest : List Input),
    (s.rstN = true ∧ s.inputs = .resetRelease :: rest) ∨ (s.rstN = false ∧ s.inputs = .engine :: rest) →
    step s = .next { s with inputs := rest, draws := s.draws + 1 }) ∧
  (∀ cfg, (State.resetWith cfg).AtPowerOn ∧ (State.resetWith cfg).rstN = true ∧ (State.resetWith cfg).cfg = cfg) ∧
  State.reset.AtPowerOn ∧ State.reset.rstN = true ∧ State.reset.fmem = [] ∧ State.reset.srcPal = [] ∧
  State.reset.dstPal = []

/-- R111, R1101, R1102, R1103: a write to CTRL is accepted, BUSY or not. With bit 0 clear it does nothing. With bit 0 set
it puts, in one step, every register at its reset value, empties the octree unit and aborts the command; the palettes and
every FMEM byte stay, but for bytes of the destination ranges of an aborted REFORMAT that passes R811, R820 and R821, and
of the pixel of an aborted SETPIXEL that passes R901. R1103 names the check R821 only; that the checks R811 and R820 before
it, and for SETPIXEL those of R901, must pass too is the model's reading of R1103 and U6 (DEDUCED, log 7). -/
def Obligations.SoftResetKeepsMemories : Prop :=
  ∀ (s : State) (v : Word),
    (v.getLsbD 0 = false → hostWrite s 0x004 .b4 v = (s, .ok)) ∧
    (v.getLsbD 0 = true →
      ∃ t, hostWrite s 0x004 .b4 v = (t, .ok) ∧ (∀ r, readReg t r = r.resetWord) ∧ t.inflight = none ∧
        t.oct = Octree.empty ∧ t.srcPal = s.srcPal ∧ t.dstPal = s.dstPal ∧
        ∀ a, SameByte s t a ∨
          (∃ n f g, s.inflight = some (encode (.reformat n)) ∧ PixFmt.ofCode n = some g ∧
            routeTable f g ≠ .unsupported ∧ SourceLegal s f ∧ DestinationLegal s g ∧ Footprint s g a) ∨
          (∃ f, s.inflight = some (encode .setpixel) ∧ SourceLegal s f ∧ s.arg0.toNat < srcW s ∧
            s.arg1.toNat < srcH s ∧
            InRange (pixelAddr f (srcBase s) (srcStride s) (xOperand s) (yOperand s)) (pixelBytes f) a))

/-- R201, R221, R222, R223: which accesses are bus errors, and that a bus error changes no state. -/
def Obligations.BusErrorsChangeNothing : Prop :=
  ∀ (s : State) (a : Word) (n : BusSize) (v : Word),
    let off := a.toNat
    let mapped := off < 0xC00 ∧ n = .b4 ∧ off % 4 = 0 ∧
      (off ≤ 0x24 ∨ (0x40 ≤ off ∧ off ≤ 0x64) ∨ (0x80 ≤ off ∧ off ≤ 0xA4) ∨ (0xC0 ≤ off ∧ off ≤ 0xCC) ∨ 0x400 ≤ off)
    let inWindow := 0x00100000 ≤ off ∧ off + n.bytes ≤ 0x00100000 + s.cfg.fmemSize ∧ off % n.bytes = 0
    (¬ (mapped ∨ inWindow) → hostRead s a n = .busError ∧ hostWrite s a n v = (s, .busError)) ∧
    (mapped ∨ inWindow → (∃ w, hostRead s a n = .data w) ∧ ∃ t, hostWrite s a n v = (t, .ok))

/-- The register map (R101, R102, R110 to R141, R150, R161): each register shows the value the map has at its offset,
reserved bits 0, BUSY or not (the low 32 bits of an octree counter, log 9). In an idle block the host reads that value at
every offset of the map, and at a palette entry its 24 bits. There a register other than CMD, CTRL and STATUS reads back
the implemented bits of the last write, a register without implemented bits ignores writes, and a source palette entry
reads back 24 bits; every other register and entry, FMEM and the octree unit stay (R225, R600). -/
def Obligations.RegistersReadBack : Prop :=
  ∀ (s : State) (v : Word),
    (∀ r : Reg, (r.offset, (readReg s r).toNat) ∈ s.registerMap) ∧ (s.inflight = none →
    (∀ p ∈ s.registerMap, hostRead s (BitVec.ofNat 32 p.1) .b4 = .data (BitVec.ofNat 32 p.2)) ∧
    (∀ i, i < 256 →
      (∃ c : Colour, hostRead s (BitVec.ofNat 32 (0x400 + 4 * i)) .b4 = .data (c.setWidth 32) ∧
        ∀ e, Memory.get? s.srcPal i = some e → c = e) ∧
      (∃ c : Colour, hostRead s (BitVec.ofNat 32 (0x800 + 4 * i)) .b4 = .data (c.setWidth 32) ∧
        ∀ e, Memory.get? s.dstPal i = some e → c = e)) ∧
    (∀ r : Reg, r ≠ .cmd → r ≠ .ctrl → r ≠ .status →
      ∃ t, hostWrite s (BitVec.ofNat 32 r.offset) .b4 v = (t, .ok) ∧
        (r.implemented = 0 → t = s) ∧
        (r.implemented ≠ 0 → hostRead t (BitVec.ofNat 32 r.offset) .b4 = .data (v &&& r.implemented)) ∧
        (∀ q : Reg, q ≠ r → readReg t q = readReg s q) ∧ t.fmem = s.fmem ∧ t.srcPal = s.srcPal ∧
        t.dstPal = s.dstPal ∧ t.oct = s.oct) ∧
    (∀ i, i < 256 →
      ∃ t, hostWrite s (BitVec.ofNat 32 (0x400 + 4 * i)) .b4 v = (t, .ok) ∧
        hostRead t (BitVec.ofNat 32 (0x400 + 4 * i)) .b4 = .data (v &&& 0x00FFFFFF) ∧
        (∀ j, j ≠ i → Memory.get? t.srcPal j = Memory.get? s.srcPal j) ∧ (∀ q : Reg, readReg t q = readReg s q) ∧
        t.fmem = s.fmem ∧ t.dstPal = s.dstPal ∧ t.oct = s.oct ∧
        hostWrite s (BitVec.ofNat 32 (0x800 + 4 * i)) .b4 v = (s, .ok)))

/-- R223, R224: in an idle block a read of the FMEM window gives the bytes at rising offsets, the lowest byte first, and 0
above them; a write puts its bytes the same way and changes nothing else, and the same read gives them back. -/
def Obligations.FmemIsLittleEndian : Prop :=
  ∀ (s : State) (off : Nat) (n : BusSize) (v : Word), s.inflight = none → s.cfg.valid = true → off % n.bytes = 0 →
    off + n.bytes ≤ s.cfg.fmemSize →
    (∃ w : Word, hostRead s (BitVec.ofNat 32 (0x00100000 + off)) n = .data w ∧ w.toNat < 2 ^ (8 * n.bytes) ∧
      ∀ i b, i < n.bytes → Memory.get? s.fmem (off + i) = some b → w.extractLsb' (8 * i) 8 = b) ∧
    ∃ m, hostWrite s (BitVec.ofNat 32 (0x00100000 + off)) n v = ({ s with fmem := m }, .ok) ∧
      (∀ i, i < n.bytes → Memory.get? m (off + i) = some (v.extractLsb' (8 * i) 8)) ∧
      (∀ a, ¬ InRange off n.bytes a → Memory.get? m a = Memory.get? s.fmem a) ∧
      hostRead { s with fmem := m } (BitVec.ofNat 32 (0x00100000 + off)) n = .data (v &&& (0xFFFFFFFF >>> (32 - 8 * n.bytes)))

/-- R112: the word STATUS reads as, with ERR coded as in R1001, and what a write to STATUS clears, whether BUSY or not. -/
def Obligations.StatusFlags : Prop :=
  ∀ (s : State) (v : Word),
    (readReg s .status).toNat =
      (if s.inflight.isSome then 1 else 0) + (if s.done then 2 else 0) + (if s.ovr then 4 else 0) +
        256 * (match s.err with
          | .none => 0
          | .unsupportedConversion => 1
          | .invalidArgument => 2
          | .paletteLookupFailure => 3
          | .quantizerExhausted => 4
          | .capacityExceeded => 5
          | .sequenceError => 6
          | .illegalCommand => 7) ∧
    hostWrite s 0x008 .b4 v =
      ({ s with
        done := if v.getLsbD 1 then false else s.done
        ovr := if v.getLsbD 2 then false else s.ovr }, .ok)

/-- Host accesses while BUSY (R404): a write to CMD, an operand, source or placement register, SRC_PAL or FMEM answers OK,
changes nothing but OVR, and sets it; a write to a read-only register or to DST_PAL changes nothing; the registers no
command writes read as they are. -/
def Obligations.BusyAccesses : Prop :=
  ∀ (s : State) (v : Word), s.inflight.isSome = true →
    (∀ r : Reg, r.implemented ≠ 0 →
      hostWrite s (BitVec.ofNat 32 r.offset) .b4 v = ({ s with ovr := true }, .ok) ∧
      hostRead s (BitVec.ofNat 32 r.offset) .b4 = .data (readReg s r)) ∧
    (∀ r : Reg, r.implemented = 0 → r ≠ .ctrl → r ≠ .status →
      hostWrite s (BitVec.ofNat 32 r.offset) .b4 v = (s, .ok)) ∧
    (∀ r : Reg, r = .id ∨ r = .ctrl ∨ r = .status →
      hostRead s (BitVec.ofNat 32 r.offset) .b4 = .data (readReg s r)) ∧
    (∀ i, i < 256 →
      hostWrite s (BitVec.ofNat 32 (0x400 + 4 * i)) .b4 v = ({ s with ovr := true }, .ok) ∧
      hostRead s (BitVec.ofNat 32 (0x400 + 4 * i)) .b4 = .data ((srcPalAt s i).setWidth 32) ∧
      hostWrite s (BitVec.ofNat 32 (0x800 + 4 * i)) .b4 v = (s, .ok)) ∧
    (∀ off n, s.cfg.valid = true → off % n.bytes = 0 → off + n.bytes ≤ s.cfg.fmemSize →
      hostWrite s (BitVec.ofNat 32 (0x00100000 + off)) n v = ({ s with ovr := true }, .ok))

/-- A host transaction is one step (R200, R225, R226): a read changes nothing but the model's own fields, and a write leaves
what `hostWrite` gives. With `rst_n` low either is the fault of log 8. -/
def Obligations.HostTransactionsAreSteps : Prop :=
  ∀ (s : State) (a v : Word) (n : BusSize) (rest : List Input),
    let s' := { s with inputs := rest, draws := s.draws + 1 }
    (s.rstN = true → s.inputs = .read a n :: rest → step s = .next { s' with response := some (hostRead s' a n) }) ∧
    (s.rstN = true → s.inputs = .write a n v :: rest →
      step s = .next { (hostWrite s' a n v).1 with response := some (hostWrite s' a n v).2 }) ∧
    (s.rstN = false → s.inputs = .read a n :: rest ∨ s.inputs = .write a n v :: rest →
      step s = .fault .hostTransactionInReset)

/-! ### Every step -/

/-- The state after power-on reset has the invariant, for all parameters in the ranges of R10; so has `State.reset`, whose
parameters are the model's choice (log 2). -/
def Obligations.SoundAtReset : Prop :=
  (∀ cfg : Config, cfg.valid = true → (State.resetWith cfg).Sound) ∧ State.reset.Sound

/-- Every step keeps the invariant of the block: the memories stay in canonical form inside their sizes (R150, R210), the
flags and the engine agree (R112, R113, R170, R402), and the octree unit keeps I1 to I9 of R606. No step changes the
parameters (R100). -/
def Obligations.StepsKeepTheInvariant : Prop :=
  ∀ s s' : State, s.Sound → step s = .next s' → s'.Sound ∧ s'.cfg = s.cfg

/-- Completion is guaranteed (R403): from any state that is not in reset, and whose inputs do not pull `rst_n` low, the
command in flight ends within as many steps as there are inputs, and one. That the engine acts once the inputs are used
up is the model's form of fairness (log 5). -/
def Obligations.CompletionIsGuaranteed : Prop :=
  ∀ s : State, s.rstN = true → Input.resetAssert ∉ s.inputs →
    ∃ k t, k ≤ s.inputs.length + 1 ∧ Host.Core.run Sys2Proof.core k s = .next t ∧ t.inflight = none
end

