-- ==== Sys2Proof/Laws/Codec.lean ====
section
/-! SUPPORT. The laws of channel scaling and of the truecolor layouts. -/

namespace Sys2Proof

theorem getLsbD_rgb (r g b : Byte) (i : Nat) :
    (rgb r g b).getLsbD i =
      if i < 8 then b.getLsbD i else if i < 16 then g.getLsbD (i - 8) else r.getLsbD (i - 16) := by
  unfold rgb
  have h1 := BitVec.getLsbD_append (x := r ++ g) (y := b) (i := i)
  have h2 := BitVec.getLsbD_append (x := r) (y := g) (i := i - 8)
  rw [h1, h2]
  by_cases h : i < 8
  · simp [h]
  · by_cases h' : i < 16
    · simp [h, h', show i - 8 < 8 by omega]
    · simp [h, h', show ¬ i - 8 < 8 by omega, show i - 8 - 8 = i - 16 by omega]

@[simp] theorem redOf_rgb (r g b : Byte) : redOf (rgb r g b) = r := by
  ext i hi
  simp [redOf, getLsbD_rgb, show ¬ 16 + i < 8 by omega, BitVec.getLsbD_eq_getElem hi]

@[simp] theorem greenOf_rgb (r g b : Byte) : greenOf (rgb r g b) = g := by
  ext i hi
  simp [greenOf, getLsbD_rgb, hi, show 8 + i < 16 by omega]

@[simp] theorem blueOf_rgb (r g b : Byte) : blueOf (rgb r g b) = b := by
  ext i hi
  simp [blueOf, getLsbD_rgb, hi]

@[simp] theorem rgb_channels (c : Colour) : rgb (redOf c) (greenOf c) (blueOf c) = c := by
  ext i hi
  rw [← BitVec.getLsbD_eq_getElem, ← BitVec.getLsbD_eq_getElem, getLsbD_rgb]
  by_cases h : i < 8
  · simp [h, blueOf]
  · by_cases h' : i < 16
    · simp [h, h', greenOf, show i - 8 < 8 by omega, show 8 + (i - 8) = i by omega]
    · simp [h, h', redOf, show i - 16 < 8 by omega, show 16 + (i - 16) = i by omega]

theorem rgb_toNat (r g b : Byte) : (rgb r g b).toNat = r.toNat * 65536 + g.toNat * 256 + b.toNat := by
  have h1 : (rgb r g b).toNat = (r ++ g).toNat <<< 8 ||| b.toNat := BitVec.toNat_append _ _
  have h2 : (r ++ g).toNat = r.toNat <<< 8 ||| g.toNat := BitVec.toNat_append _ _
  rw [h1, h2, ← Nat.shiftLeft_add_eq_or_of_lt (by have := g.isLt; omega), ← Nat.shiftLeft_add_eq_or_of_lt (by have := b.isLt; omega)]
  simp only [Nat.shiftLeft_eq]
  omega

/-! ### Channel scaling (R512) -/

theorem demote_promote5 (v : BitVec 5) : demote 5 (promote v) = v := by
  revert v
  decide

theorem demote_promote6 (v : BitVec 6) : demote 6 (promote v) = v := by
  revert v
  decide

theorem demote_toNat5 (v : Byte) : (demote 5 v).toNat = v.toNat / 8 := by
  have := v.isLt
  simp only [demote, BitVec.extractLsb'_toNat, Nat.shiftRight_eq_div_pow]
  omega

theorem demote_toNat6 (v : Byte) : (demote 6 v).toNat = v.toNat / 4 := by
  have := v.isLt
  simp only [demote, BitVec.extractLsb'_toNat, Nat.shiftRight_eq_div_pow]
  omega

/-! ### The 16-bit layouts (R520 to R526) -/

theorem getLsbD_pack565 (c : Colour) (i : Nat) :
    (pack565 c).getLsbD i =
      if i < 5 then (demote 5 (blueOf c)).getLsbD i
      else if i < 11 then (demote 6 (greenOf c)).getLsbD (i - 5)
      else (demote 5 (redOf c)).getLsbD (i - 11) := by
  unfold pack565
  have h1 := BitVec.getLsbD_append (x := demote 5 (redOf c) ++ demote 6 (greenOf c)) (y := demote 5 (blueOf c)) (i := i)
  have h2 := BitVec.getLsbD_append (x := demote 5 (redOf c)) (y := demote 6 (greenOf c)) (i := i - 5)
  rw [h1, h2]
  by_cases h : i < 5
  · simp [h]
  · by_cases h' : i < 11
    · simp [h, h', show i - 5 < 6 by omega]
    · simp [h, h', show ¬ i - 5 < 6 by omega, show i - 5 - 6 = i - 11 by omega]

theorem getLsbD_pack555 (c : Colour) (i : Nat) :
    (pack555 c).getLsbD i =
      if i < 5 then (demote 5 (blueOf c)).getLsbD i
      else if i < 10 then (demote 5 (greenOf c)).getLsbD (i - 5)
      else (demote 5 (redOf c)).getLsbD (i - 10) := by
  unfold pack555
  have h0 := BitVec.getLsbD_append (x := 0#1) (y := demote 5 (redOf c)) (i := i - 5 - 5)
  have h1 := BitVec.getLsbD_append (x := 0#1 ++ demote 5 (redOf c) ++ demote 5 (greenOf c)) (y := demote 5 (blueOf c)) (i := i)
  have h2 := BitVec.getLsbD_append (x := 0#1 ++ demote 5 (redOf c)) (y := demote 5 (greenOf c)) (i := i - 5)
  rw [h1, h2, h0]
  by_cases h : i < 5
  · simp [h]
  · by_cases h' : i < 10
    · simp [h, h', show i - 5 < 5 by omega]
    · by_cases h'' : i < 15
      · simp [h, h', show ¬ i - 5 < 5 by omega, show i - 5 - 5 = i - 10 by omega, show i - 10 < 5 by omega]
      · have : (demote 5 (redOf c)).getLsbD (i - 10) = false := BitVec.getLsbD_of_ge _ _ (by omega)
        simp [h, h', show ¬ i - 5 < 5 by omega, show ¬ i - 5 - 5 < 5 by omega, this]

/-- Rgb565 values come back from a round trip through 8 bits per channel (R526). -/
theorem pack565_unpack565 (w : BitVec 16) : pack565 (unpack565 w) = w := by
  ext i hi
  rw [← BitVec.getLsbD_eq_getElem, ← BitVec.getLsbD_eq_getElem, getLsbD_pack565]
  simp only [unpack565, redOf_rgb, greenOf_rgb, blueOf_rgb, demote_promote5, demote_promote6,
    BitVec.getLsbD_extractLsb']
  by_cases h : i < 5
  · simp [h]
  · by_cases h' : i < 11
    · simp [h, h', show i - 5 < 6 by omega, show 5 + (i - 5) = i by omega]
    · simp [h, h', show i - 11 < 5 by omega, show 11 + (i - 11) = i by omega]

/-- Rgb555 values come back with bit 15 clear (R526). -/
theorem pack555_unpack555 (w : BitVec 16) : pack555 (unpack555 w) = w &&& 0x7FFF#16 := by
  ext i hi
  rw [← BitVec.getLsbD_eq_getElem, ← BitVec.getLsbD_eq_getElem, getLsbD_pack555]
  simp only [unpack555, redOf_rgb, greenOf_rgb, blueOf_rgb, demote_promote5, BitVec.getLsbD_extractLsb',
    BitVec.getLsbD_and]
  have hm : (0x7FFF#16).getLsbD i = decide (i < 15) := by
    revert i
    decide
  rw [hm]
  by_cases h : i < 5
  · simp [h, show i < 15 by omega]
  · by_cases h' : i < 10
    · simp [h, h', show i - 5 < 5 by omega, show 5 + (i - 5) = i by omega, show i < 15 by omega]
    · by_cases h'' : i < 15
      · simp [h, h', h'', show i - 10 < 5 by omega, show 10 + (i - 10) = i by omega]
      · simp [h, h', h'', show ¬ i - 10 < 5 by omega]

theorem pack565_toNat (c : Colour) :
    (pack565 c).toNat = (redOf c).toNat / 8 * 2048 + (greenOf c).toNat / 4 * 32 + (blueOf c).toNat / 8 := by
  have h1 : (pack565 c).toNat = (demote 5 (redOf c) ++ demote 6 (greenOf c)).toNat <<< 5 ||| (demote 5 (blueOf c)).toNat :=
    BitVec.toNat_append _ _
  have h2 : (demote 5 (redOf c) ++ demote 6 (greenOf c)).toNat = (demote 5 (redOf c)).toNat <<< 6 ||| (demote 6 (greenOf c)).toNat :=
    BitVec.toNat_append _ _
  rw [h1, h2, ← Nat.shiftLeft_add_eq_or_of_lt (by have := (demote 6 (greenOf c)).isLt; omega),
    ← Nat.shiftLeft_add_eq_or_of_lt (by have := (demote 5 (blueOf c)).isLt; omega), demote_toNat5, demote_toNat6,
    demote_toNat5]
  simp only [Nat.shiftLeft_eq]
  omega

theorem pack555_toNat (c : Colour) :
    (pack555 c).toNat = (redOf c).toNat / 8 * 1024 + (greenOf c).toNat / 8 * 32 + (blueOf c).toNat / 8 := by
  have h1 : (pack555 c).toNat =
      (0#1 ++ demote 5 (redOf c) ++ demote 5 (greenOf c)).toNat <<< 5 ||| (demote 5 (blueOf c)).toNat :=
    BitVec.toNat_append _ _
  have h2 : (0#1 ++ demote 5 (redOf c) ++ demote 5 (greenOf c)).toNat =
      (0#1 ++ demote 5 (redOf c)).toNat <<< 5 ||| (demote 5 (greenOf c)).toNat :=
    BitVec.toNat_append _ _
  have h3 : (0#1 ++ demote 5 (redOf c)).toNat = (0#1).toNat <<< 5 ||| (demote 5 (redOf c)).toNat :=
    BitVec.toNat_append _ _
  rw [h1, h2, h3, ← Nat.shiftLeft_add_eq_or_of_lt (by have := (demote 5 (redOf c)).isLt; omega),
    ← Nat.shiftLeft_add_eq_or_of_lt (by have := (demote 5 (greenOf c)).isLt; omega),
    ← Nat.shiftLeft_add_eq_or_of_lt (by have := (demote 5 (blueOf c)).isLt; omega), demote_toNat5, demote_toNat5,
    demote_toNat5]
  simp only [Nat.shiftLeft_eq]
  simp
  omega

end Sys2Proof
end

