-- ==== Sys2Proof/Laws/Tree.lean ====
section
/-! SUPPORT. Octree nodes: children, the node at a path, and what the descent of R620, the fold of R630 and the
visit of R640 do to the shape and the measures of a tree. -/

namespace Sys2Proof.Machine

/-! ### Children -/

@[simp] theorem Node.isBranch_branch (q : Nat) (c0 c1 c2 c3 c4 c5 c6 c7 : Node) :
    (Node.branch q c0 c1 c2 c3 c4 c5 c6 c7).isBranch = true := rfl
@[simp] theorem Node.isBranch_leaf (d : LeafData) : (Node.leaf d).isBranch = false := rfl
@[simp] theorem Node.isBranch_empty : Node.empty.isBranch = false := rfl
@[simp] theorem Node.child_empty (k : Key) : Node.empty.child k = .empty := rfl
@[simp] theorem Node.child_leaf (d : LeafData) (k : Key) : (Node.leaf d).child k = .empty := rfl

theorem Node.exists_branch {n : Node} (h : n.isBranch = true) :
    ∃ q c0 c1 c2 c3 c4 c5 c6 c7, n = .branch q c0 c1 c2 c3 c4 c5 c6 c7 := by
  cases n with
  | empty => cases h
  | leaf d => cases h
  | branch q c0 c1 c2 c3 c4 c5 c6 c7 => exact ⟨q, c0, c1, c2, c3, c4, c5, c6, c7, rfl⟩

theorem Node.child_setChild {n : Node} (hn : n.isBranch = true) (k j : Key) (m : Node) :
    (n.setChild k m).child j = if j = k then m else n.child j := by
  obtain ⟨q, c0, c1, c2, c3, c4, c5, c6, c7, rfl⟩ := Node.exists_branch hn
  cases k <;> cases j <;> rfl

@[simp] theorem Node.isBranch_setChild (n : Node) (k : Key) (m : Node) : (n.setChild k m).isBranch = n.isBranch := by
  cases n with
  | empty => rfl
  | leaf d => rfl
  | branch q c0 c1 c2 c3 c4 c5 c6 c7 => cases k <;> rfl

theorem Node.setChild_leaves {n : Node} (hn : n.isBranch = true) (k : Key) (m : Node) :
    (n.setChild k m).leaves + (n.child k).leaves = n.leaves + m.leaves := by
  obtain ⟨q, c0, c1, c2, c3, c4, c5, c6, c7, rfl⟩ := Node.exists_branch hn
  cases k <;> simp only [Node.setChild, Node.child, Node.leaves] <;> omega

theorem Node.setChild_nodes {n : Node} (hn : n.isBranch = true) (k : Key) (m : Node) :
    (n.setChild k m).nodes + (n.child k).nodes = n.nodes + m.nodes := by
  obtain ⟨q, c0, c1, c2, c3, c4, c5, c6, c7, rfl⟩ := Node.exists_branch hn
  cases k <;> simp only [Node.setChild, Node.child, Node.nodes] <;> omega

theorem Node.setChild_pixels {n : Node} (hn : n.isBranch = true) (k : Key) (m : Node) :
    (n.setChild k m).pixels + (n.child k).pixels = n.pixels + m.pixels := by
  obtain ⟨q, c0, c1, c2, c3, c4, c5, c6, c7, rfl⟩ := Node.exists_branch hn
  cases k <;> simp only [Node.setChild, Node.child, Node.pixels] <;> omega

theorem Node.child_shaped {n : Node} {level : Nat} (h : n.shaped level) (k : Key) : (n.child k).shaped (level + 1) := by
  cases n with
  | empty => trivial
  | leaf d => trivial
  | branch q c0 c1 c2 c3 c4 c5 c6 c7 =>
    obtain ⟨-, -, h0, h1, h2, h3, h4, h5, h6, h7⟩ := h
    cases k <;> assumption

theorem Node.setChild_shaped {n m : Node} {level : Nat} (hn : n.isBranch = true) (h : n.shaped level) (k : Key)
    (hm : m.shaped (level + 1)) (hm1 : 1 ≤ m.nodes) : (n.setChild k m).shaped level := by
  obtain ⟨q, c0, c1, c2, c3, c4, c5, c6, c7, rfl⟩ := Node.exists_branch hn
  obtain ⟨hl, -, h0, h1, h2, h3, h4, h5, h6, h7⟩ := h
  cases k <;> exact ⟨hl, fun _ => by omega, by assumption, by assumption, by assumption, by assumption, by assumption,
    by assumption, by assumption, by assumption⟩

theorem Node.child_allLeaves {P : LeafData → Prop} {n : Node} (h : n.allLeaves P) (k : Key) : (n.child k).allLeaves P := by
  cases n with
  | empty => trivial
  | leaf d => trivial
  | branch q c0 c1 c2 c3 c4 c5 c6 c7 =>
    obtain ⟨h0, h1, h2, h3, h4, h5, h6, h7⟩ := h
    cases k <;> assumption

theorem Node.setChild_allLeaves {P : LeafData → Prop} {n m : Node} (h : n.allLeaves P) (k : Key) (hm : m.allLeaves P) :
    (n.setChild k m).allLeaves P := by
  cases n with
  | empty => trivial
  | leaf d => exact h
  | branch q c0 c1 c2 c3 c4 c5 c6 c7 =>
    obtain ⟨h0, h1, h2, h3, h4, h5, h6, h7⟩ := h
    cases k <;> exact ⟨by assumption, by assumption, by assumption, by assumption, by assumption, by assumption,
      by assumption, by assumption⟩

theorem Node.child_nodes_lt {n : Node} (hn : n.isBranch = true) (k : Key) : (n.child k).nodes < n.nodes := by
  obtain ⟨q, c0, c1, c2, c3, c4, c5, c6, c7, rfl⟩ := Node.exists_branch hn
  cases k <;> simp only [Node.child, Node.nodes] <;> omega

theorem Node.child_pixels_le (n : Node) (k : Key) : (n.child k).pixels ≤ n.pixels := by
  cases n with
  | empty => exact Nat.le_refl _
  | leaf d => exact Nat.zero_le _
  | branch q c0 c1 c2 c3 c4 c5 c6 c7 => cases k <;> simp only [Node.child, Node.pixels] <;> omega

/-! ### The node at a path -/

@[simp] theorem Node.sub_nil (n : Node) : n.sub [] = n := by cases n <;> rfl

@[simp] theorem Node.sub_cons (n : Node) (k : Key) (p : Path) : n.sub (k :: p) = (n.child k).sub p := by
  cases n <;> rfl

@[simp] theorem Node.sub_empty (p : Path) : Node.empty.sub p = .empty := by
  induction p with
  | nil => rfl
  | cons k p ih => rw [Node.sub_cons, Node.child_empty, ih]

theorem Node.sub_append (n : Node) (p q : Path) : n.sub (p ++ q) = (n.sub p).sub q := by
  induction p generalizing n with
  | nil => simp
  | cons k p ih => simp [ih]

theorem Node.sub_leaf_cons (d : LeafData) (k : Key) (p : Path) : (Node.leaf d).sub (k :: p) = .empty := by simp

theorem Node.modify_nil (f : Node → Node) (n : Node) : n.modify f [] = f n := by cases n <;> rfl

theorem Node.modify_cons (f : Node → Node) (n : Node) (k : Key) (p : Path) :
    n.modify f (k :: p) = n.setChild k ((n.child k).modify f p) := by cases n <;> rfl

/-- A path that leads to a node leads through non-leaf nodes. -/
theorem Node.isBranch_of_sub_cons {n : Node} {k : Key} {p : Path} (h : n.sub (k :: p) ≠ .empty) : n.isBranch = true := by
  cases n with
  | empty => simp at h
  | leaf d => simp at h
  | branch => rfl

theorem Node.sub_shaped {n : Node} {level : Nat} (h : n.shaped level) (p : Path) : (n.sub p).shaped (level + p.length) := by
  induction p generalizing n level with
  | nil => simpa using h
  | cons k p ih =>
    have := ih (Node.child_shaped h k)
    simpa [Nat.add_assoc, Nat.add_comm 1] using this

theorem Node.sub_pixels_le (n : Node) (p : Path) : (n.sub p).pixels ≤ n.pixels := by
  induction p generalizing n with
  | nil => simp
  | cons k p ih => simpa using Nat.le_trans (ih _) (Node.child_pixels_le n k)

theorem Node.modify_leaves (f : Node → Node) {n : Node} {p : Path} (h : n.sub p ≠ .empty) :
    (n.modify f p).leaves + (n.sub p).leaves = n.leaves + (f (n.sub p)).leaves := by
  induction p generalizing n with
  | nil =>
    rw [Node.modify_nil, Node.sub_nil]
    omega
  | cons k p ih =>
    have hb := Node.isBranch_of_sub_cons h
    have h1 := Node.setChild_leaves hb k ((n.child k).modify f p)
    have h2 := ih (n := n.child k) (by simpa using h)
    rw [Node.modify_cons, Node.sub_cons]
    omega

theorem Node.modify_nodes (f : Node → Node) {n : Node} {p : Path} (h : n.sub p ≠ .empty) :
    (n.modify f p).nodes + (n.sub p).nodes = n.nodes + (f (n.sub p)).nodes := by
  induction p generalizing n with
  | nil =>
    rw [Node.modify_nil, Node.sub_nil]
    omega
  | cons k p ih =>
    have hb := Node.isBranch_of_sub_cons h
    have h1 := Node.setChild_nodes hb k ((n.child k).modify f p)
    have h2 := ih (n := n.child k) (by simpa using h)
    rw [Node.modify_cons, Node.sub_cons]
    omega

theorem Node.modify_pixels (f : Node → Node) {n : Node} {p : Path} (h : n.sub p ≠ .empty) :
    (n.modify f p).pixels + (n.sub p).pixels = n.pixels + (f (n.sub p)).pixels := by
  induction p generalizing n with
  | nil =>
    rw [Node.modify_nil, Node.sub_nil]
    omega
  | cons k p ih =>
    have hb := Node.isBranch_of_sub_cons h
    have h1 := Node.setChild_pixels hb k ((n.child k).modify f p)
    have h2 := ih (n := n.child k) (by simpa using h)
    rw [Node.modify_cons, Node.sub_cons]
    omega

theorem Node.modify_shaped (f : Node → Node) {n : Node} {p : Path} {level : Nat} (h : n.sub p ≠ .empty)
    (hn : n.shaped level) (hf : (f (n.sub p)).shaped (level + p.length)) (h1 : 1 ≤ (f (n.sub p)).nodes) :
    (n.modify f p).shaped level ∧ 1 ≤ (n.modify f p).nodes := by
  induction p generalizing n level with
  | nil =>
    rw [Node.modify_nil]
    exact ⟨by simpa using hf, by simpa using h1⟩
  | cons k p ih =>
    have hb := Node.isBranch_of_sub_cons h
    have hs := ih (n := n.child k) (level := level + 1) (by simpa using h) (Node.child_shaped hn k)
      (by simpa [Nat.add_assoc, Nat.add_comm 1] using hf) (by simpa using h1)
    have hc := Node.setChild_nodes hb k ((n.child k).modify f p)
    have hlt := Node.child_nodes_lt hb k
    rw [Node.modify_cons]
    exact ⟨Node.setChild_shaped hb hn k hs.1 hs.2, by omega⟩

theorem Node.modify_allLeaves {P : LeafData → Prop} (f : Node → Node) {n : Node} (p : Path) (hn : n.allLeaves P)
    (hf : ∀ m : Node, m.allLeaves P → (f m).allLeaves P) : (n.modify f p).allLeaves P := by
  induction p generalizing n with
  | nil =>
    rw [Node.modify_nil]
    exact hf n hn
  | cons k p ih =>
    rw [Node.modify_cons]
    exact Node.setChild_allLeaves hn k (ih (Node.child_allLeaves hn k))

/-- What a change at `p` does to the branches of a tree: those below `p` are those of the new node, the others stay. -/
theorem Node.sub_modify_isBranch (f : Node → Node) {n : Node} {p : Path} (h : n.sub p ≠ .empty) (q : Path) :
    ((n.modify f p).sub q).isBranch =
      if p <+: q then ((f (n.sub p)).sub (q.drop p.length)).isBranch else (n.sub q).isBranch := by
  induction p generalizing n q with
  | nil => simp [Node.modify_nil]
  | cons k p ih =>
    have hb := Node.isBranch_of_sub_cons h
    rw [Node.modify_cons]
    cases q with
    | nil => simp [hb]
    | cons j q =>
      rw [Node.sub_cons, Node.child_setChild hb]
      by_cases e : j = k
      · subst e
        rw [if_pos rfl, ih (n := n.child j) (by simpa using h)]
        simp
      · have : ¬ (k :: p) <+: (j :: q) := fun hp => e (by
          have := List.prefix_iff_eq_take.1 hp
          simp at this
          exact this.1.symm)
        rw [if_neg e, if_neg this, Node.sub_cons]

theorem Node.sub_modify_self (f : Node → Node) {n : Node} {p : Path} (h : n.sub p ≠ .empty) :
    (n.modify f p).sub p = f (n.sub p) := by
  induction p generalizing n with
  | nil => simp [Node.modify_nil]
  | cons k p ih =>
    have hb := Node.isBranch_of_sub_cons h
    rw [Node.modify_cons, Node.sub_cons, Node.child_setChild hb, if_pos rfl, ih (by simpa using h), Node.sub_cons]

/-! ### The descent (R620) -/

theorem Node.need_le (n : Node) (ks : Path) : n.need ks ≤ ks.length + 1 := by
  induction ks generalizing n with
  | nil => cases n <;> simp [Node.need]
  | cons k ks ih =>
    cases n with
    | empty => simp [Node.need]
    | leaf d => simp [Node.need]
    | branch q c0 c1 c2 c3 c4 c5 c6 c7 =>
      simp only [Node.need, List.length_cons]
      exact Nat.le_succ_of_le (ih _)

theorem Node.need_cons {n : Node} (hn : n.isBranch = true) (k : Key) (ks : Path) :
    n.need (k :: ks) = (n.child k).need ks := by
  obtain ⟨q, c0, c1, c2, c3, c4, c5, c6, c7, rfl⟩ := Node.exists_branch hn
  rfl

theorem Node.insert_cons (c : Colour) (q : Nat) {n : Node} (hn : n.isBranch = true) (k : Key) (ks : Path) :
    n.insert c q (k :: ks) = n.setChild k ((n.child k).insert c q ks) := by
  obtain ⟨q, c0, c1, c2, c3, c4, c5, c6, c7, rfl⟩ := Node.exists_branch hn
  rfl

theorem Node.insert_nil (c : Colour) (q : Nat) {n : Node} (hn : n.isBranch = true) : n.insert c q [] = n := by
  obtain ⟨q, c0, c1, c2, c3, c4, c5, c6, c7, rfl⟩ := Node.exists_branch hn
  rfl

theorem Node.leafAt_cons {n : Node} (hn : n.isBranch = true) (k : Key) (ks : Path) :
    n.leafAt (k :: ks) = (n.child k).leafAt ks := by
  obtain ⟨q, c0, c1, c2, c3, c4, c5, c6, c7, rfl⟩ := Node.exists_branch hn
  rfl

theorem Node.leafPath_cons {n : Node} (hn : n.isBranch = true) (k : Key) (ks : Path) :
    n.leafPath (k :: ks) = k :: (n.child k).leafPath ks := by
  obtain ⟨q, c0, c1, c2, c3, c4, c5, c6, c7, rfl⟩ := Node.exists_branch hn
  rfl

theorem Node.lookup_cons {n : Node} (hn : n.isBranch = true) (k : Key) (ks : Path) :
    n.lookup (k :: ks) = (n.child k).lookup ks := by
  obtain ⟨q, c0, c1, c2, c3, c4, c5, c6, c7, rfl⟩ := Node.exists_branch hn
  rfl

@[simp] theorem Node.isBranch_bare (q : Nat) : (Node.bare q).isBranch = true := rfl

theorem Node.child_bare (q : Nat) (k : Key) : (Node.bare q).child k = .empty := by cases k <;> rfl

/-- A level-by-level reading of what a descent created (R620): the nodes of a fresh chain. -/
theorem Node.fresh_spec (c : Colour) (q : Nat) (ks : Path) (level : Nat) (hl : 1 ≤ level) (h : level + ks.length = 8) :
    (Node.fresh c q ks).shaped level ∧ (Node.fresh c q ks).nodes = ks.length + 1 ∧ (Node.fresh c q ks).leaves = 1 ∧
      (Node.fresh c q ks).pixels = 1 := by
  induction ks generalizing q level with
  | nil =>
    refine ⟨⟨hl, ?_⟩, rfl, rfl, rfl⟩
    have hr := (redOf c).isLt
    have hg := (greenOf c).isLt
    have hb := (blueOf c).isLt
    refine ⟨?_, ?_, ?_, ?_⟩ <;> simp [LeafData.accumulate, LeafData.fresh] <;> omega
  | cons k ks ih =>
    simp only [List.length_cons] at h
    obtain ⟨h1, h2, h3, h4⟩ := ih (q + 1) (level + 1) (by omega) (by omega)
    have hb : (Node.bare q).isBranch = true := rfl
    have e1 := Node.setChild_nodes hb k (Node.fresh c (q + 1) ks)
    have e2 := Node.setChild_leaves hb k (Node.fresh c (q + 1) ks)
    have e3 := Node.setChild_pixels hb k (Node.fresh c (q + 1) ks)
    have z1 : (Node.bare q).nodes = 1 := rfl
    have z2 : (Node.bare q).leaves = 0 := rfl
    have z3 : (Node.bare q).pixels = 0 := rfl
    have y1 : Node.empty.nodes = 0 := rfl
    have y2 : Node.empty.leaves = 0 := rfl
    have y3 : Node.empty.pixels = 0 := rfl
    rw [Node.child_bare] at e1 e2 e3
    refine ⟨?_, by simp only [Node.fresh, List.length_cons]; omega, by simp only [Node.fresh]; omega,
      by simp only [Node.fresh]; omega⟩
    show ((Node.bare q).setChild k (Node.fresh c (q + 1) ks)).shaped level
    have hl7 : level ≤ 7 := by omega
    have hnn : 1 ≤ (Node.fresh c (q + 1) ks).nodes := by omega
    cases k <;>
      exact ⟨hl7, fun _ => by omega, by first | exact h1 | trivial, by first | exact h1 | trivial,
        by first | exact h1 | trivial, by first | exact h1 | trivial, by first | exact h1 | trivial,
        by first | exact h1 | trivial, by first | exact h1 | trivial, by first | exact h1 | trivial⟩

theorem Node.fresh_isBranch (c : Colour) (q : Nat) (ks p : Path) :
    ((Node.fresh c q ks).sub p).isBranch = true ↔ p <+: ks ∧ p.length < ks.length := by
  induction ks generalizing q p with
  | nil => cases p <;> simp [Node.fresh]
  | cons k ks ih =>
    cases p with
    | nil => simp [Node.fresh]
    | cons j p =>
      rw [Node.fresh, Node.sub_cons, Node.child_setChild rfl, Node.child_bare]
      by_cases e : j = k
      · subst e
        rw [if_pos rfl, ih]
        simp
      · rw [if_neg e, Node.sub_empty]
        simp only [Node.isBranch_empty, Bool.false_eq_true, false_iff, not_and]
        intro hp
        have := List.prefix_iff_eq_take.1 hp
        simp at this
        exact absurd this.1 e

theorem LeafData.accumulate_spec {d : LeafData} (c : Colour) (h : d.count.toNat + 1 < 2 ^ 32)
    (hs : d.sumR.toNat ≤ 255 * d.count.toNat ∧ d.sumG.toNat ≤ 255 * d.count.toNat ∧ d.sumB.toNat ≤ 255 * d.count.toNat) :
    (d.accumulate c).sound ∧ (d.accumulate c).count.toNat = d.count.toNat + 1 ∧
      (d.accumulate c).sumR.toNat = d.sumR.toNat + (redOf c).toNat ∧
      (d.accumulate c).sumG.toNat = d.sumG.toNat + (greenOf c).toNat ∧
      (d.accumulate c).sumB.toNat = d.sumB.toNat + (blueOf c).toNat := by
  obtain ⟨h1, h2, h3⟩ := hs
  have hr := (redOf c).isLt
  have hg := (greenOf c).isLt
  have hb := (blueOf c).isLt
  have e0 : (d.accumulate c).count.toNat = d.count.toNat + 1 := by
    simp [LeafData.accumulate, BitVec.toNat_add]; omega
  have e1 : (d.accumulate c).sumR.toNat = d.sumR.toNat + (redOf c).toNat := by
    simp [LeafData.accumulate, BitVec.toNat_add]; omega
  have e2 : (d.accumulate c).sumG.toNat = d.sumG.toNat + (greenOf c).toNat := by
    simp [LeafData.accumulate, BitVec.toNat_add]; omega
  have e3 : (d.accumulate c).sumB.toNat = d.sumB.toNat + (blueOf c).toNat := by
    simp [LeafData.accumulate, BitVec.toNat_add]; omega
  refine ⟨⟨?_, ?_, ?_, ?_⟩, e0, e1, e2, e3⟩ <;> omega

/-- The descent of R620 on a shaped tree: how it changes the measures. -/
theorem Node.insert_spec (c : Colour) (q : Nat) (ks : Path) (n : Node) (level : Nat) (hn : n.shaped level)
    (h8 : level + ks.length = 8) (hroot : 1 ≤ level ∨ n.isBranch = true) (hpix : n.pixels + 1 < 2 ^ 32) :
    (n.insert c q ks).shaped level ∧ (n.insert c q ks).nodes = n.nodes + n.need ks ∧
      (n.insert c q ks).leaves = n.leaves + (if n.need ks = 0 then 0 else 1) ∧
      (n.insert c q ks).pixels = n.pixels + 1 ∧ 1 ≤ (n.insert c q ks).nodes := by
  induction ks generalizing n level with
  | nil =>
    cases n with
    | empty =>
      have hl : 1 ≤ level := by simpa using hroot
      obtain ⟨h1, h2, h3, h4⟩ := Node.fresh_spec c q [] level hl h8
      refine ⟨h1, ?_, ?_, ?_, ?_⟩ <;> simp_all [Node.insert, Node.need, Node.nodes, Node.leaves, Node.pixels]
    | leaf d =>
      obtain ⟨hl, hs1, hs2⟩ := hn
      obtain ⟨a1, a2, -⟩ := LeafData.accumulate_spec c (by simpa [Node.pixels] using hpix) hs2
      refine ⟨⟨hl, a1⟩, ?_, ?_, ?_, ?_⟩ <;> simp [Node.insert, Node.need, Node.nodes, Node.leaves, Node.pixels, a2]
    | branch q' c0 c1 c2 c3 c4 c5 c6 c7 =>
      exact absurd hn.1 (by simp at h8; omega)
  | cons k ks ih =>
    cases n with
    | empty =>
      have hl : 1 ≤ level := by simpa using hroot
      obtain ⟨h1, h2, h3, h4⟩ := Node.fresh_spec c q (k :: ks) level hl h8
      refine ⟨h1, ?_, ?_, ?_, ?_⟩ <;> simp_all [Node.insert, Node.need, Node.nodes, Node.leaves, Node.pixels]
    | leaf d =>
      obtain ⟨hl, hs1, hs2⟩ := hn
      obtain ⟨a1, a2, -⟩ := LeafData.accumulate_spec c (by simpa [Node.pixels] using hpix) hs2
      refine ⟨⟨hl, a1⟩, ?_, ?_, ?_, ?_⟩ <;> simp [Node.insert, Node.need, Node.nodes, Node.leaves, Node.pixels, a2]
    | branch q' c0 c1 c2 c3 c4 c5 c6 c7 =>
      generalize hN : Node.branch q' c0 c1 c2 c3 c4 c5 c6 c7 = n at *
      have hb : n.isBranch = true := by rw [← hN]; rfl
      simp only [List.length_cons] at h8
      have hle := Node.child_pixels_le n k
      obtain ⟨h1, h2, h3, h4, h5⟩ := ih (n.child k) (level + 1) (Node.child_shaped hn k) (by omega) (.inl (by omega)) (by omega)
      rw [Node.insert_cons c q hb, Node.need_cons hb]
      have e1 := Node.setChild_nodes hb k ((n.child k).insert c q ks)
      have e2 := Node.setChild_leaves hb k ((n.child k).insert c q ks)
      have e3 := Node.setChild_pixels hb k ((n.child k).insert c q ks)
      have hlt := Node.child_nodes_lt hb k
      exact ⟨Node.setChild_shaped hb hn k h1 h5, by omega, by omega, by omega, by omega⟩

/-- The branches of a tree after a descent (R603, R620): the old ones and the nodes created above level 8. -/
theorem Node.insert_isBranch (c : Colour) (q : Nat) (ks : Path) (n : Node) (p : Path) :
    ((n.insert c q ks).sub p).isBranch = true ↔
      (n.sub p).isBranch = true ∨ (p <+: ks ∧ p.length < ks.length ∧ ks.length + 1 - n.need ks ≤ p.length) := by
  induction ks generalizing n p with
  | nil =>
    cases n with
    | empty => cases p <;> simp [Node.insert, Node.fresh]
    | leaf d => cases p <;> simp [Node.insert]
    | branch => simp [Node.insert]
  | cons k ks ih =>
    cases n with
    | empty =>
      rw [Node.insert, Node.fresh_isBranch]
      simp [Node.need]
    | leaf d =>
      have : ¬ (p.length < (k :: ks).length ∧ (k :: ks).length + 1 - (Node.leaf d).need (k :: ks) ≤ p.length) := by
        simp [Node.need]; omega
      cases p with
      | nil => simp [Node.insert, Node.need]
      | cons j p => simp [Node.insert, Node.need]; omega
    | branch q' c0 c1 c2 c3 c4 c5 c6 c7 =>
      generalize hN : Node.branch q' c0 c1 c2 c3 c4 c5 c6 c7 = n at *
      have hb : n.isBranch = true := by rw [← hN]; rfl
      have hle := Node.need_le (n.child k) ks
      rw [Node.insert_cons c q hb, Node.need_cons hb]
      cases p with
      | nil => simp [hb]
      | cons j p =>
        rw [Node.sub_cons, Node.child_setChild hb, Node.sub_cons]
        by_cases e : j = k
        · subst e
          rw [if_pos rfl, ih, List.prefix_cons_inj]
          simp only [List.length_cons]
          constructor
          · rintro (h | ⟨h1, h2, h3⟩)
            · exact .inl h
            · exact .inr ⟨h1, by omega, by omega⟩
          · rintro (h | ⟨h1, h2, h3⟩)
            · exact .inl h
            · exact .inr ⟨h1, by omega, by omega⟩
        · rw [if_neg e]
          have : ¬ (j :: p) <+: (k :: ks) := fun hp => e (by
            have := List.prefix_iff_eq_take.1 hp
            simp at this
            exact this.1)
          simp [this]

/-- The nodes a descent creates were not there before. -/
theorem Node.created_not_branch (ks : Path) (n : Node) (p : Path) (hp : p <+: ks)
    (hc : ks.length + 1 - n.need ks ≤ p.length) : (n.sub p).isBranch = false := by
  induction ks generalizing n p with
  | nil =>
    have : p = [] := List.prefix_nil.1 hp
    subst this
    cases n with
    | empty => rfl
    | leaf d => rfl
    | branch => simp [Node.need] at hc
  | cons k ks ih =>
    cases n with
    | empty => simp
    | leaf d =>
      cases p with
      | nil => rfl
      | cons j p => simp
    | branch q' c0 c1 c2 c3 c4 c5 c6 c7 =>
      generalize hN : Node.branch q' c0 c1 c2 c3 c4 c5 c6 c7 = n at *
      have hb : n.isBranch = true := by rw [← hN]; rfl
      have hle := Node.need_le (n.child k) ks
      rw [Node.need_cons hb] at hc
      cases p with
      | nil => simp at hc; omega
      | cons j p =>
        have := List.prefix_iff_eq_take.1 hp
        simp at this
        obtain ⟨rfl, -⟩ := this
        rw [Node.sub_cons]
        exact ih _ p ((List.prefix_cons_inj _).1 hp) (by simp only [List.length_cons] at hc; omega)

/-! ### Leaves along a path -/

theorem Node.lookup_eq (n : Node) (ks : Path) : n.lookup ks = (n.leafAt ks).bind LeafData.palIdx := by
  induction ks generalizing n with
  | nil => cases n <;> rfl
  | cons k ks ih =>
    cases n with
    | empty => rfl
    | leaf d => rfl
    | branch => exact ih _

/-- What a descent leaves on its own path: the leaf that was there, or a fresh one, with the colour accumulated. -/
theorem Node.leafAt_insert_self (c : Colour) (q : Nat) (ks : Path) (n : Node) (level : Nat) (hn : n.shaped level)
    (h8 : level + ks.length = 8) :
    (n.leafAt ks = none → ∃ q', (n.insert c q ks).leafAt ks = some ((LeafData.fresh q').accumulate c) ∧ n.need ks ≠ 0) ∧
    (∀ d, n.leafAt ks = some d → (n.insert c q ks).leafAt ks = some (d.accumulate c) ∧ n.need ks = 0) := by
  have hfresh : ∀ (ks : Path) (q : Nat), ∃ q', (Node.fresh c q ks).leafAt ks = some ((LeafData.fresh q').accumulate c) := by
    intro ks
    induction ks with
    | nil => exact fun q => ⟨q, rfl⟩
    | cons k ks ih =>
      intro q
      obtain ⟨q', h⟩ := ih (q + 1)
      refine ⟨q', ?_⟩
      rw [Node.fresh, Node.leafAt_cons (by simp), Node.child_setChild rfl, if_pos rfl, h]
  induction ks generalizing n level with
  | nil =>
    cases n with
    | empty => exact ⟨fun _ => ⟨q, rfl, by simp [Node.need]⟩, by simp [Node.leafAt]⟩
    | leaf d => exact ⟨by simp [Node.leafAt], by simp [Node.leafAt, Node.insert, Node.need]⟩
    | branch => exact absurd hn.1 (by simp at h8; omega)
  | cons k ks ih =>
    cases n with
    | empty =>
      refine ⟨fun _ => ?_, by simp [Node.leafAt]⟩
      obtain ⟨q', h⟩ := hfresh (k :: ks) q
      exact ⟨q', h, by simp [Node.need]⟩
    | leaf d => exact ⟨by simp [Node.leafAt], by simp [Node.leafAt, Node.insert, Node.need]⟩
    | branch q' c0 c1 c2 c3 c4 c5 c6 c7 =>
      generalize hN : Node.branch q' c0 c1 c2 c3 c4 c5 c6 c7 = n at *
      have hb : n.isBranch = true := by rw [← hN]; rfl
      rw [Node.insert_cons c q hb, Node.need_cons hb, Node.leafAt_cons hb, Node.leafAt_cons (by simp [hb]),
        Node.child_setChild hb, if_pos rfl]
      exact ih (n.child k) (level + 1) (Node.child_shaped hn k) (by simp only [List.length_cons] at h8; omega)

/-- A descent keeps a leaf on every path that has one. -/
theorem Node.leafAt_insert_isSome (c : Colour) (q : Nat) (ks js : Path) (n : Node) (h : (n.leafAt js).isSome = true) :
    ((n.insert c q ks).leafAt js).isSome = true := by
  induction ks generalizing n js with
  | nil =>
    cases n with
    | empty => cases js <;> cases h
    | leaf d => cases js <;> rfl
    | branch => exact h
  | cons k ks ih =>
    cases n with
    | empty => cases js <;> cases h
    | leaf d => cases js <;> rfl
    | branch q' c0 c1 c2 c3 c4 c5 c6 c7 =>
      generalize hN : Node.branch q' c0 c1 c2 c3 c4 c5 c6 c7 = n at *
      have hb : n.isBranch = true := by rw [← hN]; rfl
      cases js with
      | nil =>
        rw [← hN] at h
        cases h
      | cons j js =>
        rw [Node.leafAt_cons hb] at h
        rw [Node.insert_cons c q hb, Node.leafAt_cons (by simp [hb]), Node.child_setChild hb]
        split
        · rename_i e
          exact ih js _ (by rw [← e]; exact h)
        · exact h

/-- The fold of R630 keeps a leaf on every path that has one. -/
theorem Node.leafAt_fold_isSome (p js : Path) (n : Node) (h : (n.leafAt js).isSome = true) :
    ((n.modify Node.fold p).leafAt js).isSome = true := by
  induction p generalizing n js with
  | nil =>
    rw [Node.modify_nil]
    cases n with
    | empty => exact h
    | leaf d => exact h
    | branch => cases js <;> rfl
  | cons k p ih =>
    rw [Node.modify_cons]
    cases n with
    | empty => exact h
    | leaf d => exact h
    | branch q' c0 c1 c2 c3 c4 c5 c6 c7 =>
      generalize hN : Node.branch q' c0 c1 c2 c3 c4 c5 c6 c7 = n at *
      have hb : n.isBranch = true := by rw [← hN]; rfl
      cases js with
      | nil =>
        rw [← hN] at h
        cases h
      | cons j js =>
        rw [Node.leafAt_cons hb] at h
        rw [Node.leafAt_cons (by simp [hb]), Node.child_setChild hb]
        split
        · rename_i e
          exact ih js _ (by rw [← e]; exact h)
        · exact h

/-- The handle of the first leaf leads to it, along the path. -/
theorem Node.leafPath_spec (ks : Path) (n : Node) (d : LeafData) (h : n.leafAt ks = some d) :
    n.leafPath ks <+: ks ∧ n.sub (n.leafPath ks) = .leaf d := by
  induction ks generalizing n with
  | nil =>
    cases n with
    | empty => cases h
    | leaf d' => exact ⟨List.nil_prefix, by simpa [Node.leafAt, Node.leafPath] using h⟩
    | branch => cases h
  | cons k ks ih =>
    cases n with
    | empty => cases h
    | leaf d' => exact ⟨List.nil_prefix, by simpa [Node.leafAt, Node.leafPath] using h⟩
    | branch q' c0 c1 c2 c3 c4 c5 c6 c7 =>
      generalize hN : Node.branch q' c0 c1 c2 c3 c4 c5 c6 c7 = n at *
      have hb : n.isBranch = true := by rw [← hN]; rfl
      rw [Node.leafAt_cons hb] at h
      rw [Node.leafPath_cons hb, Node.sub_cons]
      exact ⟨(List.prefix_cons_inj k).2 (ih _ h).1, (ih _ h).2⟩

/-- Where a handle on the path leads to a leaf, that is the first leaf of the path, and the descent is a change of
that leaf alone (R623). -/
theorem Node.insert_eq_bump (c : Colour) (q : Nat) (ks p : Path) (n : Node) (hp : p <+: ks)
    (h : (n.sub p).isLeaf = true) :
    n.insert c q ks = n.modify (Node.bump c) p ∧ n.need ks = 0 ∧ (n.insert c q ks).leafPath ks = p := by
  induction p generalizing n ks with
  | nil =>
    cases n with
    | empty => cases h
    | leaf d => cases ks <;> exact ⟨rfl, rfl, rfl⟩
    | branch => cases h
  | cons k p ih =>
    cases ks with
    | nil => simp at hp
    | cons j ks =>
      have := List.prefix_iff_eq_take.1 hp
      simp at this
      obtain ⟨rfl, -⟩ := this
      have hb : n.isBranch = true := Node.isBranch_of_sub_cons (k := k) (p := p) (by
        intro e
        rw [e] at h
        cases h)
      obtain ⟨h1, h2, h3⟩ := ih ks (n.child k) ((List.prefix_cons_inj k).1 hp) (by simpa using h)
      rw [Node.insert_cons c q hb, Node.need_cons hb, Node.modify_cons, h1]
      refine ⟨rfl, h2, ?_⟩
      rw [Node.leafPath_cons (by simp [hb]), Node.child_setChild hb, if_pos rfl, ← h1, h3]

/-- The descent keeps a property of leaves that accumulation keeps and fresh leaves have. -/
theorem Node.insert_allLeaves {P : LeafData → Prop} (c : Colour) (q : Nat) (ks : Path) (n : Node) (hn : n.allLeaves P)
    (hfresh : ∀ q, P ((LeafData.fresh q).accumulate c)) (hacc : ∀ d, P d → P (d.accumulate c)) :
    (n.insert c q ks).allLeaves P := by
  have hf : ∀ (ks : Path) (q : Nat), (Node.fresh c q ks).allLeaves P := by
    intro ks
    induction ks with
    | nil => exact hfresh
    | cons k ks ih =>
      intro q
      exact Node.setChild_allLeaves (by exact ⟨trivial, trivial, trivial, trivial, trivial, trivial, trivial, trivial⟩) k (ih (q + 1))
  induction ks generalizing n with
  | nil =>
    cases n with
    | empty => exact hf [] q
    | leaf d => exact hacc d hn
    | branch => exact hn
  | cons k ks ih =>
    cases n with
    | empty => exact hf (k :: ks) q
    | leaf d => exact hacc d hn
    | branch q' c0 c1 c2 c3 c4 c5 c6 c7 =>
      exact Node.setChild_allLeaves hn k (ih _ (Node.child_allLeaves hn k))

/-! ### The fold (R630) -/

/-- A node none of whose children is a branch. -/
def Node.flat (n : Node) : Prop := ∀ k, (n.child k).isBranch = false

theorem Node.shaped_flat_pixels {m : Node} {level : Nat} (h : m.shaped level) (hb : m.isBranch = false) :
    m.pixels = m.count.toNat ∧ m.nodes = m.leaves ∧ m.leaves ≤ 1 ∧ (m.nodes = 0 ↔ m.isEmpty = true) ∧
      m.leaves ≤ m.count.toNat ∧ m.sumR.toNat ≤ 255 * m.count.toNat ∧ m.sumG.toNat ≤ 255 * m.count.toNat ∧
      m.sumB.toNat ≤ 255 * m.count.toNat := by
  cases m with
  | empty => simp [Node.pixels, Node.count, Node.nodes, Node.leaves, Node.isEmpty, Node.sumR, Node.sumG, Node.sumB]
  | leaf d =>
    obtain ⟨-, h1, h2, h3, h4⟩ := h
    simp [Node.pixels, Node.count, Node.nodes, Node.leaves, Node.isEmpty, Node.sumR, Node.sumG, Node.sumB, h2, h3, h4]
    exact h1
  | branch => cases hb

end Sys2Proof.Machine
end

