-- ==== Sys2Proof/Laws/Fold.lean ====
section
/-! SUPPORT. The fold of R630: the measures of a node whose children are all leaves, and of the leaf it becomes. -/

namespace Sys2Proof.Machine

/-- The wrapping sum of the fold is exact when the exact sum fits. -/
theorem toNat_foldl_add {n : Nat} (l : List (BitVec n)) (a : BitVec n)
    (h : a.toNat + (l.map BitVec.toNat).sum < 2 ^ n) :
    (l.foldl (· + ·) a).toNat = a.toNat + (l.map BitVec.toNat).sum := by
  induction l generalizing a with
  | nil => simp
  | cons b l ih =>
    simp only [List.map_cons, List.sum_cons] at h
    have hab : (a + b).toNat = a.toNat + b.toNat := by
      rw [BitVec.toNat_add, Nat.mod_eq_of_lt (by omega)]
    rw [List.foldl_cons, ih (a + b) (by omega), hab, List.map_cons, List.sum_cons]
    omega

theorem Node.leaves_kids (n : Node) (h : n.isBranch = true) : n.leaves = (n.kids.map Node.leaves).sum := by
  obtain ⟨q, c0, c1, c2, c3, c4, c5, c6, c7, rfl⟩ := Node.exists_branch h
  simp [Node.leaves, Node.kids, Node.child]
  omega

theorem Node.nodes_kids (n : Node) (h : n.isBranch = true) : n.nodes = 1 + (n.kids.map Node.nodes).sum := by
  obtain ⟨q, c0, c1, c2, c3, c4, c5, c6, c7, rfl⟩ := Node.exists_branch h
  simp [Node.nodes, Node.kids, Node.child]
  omega

theorem Node.pixels_kids (n : Node) (h : n.isBranch = true) : n.pixels = (n.kids.map Node.pixels).sum := by
  obtain ⟨q, c0, c1, c2, c3, c4, c5, c6, c7, rfl⟩ := Node.exists_branch h
  simp [Node.pixels, Node.kids, Node.child]
  omega

theorem Node.mem_kids {n m : Node} : m ∈ n.kids ↔ ∃ k, m = n.child k := by
  simp only [Node.kids, List.mem_cons, List.not_mem_nil, or_false]
  constructor
  · rintro (h | h | h | h | h | h | h | h) <;> exact ⟨_, h⟩
  · rintro ⟨k, rfl⟩
    cases k <;> simp

/-- The totals of a list of leaves and empty slots. -/
theorem Node.flat_list {level : Nat} (l : List Node) (h : ∀ m ∈ l, m.shaped level ∧ m.isBranch = false) :
    (l.map Node.nodes).sum = (l.map Node.leaves).sum ∧ l.countP (fun m => !m.isEmpty) = (l.map Node.leaves).sum ∧
      (l.map (fun m => m.count.toNat)).sum = (l.map Node.pixels).sum ∧
      (l.map Node.leaves).sum ≤ (l.map Node.pixels).sum ∧
      (l.map (fun m => m.sumR.toNat)).sum ≤ 255 * (l.map Node.pixels).sum ∧
      (l.map (fun m => m.sumG.toNat)).sum ≤ 255 * (l.map Node.pixels).sum ∧
      (l.map (fun m => m.sumB.toNat)).sum ≤ 255 * (l.map Node.pixels).sum := by
  induction l with
  | nil => simp
  | cons m l ih =>
    obtain ⟨h1, h2⟩ := h m (by simp)
    obtain ⟨i1, i2, i3, i4, i5, i6, i7⟩ := ih fun m hm => h m (by simp [hm])
    obtain ⟨p1, p2, p3, p4, p5, p6, p7, p8⟩ := Node.shaped_flat_pixels h1 h2
    have hc : List.countP (fun m : Node => !m.isEmpty) (m :: l) = List.countP (fun m : Node => !m.isEmpty) l + m.leaves := by
      rw [List.countP_cons]
      by_cases e : m.isEmpty = true
      · have := p4.2 e
        simp [e]
        omega
      · have : m.nodes ≠ 0 := fun z => e (p4.1 z)
        simp [e]
        omega
    simp only [List.map_cons, List.sum_cons]
    refine ⟨by omega, by omega, by omega, by omega, by omega, by omega, by omega⟩

/-- The fold of a non-leaf node of level 1..7 whose children are all leaves (R631, R632). -/
theorem Node.fold_spec {n : Node} {level : Nat} (hb : n.isBranch = true) (hn : n.shaped level) (hl : 1 ≤ level)
    (hf : n.flat) (hpix : n.pixels < 2 ^ 32) :
    n.fold.shaped level ∧ n.fold.pixels = n.pixels ∧ n.fold.leaves = 1 ∧ n.fold.nodes = 1 ∧
      n.childCount = n.leaves ∧ n.nodes = 1 + n.childCount ∧ 1 ≤ n.childCount := by
  have hk : ∀ m ∈ n.kids, m.shaped (level + 1) ∧ m.isBranch = false := by
    intro m hm
    obtain ⟨k, rfl⟩ := Node.mem_kids.1 hm
    exact ⟨Node.child_shaped hn k, hf k⟩
  obtain ⟨i1, i2, i3, i4, i5, i6, i7⟩ := Node.flat_list n.kids hk
  have e1 := Node.leaves_kids n hb
  have e2 := Node.nodes_kids n hb
  have e3 := Node.pixels_kids n hb
  have h1 : 1 ≤ (n.kids.map Node.nodes).sum := by
    obtain ⟨q, c0, c1, c2, c3, c4, c5, c6, c7, rfl⟩ := Node.exists_branch hb
    have := hn.2.1 hl
    simp [Node.nodes] at e2
    omega
  have hcc : n.childCount = (n.kids.map Node.leaves).sum := i2
  have s0 := toNat_foldl_add (n.kids.map Node.count) 0#32 (by
    simp only [List.map_map, Function.comp_def, BitVec.toNat_ofNat]
    omega)
  have s1 := toNat_foldl_add (n.kids.map Node.sumR) 0#40 (by
    simp only [List.map_map, Function.comp_def, BitVec.toNat_ofNat]
    omega)
  have s2 := toNat_foldl_add (n.kids.map Node.sumG) 0#40 (by
    simp only [List.map_map, Function.comp_def, BitVec.toNat_ofNat]
    omega)
  have s3 := toNat_foldl_add (n.kids.map Node.sumB) 0#40 (by
    simp only [List.map_map, Function.comp_def, BitVec.toNat_ofNat]
    omega)
  simp only [List.map_map, Function.comp_def, BitVec.toNat_ofNat, Nat.zero_mod, Nat.zero_add] at s0 s1 s2 s3
  obtain ⟨q, c0, c1, c2, c3, c4, c5, c6, c7, rfl⟩ := Node.exists_branch hb
  refine ⟨⟨hl, ?_, ?_, ?_, ?_⟩, ?_, rfl, rfl, by omega, by omega, by omega⟩
  · show 1 ≤ BitVec.toNat (List.foldl _ 0#32 _)
    omega
  · show BitVec.toNat (List.foldl _ 0#40 _) ≤ 255 * BitVec.toNat (List.foldl _ 0#32 _)
    omega
  · show BitVec.toNat (List.foldl _ 0#40 _) ≤ 255 * BitVec.toNat (List.foldl _ 0#32 _)
    omega
  · show BitVec.toNat (List.foldl _ 0#40 _) ≤ 255 * BitVec.toNat (List.foldl _ 0#32 _)
    omega
  · show BitVec.toNat (List.foldl _ 0#32 _) = _
    omega

theorem Node.fold_leaf {n : Node} (hb : n.isBranch = true) : ∃ d, n.fold = .leaf d ∧ d.palIdx = none := by
  obtain ⟨q, c0, c1, c2, c3, c4, c5, c6, c7, rfl⟩ := Node.exists_branch hb
  exact ⟨_, rfl, rfl⟩

end Sys2Proof.Machine
end

