-- ==== Sys2Proof/Laws/Reducible.lean ====
section
/-! SUPPORT. The reducible lists (R603): what registration appends and what the search of R630 removes. -/

namespace Sys2Proof.Machine

theorem Reducible.get_out (r : Reducible) {level : Nat} (h : ¬ (1 ≤ level ∧ level ≤ 7)) : r.get level = [] := by
  unfold Reducible.get
  split <;> first | rfl | omega

theorem Reducible.get_push (r : Reducible) (l level : Nat) (p : Path) :
    (r.push l p).get level = if level = l ∧ 1 ≤ l ∧ l ≤ 7 then r.get level ++ [p] else r.get level := by
  by_cases hl : 1 ≤ l ∧ l ≤ 7
  · by_cases hv : 1 ≤ level ∧ level ≤ 7
    · obtain ⟨h1, h2⟩ := hl
      obtain ⟨h3, h4⟩ := hv
      interval_cases l <;> interval_cases level <;> simp [Reducible.push, Reducible.get]
    · rw [Reducible.get_out _ hv, Reducible.get_out _ hv, if_neg (by omega)]
  · have : r.push l p = r := by
      unfold Reducible.push
      split <;> first | rfl | omega
    rw [this, if_neg (by tauto)]

theorem Reducible.get_registerAt (ks : Path) (need : Nat) (r : Reducible) (l level : Nat) :
    (Reducible.registerAt ks need r l).get level =
      if (level = l ∧ 1 ≤ l ∧ l ≤ 7) ∧ 9 - need ≤ l then r.get level ++ [ks.take l] else r.get level := by
  unfold Reducible.registerAt
  split
  · rw [Reducible.get_push]
    simp [*]
  · rw [if_neg (by tauto)]

/-- Registration (R603): each list gains the node of its level on the path, if the descent created it. -/
theorem Reducible.get_register (r : Reducible) (ks : Path) (need level : Nat) :
    (r.register ks need).get level =
      if (1 ≤ level ∧ level ≤ 7) ∧ 9 - need ≤ level then r.get level ++ [ks.take level] else r.get level := by
  by_cases hv : 1 ≤ level ∧ level ≤ 7
  · simp only [Reducible.register, List.foldl_cons, List.foldl_nil, Reducible.get_registerAt]
    obtain ⟨h1, h2⟩ := hv
    interval_cases level <;> simp
  · rw [Reducible.get_out _ hv, Reducible.get_out _ hv, if_neg (by tauto)]

theorem Reducible.ext_get {r q : Reducible} (h : ∀ level, r.get level = q.get level) : r = q := by
  obtain ⟨a1, a2, a3, a4, a5, a6, a7⟩ := r
  obtain ⟨b1, b2, b3, b4, b5, b6, b7⟩ := q
  have h1 := h 1
  have h2 := h 2
  have h3 := h 3
  have h4 := h 4
  have h5 := h 5
  have h6 := h 6
  have h7 := h 7
  simp only [Reducible.get] at h1 h2 h3 h4 h5 h6 h7
  simp [*]

/-- A descent that creates nothing registers nothing. -/
theorem Reducible.register_zero (r : Reducible) (ks : Path) : r.register ks 0 = r :=
  Reducible.ext_get fun level => by rw [Reducible.get_register, if_neg (by omega)]

theorem Reducible.popAt_none {r : Reducible} {level : Nat} (h : r.popAt level = none) : r.get level = [] := by
  unfold Reducible.popAt at h
  split at h
  · rename_i h'
    simpa using h'
  · cases h

theorem Reducible.popAt_some {r r' : Reducible} {level : Nat} {p : Path} (h : r.popAt level = some (p, r')) :
    r.get level = r'.get level ++ [p] ∧ (∀ l, l ≠ level → r'.get l = r.get l) ∧ r'.size + 1 = r.size ∧
      1 ≤ level ∧ level ≤ 7 := by
  have hlist : ∀ (l : List Path) p, l.getLast? = some p → l = l.dropLast ++ [p] := by
    intro l p h
    have hne : l ≠ [] := by
      rintro rfl
      cases h
    rw [List.getLast?_eq_some_getLast hne] at h
    cases h
    exact (List.dropLast_append_getLast hne).symm
  have hlen : ∀ (l : List Path) p, l.getLast? = some p → l.dropLast.length + 1 = l.length := by
    intro l p h
    conv_rhs => rw [hlist l p h]
    simp
  by_cases hv : 1 ≤ level ∧ level ≤ 7
  · have get_ne : ∀ (r' : Reducible) (k : Nat), (∀ l, 1 ≤ l → l ≤ 7 → l ≠ k → r'.get l = r.get l) →
        ∀ l, l ≠ k → r'.get l = r.get l := by
      intro r' k h l hl
      by_cases hv : 1 ≤ l ∧ l ≤ 7
      · exact h l hv.1 hv.2 hl
      · rw [Reducible.get_out _ hv, Reducible.get_out _ hv]
    unfold Reducible.popAt at h
    split at h
    · cases h
    · rename_i q hq
      have e1 := hlist _ _ hq
      have e2 := hlen _ _ hq
      obtain ⟨h1, h2⟩ := hv
      interval_cases level <;>
        (simp only [Option.some.injEq, Prod.mk.injEq, Reducible.get] at h hq e1 e2
         obtain ⟨rfl, rfl⟩ := h
         refine ⟨e1, get_ne _ _ ?_, ?_, by omega, by omega⟩
         · intro l h3 h4 h5
           interval_cases l <;> first | rfl | exact absurd rfl h5
         · simp only [Reducible.size]
           omega)
  · unfold Reducible.popAt at h
    rw [Reducible.get_out _ hv] at h
    cases h

/-- The search of R630 from `top` down: the deepest level with a registered node, its newest node, and the lists
without it. -/
theorem Reducible.popFrom_some {r r' : Reducible} {top level : Nat} {p : Path}
    (h : r.popFrom top = some (level, p, r')) :
    1 ≤ level ∧ level ≤ top ∧ level ≤ 7 ∧ r.get level = r'.get level ++ [p] ∧
      (∀ l, l ≠ level → r'.get l = r.get l) ∧ (∀ l, level < l → l ≤ top → r.get l = []) ∧ r'.size + 1 = r.size := by
  induction top with
  | zero => cases h
  | succ n ih =>
    rw [Reducible.popFrom] at h
    split at h
    · rename_i q r'' hq
      cases h
      obtain ⟨h1, h2, h3, h4, h5⟩ := Reducible.popAt_some hq
      exact ⟨h4, Nat.le_refl _, h5, h1, h2, fun l hl hl' => by omega, h3⟩
    · rename_i hq
      obtain ⟨h1, h2, h3, h4, h5, h6, h7⟩ := ih h
      refine ⟨h1, by omega, h3, h4, h5, ?_, h7⟩
      intro l hl hl'
      by_cases e : l = n + 1
      · subst e
        exact Reducible.popAt_none hq
      · exact h6 l hl (by omega)

/-- The search finds nothing exactly when every list is empty (R633). -/
theorem Reducible.popFrom_none {r : Reducible} {top : Nat} (h : r.popFrom top = none) :
    ∀ l, 1 ≤ l → l ≤ top → r.get l = [] := by
  induction top with
  | zero =>
    intro l h1 h2
    omega
  | succ n ih =>
    rw [Reducible.popFrom] at h
    split at h
    · cases h
    · rename_i hq
      intro l h1 h2
      by_cases e : l = n + 1
      · subst e
        exact Reducible.popAt_none hq
      · exact ih h l h1 (by omega)

end Sys2Proof.Machine
end

