-- ==== Sys2Proof/Laws/Octree.lean ====
section
/-! SUPPORT. The invariants of R606 on the octree: the empty octree has them, and AddColor (R620) and Reduce (R630)
keep them. -/

namespace Sys2Proof.Machine

@[simp] theorem pathOf_length (c : Colour) : (pathOf c).length = 8 := rfl

theorem Octree.empty_sound {cap : Nat} (h : 1 ≤ cap) : Octree.empty.Sound cap where
  root := rfl
  shape := ⟨by omega, fun h => by omega, trivial, trivial, trivial, trivial, trivial, trivial, trivial, trivial⟩
  registered := by
    intro level p
    have : Octree.empty.red.get level = [] := by
      by_cases hv : 1 ≤ level ∧ level ≤ 7
      · obtain ⟨h1, h2⟩ := hv
        interval_cases level <;> rfl
      · exact Reducible.get_out _ hv
    rw [this]
    simp only [List.not_mem_nil, false_iff]
    rintro ⟨h1, h2, h3, h4⟩
    cases p with
    | nil => simp at h3; omega
    | cons k p =>
      have : (Octree.empty.root.child k) = .empty := by cases k <;> rfl
      simp [this] at h4
  once := by
    intro level
    have : Octree.empty.red.get level = [] := by
      by_cases hv : 1 ≤ level ∧ level ≤ 7
      · obtain ⟨h1, h2⟩ := hv
        interval_cases level <;> rfl
      · exact Reducible.get_out _ hv
    rw [this]
    exact List.nodup_nil
  leafCount := rfl
  total := rfl
  live := rfl
  unindexed := fun _ => ⟨trivial, trivial, trivial, trivial, trivial, trivial, trivial, trivial⟩
  indexed := by intro h; cases h
  totalBound := by show 0 ≤ maxTotal; omega
  liveBound := h
  addCache := by intro c p h; cases h
  idxCache := by intro c i h; cases h

/-! ### AddColor -/

theorem Octree.Sound.pixels_lt {cap : Nat} {t : Octree} (h : t.Sound cap) : t.root.pixels < 2 ^ 32 := by
  have h1 := h.totalBound
  have h2 := h.total
  have : maxTotal = 2 ^ 32 - 1 := rfl
  omega

/-- The shortcut of R621 does what the descent would do (R623). -/
theorem Octree.shortcut_eq_descend {cap : Nat} {t : Octree} (h : t.Sound cap) {c : Colour} {p : Path}
    (hc : t.cachedLeaf c = some p) : t.shortcut c p = t.descend c ∧ t.root.need (pathOf c) = 0 := by
  have hcache : t.addCache = some (c, p) := by
    unfold Octree.cachedLeaf at hc
    split at hc
    · cases hc
    · rename_i c' p' e
      split at hc
      · rename_i e'
        cases hc
        rw [e, e']
      · cases hc
  obtain ⟨h1, h2⟩ := h.addCache c p hcache
  obtain ⟨e1, e2, e3⟩ := Node.insert_eq_bump c t.nextSeq (pathOf c) p t.root h1 h2
  refine ⟨?_, e2⟩
  unfold Octree.shortcut Octree.descend
  simp only [e2, e3]
  rw [e1, Reducible.register_zero]
  rfl

/-- What AddColor answers on a sound octree: the descent, or CAPACITY_EXCEEDED (R620, R622, R623). -/
theorem Octree.addColour_eq {cap : Nat} {t : Octree} (h : t.Sound cap) (c : Colour) :
    t.addColour cap c =
      if maxTotal < t.total + 1 then .error .capacityExceeded
      else if cap < t.live + t.root.need (pathOf c) then .error .capacityExceeded
      else .ok (t.descend c) := by
  unfold Octree.addColour
  split
  · rfl
  · split
    · rename_i p hp
      obtain ⟨e1, e2⟩ := Octree.shortcut_eq_descend h hp
      rw [e1, e2, if_neg]
      have := h.liveBound
      omega
    · rfl

theorem Octree.descend_sound {cap : Nat} {t : Octree} (h : t.Sound cap) (hb : t.phase = .build) (c : Colour)
    (htot : t.total + 1 ≤ maxTotal) (hcap : t.live + t.root.need (pathOf c) ≤ cap) : (t.descend c).Sound cap := by
  have hmax : maxTotal = 2 ^ 32 - 1 := rfl
  have htotal := h.total
  have hpix : t.root.pixels + 1 < 2 ^ 32 := by omega
  obtain ⟨s1, s2, s3, s4, s5⟩ :=
    Node.insert_spec c t.nextSeq (pathOf c) t.root 0 h.shape rfl (.inr h.root) hpix
  have hbr := Node.insert_isBranch c t.nextSeq (pathOf c) t.root
  have hleaf : ∃ d, (t.root.insert c t.nextSeq (pathOf c)).leafAt (pathOf c) = some d := by
    obtain ⟨l1, l2⟩ := Node.leafAt_insert_self c t.nextSeq (pathOf c) t.root 0 h.shape rfl
    cases e : t.root.leafAt (pathOf c) with
    | none =>
      obtain ⟨q', hq, -⟩ := l1 e
      exact ⟨_, hq⟩
    | some d => exact ⟨_, (l2 d e).1⟩
  refine
    { root := ?_, shape := s1, registered := ?_, once := ?_, leafCount := ?_, total := ?_, live := ?_,
      unindexed := ?_, indexed := ?_, totalBound := htot, liveBound := hcap, addCache := ?_, idxCache := ?_ }
  · have := (hbr []).2 (.inl (by simpa using h.root))
    rwa [Node.sub_nil] at this
  · intro level p
    show p ∈ (t.red.register (pathOf c) (t.root.need (pathOf c))).get level ↔
      1 ≤ level ∧ level ≤ 7 ∧ p.length = level ∧ ((t.root.insert c t.nextSeq (pathOf c)).sub p).isBranch = true
    rw [Reducible.get_register, hbr]
    have hold := h.registered level p
    have htake : p.length = level → level ≤ 8 → (p <+: pathOf c ↔ p = (pathOf c).take level) := by
      rintro rfl -
      exact List.prefix_iff_eq_take
    by_cases hv : (1 ≤ level ∧ level ≤ 7) ∧ 9 - t.root.need (pathOf c) ≤ level
    · rw [if_pos hv, List.mem_append, List.mem_singleton, hold]
      constructor
      · rintro (⟨h1, h2, h3, h4⟩ | rfl)
        · exact ⟨h1, h2, h3, .inl h4⟩
        · refine ⟨hv.1.1, hv.1.2, by rw [List.length_take, pathOf_length]; omega, .inr ⟨List.take_prefix _ _, ?_, ?_⟩⟩
          · rw [List.length_take, pathOf_length]; omega
          · rw [List.length_take, pathOf_length]; omega
      · rintro ⟨h1, h2, h3, h4 | ⟨h4, -, -⟩⟩
        · exact .inl ⟨h1, h2, h3, h4⟩
        · exact .inr ((htake h3 (by omega)).1 h4)
    · rw [if_neg hv, hold]
      constructor
      · rintro ⟨h1, h2, h3, h4⟩
        exact ⟨h1, h2, h3, .inl h4⟩
      · rintro ⟨h1, h2, h3, h4 | ⟨h4, h5, h6⟩⟩
        · exact ⟨h1, h2, h3, h4⟩
        · rw [pathOf_length] at h6
          omega
  · intro level
    show ((t.red.register (pathOf c) (t.root.need (pathOf c))).get level).Nodup
    rw [Reducible.get_register]
    split
    · rename_i hv
      rw [List.nodup_append]
      refine ⟨h.once level, List.nodup_singleton _, ?_⟩
      intro a ha b hb e
      rw [List.mem_singleton] at hb
      subst hb
      subst e
      have h1 := ((h.registered level _).1 ha).2.2.2
      have h2 := Node.created_not_branch (pathOf c) t.root ((pathOf c).take level) (List.take_prefix _ _) (by
        rw [List.length_take, pathOf_length]; omega)
      rw [h1] at h2
      cases h2
    · exact h.once level
  · show (if t.root.need (pathOf c) = 0 then t.leafCount else t.leafCount + 1) = (t.root.insert c t.nextSeq (pathOf c)).leaves
    rw [s3, h.leafCount]
    split <;> rfl
  · show t.total + 1 = (t.root.insert c t.nextSeq (pathOf c)).pixels
    omega
  · show t.live + _ = (t.root.insert c t.nextSeq (pathOf c)).nodes
    rw [s2, h.live]
  · intro _
    exact Node.insert_allLeaves c t.nextSeq (pathOf c) t.root (h.unindexed hb) (fun _ => rfl) (fun _ hd => hd)
  · intro hf
    have : t.phase = .frozen := hf
    rw [hb] at this
    cases this
  · intro c' p hcp
    obtain ⟨d, hd⟩ := hleaf
    have : some (c, (t.root.insert c t.nextSeq (pathOf c)).leafPath (pathOf c)) = some (c', p) := hcp
    cases this
    obtain ⟨h1, h2⟩ := Node.leafPath_spec (pathOf c) _ d hd
    refine ⟨h1, ?_⟩
    show ((t.root.insert c t.nextSeq (pathOf c)).sub _).isLeaf = true
    rw [h2]
    rfl
  · intro c' i hci
    have := (h.idxCache c' i hci).1
    rw [hb] at this
    cases this

/-- Everything AddColor can do on a sound octree in phase BUILD (R620, R622). -/
theorem Octree.addColour_spec {cap : Nat} {t t' : Octree} (h : t.Sound cap) (hb : t.phase = .build) {c : Colour}
    (hc : t.addColour cap c = .ok t') :
    t'.Sound cap ∧ t'.phase = .build ∧ t' = t.descend c ∧ t.total + 1 ≤ maxTotal ∧
      t.live + t.root.need (pathOf c) ≤ cap := by
  rw [Octree.addColour_eq h] at hc
  split at hc
  · cases hc
  · split at hc
    · cases hc
    · cases hc
      exact ⟨Octree.descend_sound h hb c (by omega) (by omega), hb, rfl, by omega, by omega⟩

theorem Octree.need_le_eight {cap : Nat} {t : Octree} (h : t.Sound cap) (c : Colour) : t.root.need (pathOf c) ≤ 8 := by
  unfold pathOf
  rw [Node.need_cons h.root]
  exact Node.need_le _ _

/-- AddColor succeeds while there is room for eight more nodes and one more pixel. -/
theorem Octree.addColour_ok {cap : Nat} {t : Octree} (h : t.Sound cap) (c : Colour) (htot : t.total + 1 ≤ maxTotal)
    (hcap : t.live + 8 ≤ cap) : t.addColour cap c = .ok (t.descend c) := by
  have := Octree.need_le_eight h c
  rw [Octree.addColour_eq h, if_neg (by omega), if_neg (by omega)]

theorem Octree.descend_measures {cap : Nat} {t : Octree} (h : t.Sound cap) (c : Colour) :
    (t.descend c).total = t.total + 1 ∧ (t.descend c).live ≤ t.live + 8 ∧ t.leafCount ≤ (t.descend c).leafCount ∧
      (t.descend c).leafCount ≤ t.leafCount + 1 := by
  have := Octree.need_le_eight h c
  refine ⟨rfl, by show t.live + _ ≤ _; omega, ?_, ?_⟩
  · show t.leafCount ≤ if t.root.need (pathOf c) = 0 then t.leafCount else t.leafCount + 1
    split <;> omega
  · show (if t.root.need (pathOf c) = 0 then t.leafCount else t.leafCount + 1) ≤ t.leafCount + 1
    split <;> omega

/-- A leaf lies on the path of a colour once AddColor has taken it (R653). -/
theorem Octree.descend_leafAt {cap : Nat} {t : Octree} (h : t.Sound cap) (c : Colour) :
    ((t.descend c).root.leafAt (pathOf c)).isSome = true := by
  show ((t.root.insert c t.nextSeq (pathOf c)).leafAt (pathOf c)).isSome = true
  obtain ⟨l1, l2⟩ := Node.leafAt_insert_self c t.nextSeq (pathOf c) t.root 0 h.shape rfl
  cases e : t.root.leafAt (pathOf c) with
  | none =>
    obtain ⟨q', hq, -⟩ := l1 e
    rw [hq]
    rfl
  | some d =>
    rw [(l2 d e).1]
    rfl

/-- AddColor keeps the leaf on every path that has one (R653). -/
theorem Octree.descend_leafAt_mono (t : Octree) (c : Colour) (js : Path) (h : (t.root.leafAt js).isSome = true) :
    ((t.descend c).root.leafAt js).isSome = true :=
  Node.leafAt_insert_isSome c t.nextSeq (pathOf c) js t.root h

/-! ### Reduce -/

/-- The node Reduce picks has only leaves below it (R631). -/
theorem Octree.Sound.flat {cap : Nat} {t : Octree} (h : t.Sound cap) {level : Nat} {p : Path} {red : Reducible}
    (hp : t.red.popFrom 7 = some (level, p, red)) :
    1 ≤ level ∧ level ≤ 7 ∧ p.length = level ∧ (t.root.sub p).isBranch = true ∧ (t.root.sub p).shaped level ∧
      (t.root.sub p).flat := by
  obtain ⟨h1, -, h2, h3, h4, h5, -⟩ := Reducible.popFrom_some hp
  have hmem : p ∈ t.red.get level := by simp [h3]
  obtain ⟨-, -, hlen, hbr⟩ := (h.registered level p).1 hmem
  have hsh : (t.root.sub p).shaped level := by
    have := Node.sub_shaped h.shape p
    rwa [hlen, Nat.zero_add] at this
  refine ⟨h1, h2, hlen, hbr, hsh, ?_⟩
  intro k
  by_contra hk
  have hk' : ((t.root.sub p).child k).isBranch = true := by simpa using hk
  have hks := Node.child_shaped hsh k
  have hle : level + 1 ≤ 7 := by
    obtain ⟨q, c0, c1, c2, c3, c4, c5, c6, c7, e⟩ := Node.exists_branch hk'
    rw [e] at hks
    exact hks.1
  have hreg : p ++ [k] ∈ t.red.get (level + 1) := by
    refine (h.registered (level + 1) (p ++ [k])).2 ⟨by omega, hle, by simp [hlen], ?_⟩
    rw [Node.sub_append]
    simpa using hk'
  rw [h5 (level + 1) (by omega) hle] at hreg
  cases hreg

theorem Octree.foldNode_spec {cap : Nat} {t : Octree} (h : t.Sound cap) (hb : t.phase = .build) {level : Nat}
    {p : Path} {red : Reducible} (hp : t.red.popFrom 7 = some (level, p, red)) :
    (t.foldNode p red).Sound cap ∧ (t.foldNode p red).phase = .build ∧
      (t.foldNode p red).total = t.total ∧ 1 ≤ (t.root.sub p).childCount ∧
      (t.foldNode p red).leafCount + (t.root.sub p).childCount = t.leafCount + 1 ∧
      (t.foldNode p red).live + (t.root.sub p).childCount = t.live ∧ red.size + 1 = t.red.size := by
  obtain ⟨h1, h2, hlen, hbr, hsh, hflat⟩ := h.flat hp
  obtain ⟨-, -, -, h3, h4, h5, h6⟩ := Reducible.popFrom_some hp
  have hne : t.root.sub p ≠ .empty := by
    intro e
    rw [e] at hbr
    cases hbr
  have hpix : (t.root.sub p).pixels < 2 ^ 32 := Nat.lt_of_le_of_lt (Node.sub_pixels_le _ _) h.pixels_lt
  obtain ⟨f1, f2, f3, f4, f5, f6, f7⟩ := Node.fold_spec hbr hsh h1 hflat hpix
  have ml := Node.modify_leaves Node.fold hne
  have mn := Node.modify_nodes Node.fold hne
  have mp := Node.modify_pixels Node.fold hne
  obtain ⟨ms, mp1⟩ := Node.modify_shaped Node.fold hne h.shape (by rwa [hlen, Nat.zero_add]) (by omega)
  have e1 := h.leafCount
  have e2 := h.live
  have e3 := h.total
  have hk : (t.root.sub p).childCount ≤ t.leafCount + 1 := by omega
  have hsub := Node.sub_modify_isBranch Node.fold hne
  obtain ⟨dl, hd, hdn⟩ := Node.fold_leaf hbr
  refine ⟨?_, hb, rfl, f7, ?_, ?_, h6⟩
  · refine
      { root := ?_, shape := ms, registered := ?_, once := ?_, leafCount := ?_, total := ?_, live := ?_,
        unindexed := ?_, indexed := ?_, totalBound := h.totalBound, liveBound := ?_, addCache := ?_, idxCache := ?_ }
    · have := hsub []
      rw [Node.sub_nil, if_neg (by
        intro hpre
        have := List.prefix_nil.1 hpre
        rw [this] at hlen
        simp at hlen
        omega), Node.sub_nil, h.root] at this
      exact this
    · intro l q
      show q ∈ red.get l ↔ 1 ≤ l ∧ l ≤ 7 ∧ q.length = l ∧ ((t.root.modify Node.fold p).sub q).isBranch = true
      rw [hsub q]
      have hold := h.registered l q
      have hfold : p <+: q → ((Node.fold (t.root.sub p)).sub (q.drop p.length)).isBranch = false := by
        intro _
        rw [hd]
        cases q.drop p.length with
        | nil => rfl
        | cons j js => rw [Node.sub_leaf_cons]; rfl
      by_cases e : l = level
      · subst e
        have hnd := h.once l
        rw [h3, List.nodup_append] at hnd
        have hin : q ∈ red.get l ↔ q ∈ t.red.get l ∧ q ≠ p := by
          rw [h3, List.mem_append, List.mem_singleton]
          constructor
          · intro hq
            exact ⟨.inl hq, fun e => hnd.2.2 q hq p (by simp) e⟩
          · rintro ⟨hq | hq, hne⟩
            · exact hq
            · exact absurd hq hne
        rw [hin, hold]
        constructor
        · rintro ⟨⟨g1, g2, g3, g4⟩, g5⟩
          refine ⟨g1, g2, g3, ?_⟩
          rw [if_neg]
          · exact g4
          · intro hpre
            exact g5 (hpre.eq_of_length (by omega)).symm
        · rintro ⟨g1, g2, g3, g4⟩
          split at g4
          · rename_i hpre
            rw [hfold hpre] at g4
            cases g4
          · rename_i hpre
            exact ⟨⟨g1, g2, g3, g4⟩, fun e => hpre (by rw [e])⟩
      · rw [h4 l e, hold]
        constructor
        · rintro ⟨g1, g2, g3, g4⟩
          refine ⟨g1, g2, g3, ?_⟩
          rw [if_neg]
          · exact g4
          · intro hpre
            have := hpre.length_le
            have hgt : level < l := by omega
            have hmem := hold.2 ⟨g1, g2, g3, g4⟩
            rw [h5 l hgt g2] at hmem
            cases hmem
        · rintro ⟨g1, g2, g3, g4⟩
          split at g4
          · rename_i hpre
            rw [hfold hpre] at g4
            cases g4
          · exact ⟨g1, g2, g3, g4⟩
    · intro l
      show (red.get l).Nodup
      by_cases e : l = level
      · subst e
        have hnd := h.once l
        rw [h3, List.nodup_append] at hnd
        exact hnd.1
      · rw [h4 l e]
        exact h.once l
    · show t.leafCount + 1 - (t.root.sub p).childCount = (t.root.modify Node.fold p).leaves
      omega
    · show t.total = (t.root.modify Node.fold p).pixels
      omega
    · show t.live - (t.root.sub p).childCount = (t.root.modify Node.fold p).nodes
      omega
    · intro _
      refine Node.modify_allLeaves Node.fold p (h.unindexed hb) ?_
      intro m hm
      cases m with
      | empty => exact hm
      | leaf d => exact hm
      | branch => exact rfl
    · intro hf
      have : t.phase = .frozen := hf
      rw [hb] at this
      cases this
    · show t.live - (t.root.sub p).childCount ≤ cap
      have := h.liveBound
      omega
    · intro c q hc
      cases hc
    · intro c i hci
      have := (h.idxCache c i hci).1
      rw [hb] at this
      cases this
  · show t.leafCount + 1 - (t.root.sub p).childCount + (t.root.sub p).childCount = t.leafCount + 1
    omega
  · show t.live - (t.root.sub p).childCount + (t.root.sub p).childCount = t.live
    omega

/-- Everything Reduce can do on a sound octree in phase BUILD (R630 to R632). -/
theorem Octree.reduce_spec {cap : Nat} {t t' : Octree} (h : t.Sound cap) (hb : t.phase = .build) {level : Nat}
    (hr : t.reduce = .ok (level, t')) :
    t'.Sound cap ∧ t'.phase = .build ∧ t'.total = t.total ∧ t'.leafCount ≤ t.leafCount ∧ t'.live < t.live ∧
      t'.red.size + 1 = t.red.size ∧ 1 ≤ level ∧ level ≤ 7 := by
  unfold Octree.reduce at hr
  split at hr
  · cases hr
  · rename_i l p red hp
    cases hr
    obtain ⟨s1, s2, s3, s4, s5, s6, s7⟩ := Octree.foldNode_spec h hb hp
    obtain ⟨h1, h2, -⟩ := h.flat hp
    exact ⟨s1, s2, s3, by omega, by omega, s7, h1, h2⟩

theorem Octree.reduce_leafAt {t t' : Octree} {level : Nat} (hr : t.reduce = .ok (level, t')) (js : Path)
    (h : (t.root.leafAt js).isSome = true) : (t'.root.leafAt js).isSome = true := by
  unfold Octree.reduce at hr
  split at hr
  · cases hr
  · cases hr
    exact Node.leafAt_fold_isSome _ js t.root h

/-- Reduce fails only on an octree with at most eight leaves (R633). -/
theorem Octree.reduce_error {cap : Nat} {t : Octree} (h : t.Sound cap) {e : CmdError} (hr : t.reduce = .error e) :
    e = .quantizerExhausted ∧ t.leafCount ≤ 8 := by
  unfold Octree.reduce at hr
  split at hr
  · rename_i hp
    cases hr
    refine ⟨rfl, ?_⟩
    have hnone := Reducible.popFrom_none hp
    have hk : ∀ m ∈ t.root.kids, m.leaves ≤ 1 := by
      intro m hm
      obtain ⟨k, rfl⟩ := Node.mem_kids.1 hm
      refine (Node.shaped_flat_pixels (Node.child_shaped h.shape k) ?_).2.2.1
      by_contra hk
      have hk' : (t.root.child k).isBranch = true := by simpa using hk
      have : [k] ∈ t.red.get 1 := (h.registered 1 [k]).2 ⟨by omega, by omega, rfl, by simpa using hk'⟩
      rw [hnone 1 (by omega) (by omega)] at this
      cases this
    have := Node.leaves_kids t.root h.root
    rw [h.leafCount, this]
    have h0 := hk _ (Node.mem_kids.2 ⟨.k0, rfl⟩)
    have h1 := hk _ (Node.mem_kids.2 ⟨.k1, rfl⟩)
    have h2 := hk _ (Node.mem_kids.2 ⟨.k2, rfl⟩)
    have h3 := hk _ (Node.mem_kids.2 ⟨.k3, rfl⟩)
    have h4 := hk _ (Node.mem_kids.2 ⟨.k4, rfl⟩)
    have h5 := hk _ (Node.mem_kids.2 ⟨.k5, rfl⟩)
    have h6 := hk _ (Node.mem_kids.2 ⟨.k6, rfl⟩)
    have h7 := hk _ (Node.mem_kids.2 ⟨.k7, rfl⟩)
    simp [Node.kids]
    omega
  · cases hr

end Sys2Proof.Machine
end

