-- ==== Sys2Proof/Laws/Palette.lean ====
section
/-! SUPPORT. CreatePalette and GetPaletteIndex (R640 to R654): what the visit leaves in the tree and in the palette,
that the reduction loop ends, and that a lookup of an added colour succeeds. -/

namespace Sys2Proof.Machine

/-! ### The visit of R640 -/

/-- The palette the visit makes: the colours of the leaves in depth-first order (R640, R644). -/
theorem Node.visit_pal (n : Node) (pal : List Colour) : (n.visit pal).2 = pal ++ n.leafList.map LeafData.colour := by
  induction n generalizing pal with
  | empty => simp [Node.visit, Node.leafList]
  | leaf d => simp [Node.visit, Node.leafList]
  | branch q c0 c1 c2 c3 c4 c5 c6 c7 h0 h1 h2 h3 h4 h5 h6 h7 =>
    simp only [Node.visit, Node.leafList, h0, h1, h2, h3, h4, h5, h6, h7, List.map_append, List.append_assoc]

theorem Node.leafList_length (n : Node) : n.leafList.length = n.leaves := by
  induction n with
  | empty => rfl
  | leaf d => rfl
  | branch q c0 c1 c2 c3 c4 c5 c6 c7 h0 h1 h2 h3 h4 h5 h6 h7 =>
    simp only [Node.leafList, Node.leaves, List.length_append, h0, h1, h2, h3, h4, h5, h6, h7]

theorem Node.visit_measures (n : Node) (pal : List Colour) :
    (n.visit pal).1.leaves = n.leaves ∧ (n.visit pal).1.nodes = n.nodes ∧ (n.visit pal).1.pixels = n.pixels ∧
      (n.visit pal).1.isBranch = n.isBranch := by
  induction n generalizing pal with
  | empty => exact ⟨rfl, rfl, rfl, rfl⟩
  | leaf d => exact ⟨rfl, rfl, rfl, rfl⟩
  | branch q c0 c1 c2 c3 c4 c5 c6 c7 h0 h1 h2 h3 h4 h5 h6 h7 =>
    simp only [Node.visit, Node.leaves, Node.nodes, Node.pixels]
    refine ⟨?_, ?_, ?_, rfl⟩
    · rw [(h0 _).1, (h1 _).1, (h2 _).1, (h3 _).1, (h4 _).1, (h5 _).1, (h6 _).1, (h7 _).1]
    · rw [(h0 _).2.1, (h1 _).2.1, (h2 _).2.1, (h3 _).2.1, (h4 _).2.1, (h5 _).2.1, (h6 _).2.1, (h7 _).2.1]
    · rw [(h0 _).2.2.1, (h1 _).2.2.1, (h2 _).2.2.1, (h3 _).2.2.1, (h4 _).2.2.1, (h5 _).2.2.1, (h6 _).2.2.1,
        (h7 _).2.2.1]

theorem Node.visit_shaped (n : Node) (pal : List Colour) (level : Nat) (h : n.shaped level) :
    (n.visit pal).1.shaped level := by
  induction n generalizing pal level with
  | empty => trivial
  | leaf d => exact h
  | branch q c0 c1 c2 c3 c4 c5 c6 c7 h0 h1 h2 h3 h4 h5 h6 h7 =>
    obtain ⟨g1, g2, k0, k1, k2, k3, k4, k5, k6, k7⟩ := h
    refine ⟨g1, fun hl => ?_, h0 _ _ k0, h1 _ _ k1, h2 _ _ k2, h3 _ _ k3, h4 _ _ k4, h5 _ _ k5, h6 _ _ k6, h7 _ _ k7⟩
    rw [(c0.visit_measures _).2.1, (c1.visit_measures _).2.1, (c2.visit_measures _).2.1, (c3.visit_measures _).2.1,
      (c4.visit_measures _).2.1, (c5.visit_measures _).2.1, (c6.visit_measures _).2.1, (c7.visit_measures _).2.1]
    exact g2 hl

theorem Node.visit_indexed (n : Node) (pal : List Colour) : (n.visit pal).1.allLeaves (fun d => d.palIdx.isSome = true) := by
  induction n generalizing pal with
  | empty => trivial
  | leaf d => rfl
  | branch q c0 c1 c2 c3 c4 c5 c6 c7 h0 h1 h2 h3 h4 h5 h6 h7 =>
    exact ⟨h0 _, h1 _, h2 _, h3 _, h4 _, h5 _, h6 _, h7 _⟩

/-- The visited child of a visited node, with the palette as the visit reached it. -/
theorem Node.visit_child {n : Node} (h : n.isBranch = true) (pal : List Colour) (k : Key) :
    ∃ pre, ((n.visit pal).1.child k) = ((n.child k).visit pre).1 ∧ pal <+: pre ∧
      ((n.child k).visit pre).2 <+: (n.visit pal).2 := by
  obtain ⟨q, c0, c1, c2, c3, c4, c5, c6, c7, rfl⟩ := Node.exists_branch h
  cases k <;>
    exact ⟨_, rfl, by simp [Node.visit_pal], by simp [Node.visit, Node.visit_pal, Node.child]⟩

theorem Node.visit_isBranch (n : Node) (pal : List Colour) (p : Path) :
    ((n.visit pal).1.sub p).isBranch = (n.sub p).isBranch := by
  induction p generalizing n pal with
  | nil => simpa using (n.visit_measures pal).2.2.2
  | cons k p ih =>
    cases n with
    | empty => rfl
    | leaf d => simp [Node.visit]
    | branch q c0 c1 c2 c3 c4 c5 c6 c7 =>
      obtain ⟨pre, h1, -, -⟩ :=
        Node.visit_child (n := .branch q c0 c1 c2 c3 c4 c5 c6 c7) rfl pal k
      rw [Node.sub_cons, h1, ih, Node.sub_cons]

/-- The leaf on a path after the visit: the same leaf with its place in the palette, where its colour stands. -/
theorem Node.visit_leafAt (n : Node) (pal : List Colour) (ks : Path) (d : LeafData) (h : n.leafAt ks = some d) :
    ∃ i, pal.length ≤ i ∧ i < (n.visit pal).2.length ∧
      (n.visit pal).1.leafAt ks = some { d with palIdx := some (BitVec.ofNat 8 i) } ∧
      (n.visit pal).2[i]? = some d.colour := by
  induction ks generalizing n pal with
  | nil =>
    cases n with
    | empty => cases h
    | leaf d' =>
      cases h
      exact ⟨pal.length, Nat.le_refl _, by simp [Node.visit], rfl, by simp [Node.visit]⟩
    | branch => cases h
  | cons k ks ih =>
    cases n with
    | empty => cases h
    | leaf d' =>
      cases h
      exact ⟨pal.length, Nat.le_refl _, by simp [Node.visit], rfl, by simp [Node.visit]⟩
    | branch q c0 c1 c2 c3 c4 c5 c6 c7 =>
      generalize hN : Node.branch q c0 c1 c2 c3 c4 c5 c6 c7 = n at *
      have hb : n.isBranch = true := by rw [← hN]; rfl
      rw [Node.leafAt_cons hb] at h
      obtain ⟨pre, h1, h2, h3⟩ := Node.visit_child hb pal k
      obtain ⟨i, i1, i2, i3, i4⟩ := ih (n.child k) pre h
      have := h2.length_le
      have := h3.length_le
      refine ⟨i, by omega, by omega, ?_, ?_⟩
      · rw [Node.leafAt_cons (by rw [(n.visit_measures pal).2.2.2]; exact hb), h1, i3]
      · obtain ⟨more, hm⟩ := h3
        rw [← hm, List.getElem?_append_left i2, i4]

/-! ### The loop of R640 -/

/-- Everything the reduction loop can do when its fuel covers the registered nodes (R640 to R642). -/
theorem Octree.reduceTo_spec {cap m fuel : Nat} {t : Octree} (h : t.Sound cap) (hb : t.phase = .build)
    (hfuel : t.red.size ≤ fuel) :
    (∃ t', t.reduceTo m fuel = .ok t' ∧ t'.Sound cap ∧ t'.phase = .build ∧ t'.leafCount ≤ m ∧ t'.total = t.total ∧
      t'.leafCount ≤ t.leafCount ∧ t'.live ≤ t.live ∧
      ∀ js, (t.root.leafAt js).isSome = true → (t'.root.leafAt js).isSome = true) ∨
    (t.reduceTo m fuel = .error .quantizerExhausted ∧ m < 8) := by
  induction fuel generalizing t with
  | zero =>
    by_cases hle : m < t.leafCount
    · right
      have hr : t.reduce = .error .quantizerExhausted := by
        have hz : ∀ l, t.red.get l = [] := by
          intro l
          by_cases hv : 1 ≤ l ∧ l ≤ 7
          · obtain ⟨h1, h2⟩ := hv
            unfold Reducible.size at hfuel
            apply List.eq_nil_of_length_eq_zero
            interval_cases l <;> simp only [Reducible.get] <;> omega
          · exact Reducible.get_out _ hv
        unfold Octree.reduce
        have : t.red.popFrom 7 = none := by
          cases e : t.red.popFrom 7 with
          | none => rfl
          | some x =>
            obtain ⟨l, p, r⟩ := x
            have := (Reducible.popFrom_some e).2.2.2.1
            rw [hz l] at this
            simp at this
        rw [this]
      have := (Octree.reduce_error h hr).2
      refine ⟨?_, by omega⟩
      rw [Octree.reduceTo, if_pos hle]
    · left
      refine ⟨t, ?_, h, hb, by omega, rfl, Nat.le_refl _, Nat.le_refl _, fun _ h => h⟩
      rw [Octree.reduceTo, if_neg hle]
  | succ fuel ih =>
    rw [Octree.reduceTo]
    by_cases hle : m < t.leafCount
    · rw [if_pos hle]
      cases e : t.reduce with
      | error er =>
        obtain ⟨rfl, h8⟩ := Octree.reduce_error h e
        exact .inr ⟨rfl, by omega⟩
      | ok x =>
        obtain ⟨level, t'⟩ := x
        obtain ⟨s1, s2, s3, s4, s5, s6, -, -⟩ := Octree.reduce_spec h hb e
        rcases ih s1 s2 (by omega) with ⟨t'', g1, g2, g3, g4, g5, g6, g7, g8⟩ | g
        · exact .inl ⟨t'', g1, g2, g3, g4, by omega, by omega, by omega,
            fun js hj => g8 js (Octree.reduce_leafAt e js hj)⟩
        · exact .inr g
    · rw [if_neg hle]
      exact .inl ⟨t, rfl, h, hb, by omega, rfl, Nat.le_refl _, Nat.le_refl _, fun _ h => h⟩

/-- No reduction happens when the leaves already fit (R674). -/
theorem Octree.reduceTo_of_le {m fuel : Nat} {t : Octree} (h : t.leafCount ≤ m) : t.reduceTo m fuel = .ok t := by
  cases fuel <;> rw [Octree.reduceTo, if_neg (by omega)]

theorem Octree.extract_sound {cap : Nat} {t : Octree} (h : t.Sound cap) : t.extract.1.Sound cap where
  root := by
    show (t.root.visit []).1.isBranch = true
    rw [(t.root.visit_measures []).2.2.2]
    exact h.root
  shape := Node.visit_shaped _ _ _ h.shape
  registered := by
    intro level p
    rw [show t.extract.1.red = t.red from rfl, show t.extract.1.root = (t.root.visit []).1 from rfl, Node.visit_isBranch]
    exact h.registered level p
  once := h.once
  leafCount := by
    show t.leafCount = (t.root.visit []).1.leaves
    rw [(t.root.visit_measures []).1, h.leafCount]
  total := by
    show t.total = (t.root.visit []).1.pixels
    rw [(t.root.visit_measures []).2.2.1, h.total]
  live := by
    show t.live = (t.root.visit []).1.nodes
    rw [(t.root.visit_measures []).2.1, h.live]
  unindexed := by intro e; cases e
  indexed := fun _ => Node.visit_indexed _ _
  totalBound := h.totalBound
  liveBound := h.liveBound
  addCache := by
    intro c p hc
    obtain ⟨h1, h2⟩ := h.addCache c p hc
    refine ⟨h1, ?_⟩
    show ((t.root.visit []).1.sub p).isLeaf = true
    have e1 := Node.visit_isBranch t.root [] p
    have key : ∀ (p : Path) (n : Node) (pal : List Colour), (n.sub p).isLeaf = true →
        ((n.visit pal).1.sub p).isLeaf = true := by
      intro p
      induction p with
      | nil =>
        intro n pal h
        cases n with
        | empty => simp [Node.isLeaf] at h
        | leaf d => rfl
        | branch => simp [Node.isLeaf] at h
      | cons k p ih =>
        intro n pal h
        cases n with
        | empty => simp [Node.isLeaf] at h
        | leaf d => simp [Node.isLeaf] at h
        | branch q c0 c1 c2 c3 c4 c5 c6 c7 =>
          obtain ⟨pre, g1, -, -⟩ := Node.visit_child (n := .branch q c0 c1 c2 c3 c4 c5 c6 c7) rfl pal k
          rw [Node.sub_cons, g1]
          exact ih _ _ (by simpa using h)
    exact key p t.root [] h2
  idxCache := by intro c i hc; cases hc

/-- Everything CreatePalette can do on a sound octree in phase BUILD (R640 to R644). -/
theorem Octree.createPalette_spec {cap m : Nat} {t : Octree} (h : t.Sound cap) (hb : t.phase = .build) :
    (∃ t' pal, t.createPalette m = .ok (t', pal) ∧ t'.Sound cap ∧ t'.phase = .frozen ∧ pal.length = t'.leafCount ∧
      pal.length ≤ m ∧ t'.total = t.total ∧ t'.leafCount ≤ t.leafCount ∧
      (∀ js, (t.root.leafAt js).isSome = true → (t'.root.leafAt js).isSome = true) ∧
      (∀ js d, t'.root.leafAt js = some d → ∃ i, i < pal.length ∧ d.palIdx = some (BitVec.ofNat 8 i) ∧
        pal[i]? = some d.colour)) ∨
    (t.createPalette m = .error .quantizerExhausted ∧ m < 8) := by
  unfold Octree.createPalette
  rcases Octree.reduceTo_spec (m := m) h hb (Nat.le_refl _) with ⟨t', g1, g2, g3, g4, g5, g6, g7, g8⟩ | ⟨g1, g2⟩
  · left
    rw [g1]
    have hlen : (t'.extract).2.length = t'.leafCount := by
      show ((t'.root.visit []).2).length = _
      rw [Node.visit_pal, List.nil_append, List.length_map, Node.leafList_length, g2.leafCount]
    refine ⟨t'.extract.1, t'.extract.2, rfl, Octree.extract_sound g2, rfl, hlen, by omega, g5, g6, ?_, ?_⟩
    · intro js hj
      have := g8 js hj
      obtain ⟨d, hd⟩ := Option.isSome_iff_exists.1 this
      obtain ⟨i, -, -, e, -⟩ := Node.visit_leafAt t'.root [] js d hd
      show ((t'.root.visit []).1.leafAt js).isSome = true
      rw [e]
      rfl
    · intro js d hd
      have hd' : (t'.root.visit []).1.leafAt js = some d := hd
      have hback : ∃ d', t'.root.leafAt js = some d' := by
        cases e : t'.root.leafAt js with
        | some d' => exact ⟨d', rfl⟩
        | none =>
          exfalso
          have key : ∀ (js : Path) (n : Node) (pal : List Colour), n.leafAt js = none → (n.visit pal).1.leafAt js = none := by
            intro js
            induction js with
            | nil =>
              intro n pal h
              cases n with
              | empty => rfl
              | leaf d => cases h
              | branch => rfl
            | cons k js ih =>
              intro n pal h
              cases n with
              | empty => rfl
              | leaf d => cases h
              | branch q c0 c1 c2 c3 c4 c5 c6 c7 =>
                obtain ⟨pre, e1, -, -⟩ := Node.visit_child (n := .branch q c0 c1 c2 c3 c4 c5 c6 c7) rfl pal k
                rw [Node.leafAt_cons rfl, e1]
                exact ih _ _ h
          rw [key js t'.root [] e] at hd'
          cases hd'
      obtain ⟨d', hd''⟩ := hback
      obtain ⟨i, -, i2, e, i4⟩ := Node.visit_leafAt t'.root [] js d' hd''
      rw [e] at hd'
      cases hd'
      exact ⟨i, i2, rfl, i4⟩
  · right
    rw [g1]
    exact ⟨rfl, g2⟩

/-! ### Lookups -/

theorem Octree.cachedIndex_some {t : Octree} {c : Colour} {i : Byte} (h : t.cachedIndex c = some i) :
    t.idxCache = some (c, i) := by
  unfold Octree.cachedIndex at h
  split at h
  · cases h
  · rename_i c' i' e
    split at h
    · rename_i e'
      cases h
      rw [e, e']
    · cases h

/-- What a lookup answers on a sound octree is what the descent answers (R650, R652). -/
theorem Octree.getPaletteIndex_spec {cap : Nat} {t : Octree} (h : t.Sound cap) (c : Colour) :
    (∀ i, t.root.lookup (pathOf c) = some i → ∃ t', t.getPaletteIndex c = .ok (t', i) ∧
      (t' = t ∨ t' = { t with idxCache := some (c, i) })) ∧
    (t.root.lookup (pathOf c) = none → t.getPaletteIndex c = .error .paletteLookupFailure) := by
  unfold Octree.getPaletteIndex
  cases e : t.cachedIndex c with
  | none =>
    constructor
    · intro i hi
      exact ⟨_, by simp [hi], .inr rfl⟩
    · intro hi
      simp [hi]
  | some j =>
    have hj := (h.idxCache c j (Octree.cachedIndex_some e)).2
    constructor
    · intro i hi
      rw [hj] at hi
      cases hi
      exact ⟨t, rfl, .inl rfl⟩
    · intro hi
      rw [hj] at hi
      cases hi

theorem Octree.withIndex_sound {cap : Nat} {t : Octree} (h : t.Sound cap) (hf : t.phase = .frozen) {c : Colour} {i : Byte}
    (hi : t.root.lookup (pathOf c) = some i) : ({ t with idxCache := some (c, i) } : Octree).Sound cap :=
  { h with
    idxCache := by
      intro c' i' hc
      cases hc
      exact ⟨hf, hi⟩ }

/-- A lookup that succeeds keeps the invariants, and changes the lookup cache alone (R652, R654). -/
theorem Octree.getPaletteIndex_ok {cap : Nat} {t t' : Octree} {c : Colour} {i : Byte} (h : t.Sound cap)
    (hf : t.phase = .frozen) (hg : t.getPaletteIndex c = .ok (t', i)) :
    t'.Sound cap ∧ t'.phase = .frozen ∧ t'.root = t.root ∧ t.root.lookup (pathOf c) = some i := by
  obtain ⟨g1, g2⟩ := Octree.getPaletteIndex_spec h c
  cases e : t.root.lookup (pathOf c) with
  | none =>
    rw [g2 e] at hg
    cases hg
  | some j =>
    obtain ⟨t'', e1, e2⟩ := g1 j e
    rw [e1] at hg
    cases hg
    rcases e2 with rfl | rfl
    · exact ⟨h, hf, rfl, rfl⟩
    · exact ⟨Octree.withIndex_sound h hf e, hf, rfl, rfl⟩

end Sys2Proof.Machine
end

