-- ==== Sys2Proof/Laws/Memory.lean ====
section
/-! SUPPORT. The laws of sparse memories and of FMEM accesses: read after write, what a write leaves alone, and
that every operation keeps the canonical form. -/

namespace Sys2Proof.Machine

variable {α : Type}

/-! ### One write -/

@[simp] theorem Memory.get?_set_self (m : List (Nat × α)) (a : Nat) (v : α) :
    Memory.get? (Memory.set m a v) a = some v := by
  induction m with
  | nil => simp [Memory.set, Memory.get?]
  | cons c m ih =>
    obtain ⟨k, w⟩ := c
    simp only [Memory.set]
    split
    · simp [Memory.get?]
    · split
      · simp [Memory.get?]
      · rename_i h
        rw [Memory.get?, if_neg (fun e => h e.symm), ih]

theorem Memory.get?_set_ne (m : List (Nat × α)) {a b : Nat} (v : α) (h : b ≠ a) :
    Memory.get? (Memory.set m a v) b = Memory.get? m b := by
  induction m with
  | nil => simp [Memory.set, Memory.get?, Ne.symm h]
  | cons c m ih =>
    obtain ⟨k, w⟩ := c
    simp only [Memory.set]
    split
    · simp [Memory.get?, Ne.symm h]
    · split
      · rename_i e
        subst e
        simp [Memory.get?, Ne.symm h]
      · simp only [Memory.get?, ih]

theorem Memory.get?_set (m : List (Nat × α)) (a b : Nat) (v : α) :
    Memory.get? (Memory.set m a v) b = if b = a then some v else Memory.get? m b := by
  split
  · rename_i h
    simp [h]
  · exact Memory.get?_set_ne m v ‹_›

theorem Memory.mem_set {m : List (Nat × α)} {a : Nat} {v : α} {c : Nat × α} (h : c ∈ Memory.set m a v) :
    c = (a, v) ∨ c ∈ m := by
  induction m with
  | nil => simpa [Memory.set] using h
  | cons e m ih =>
    obtain ⟨k, w⟩ := e
    simp only [Memory.set] at h
    split at h
    · simpa using h
    · split at h
      · rcases List.mem_cons.1 h with h | h
        · exact .inl h
        · exact .inr (List.mem_cons_of_mem _ h)
      · rcases List.mem_cons.1 h with h | h
        · exact .inr (by simp [h])
        · rcases ih h with h | h
          · exact .inl h
          · exact .inr (List.mem_cons_of_mem _ h)

theorem Memory.set_sorted {m : List (Nat × α)} (a : Nat) (v : α) (h : (m.map Prod.fst).Pairwise (· < ·)) :
    ((Memory.set m a v).map Prod.fst).Pairwise (· < ·) := by
  induction m with
  | nil => simp [Memory.set]
  | cons e m ih =>
    obtain ⟨k, w⟩ := e
    simp only [List.map_cons, List.pairwise_cons] at h
    simp only [Memory.set]
    split
    · rename_i hak
      simp only [List.map_cons, List.pairwise_cons, List.mem_cons]
      refine ⟨?_, h⟩
      rintro b (rfl | hb)
      · exact hak
      · exact Nat.lt_trans hak (h.1 b hb)
    · split
      · rename_i e
        subst e
        simpa using h
      · simp only [List.map_cons, List.pairwise_cons]
        refine ⟨?_, ih h.2⟩
        intro b hb
        obtain ⟨c, hc, rfl⟩ := List.mem_map.1 hb
        rcases Memory.mem_set hc with rfl | hc
        · show k < a
          omega
        · exact h.1 _ (List.mem_map_of_mem hc)

/-- A write inside the memory keeps the canonical form. -/
theorem Memory.set_wf {size : Nat} {m : List (Nat × α)} {a : Nat} (v : α) (h : Memory.wf size m) (ha : a < size) :
    Memory.wf size (Memory.set m a v) := by
  refine ⟨Memory.set_sorted a v h.1, ?_⟩
  intro c hc
  rcases Memory.mem_set hc with rfl | hc
  · exact ha
  · exact h.2 c hc

theorem Memory.get?_none_of_lt {m : List (Nat × α)} {a : Nat} (h : ∀ c ∈ m, a < c.1) : Memory.get? m a = none := by
  induction m with
  | nil => rfl
  | cons c m ih =>
    obtain ⟨k, w⟩ := c
    have : a < k := h (k, w) (by simp)
    simp only [Memory.get?]
    rw [if_neg (by omega), ih fun c hc => h c (List.mem_cons_of_mem _ hc)]

/-- Canonical memories that read alike are equal. -/
theorem Memory.ext_of_sorted {m n : List (Nat × α)} (hm : (m.map Prod.fst).Pairwise (· < ·))
    (hn : (n.map Prod.fst).Pairwise (· < ·)) (h : ∀ a, Memory.get? m a = Memory.get? n a) : m = n := by
  induction m generalizing n with
  | nil =>
    cases n with
    | nil => rfl
    | cons c n => simpa [Memory.get?] using h c.1
  | cons c m ih =>
    obtain ⟨k, v⟩ := c
    cases n with
    | nil => simpa [Memory.get?] using h k
    | cons d n =>
      obtain ⟨l, w⟩ := d
      simp only [List.map_cons, List.pairwise_cons] at hm hn
      have hm' : ∀ c ∈ m, k < c.1 := fun c hc => hm.1 _ (List.mem_map_of_mem hc)
      have hn' : ∀ c ∈ n, l < c.1 := fun c hc => hn.1 _ (List.mem_map_of_mem hc)
      have hkl : k = l := by
        rcases Nat.lt_trichotomy k l with hlt | heq | hgt
        · have h2 : ∀ c ∈ n, k < c.1 := fun c hc => Nat.lt_trans hlt (hn' c hc)
          have := h k
          simp [Memory.get?, Nat.ne_of_gt hlt, Memory.get?_none_of_lt h2] at this
        · exact heq
        · have h2 : ∀ c ∈ m, l < c.1 := fun c hc => Nat.lt_trans hgt (hm' c hc)
          have := h l
          simp [Memory.get?, Nat.ne_of_gt hgt, Memory.get?_none_of_lt h2] at this
      subst hkl
      have hv : v = w := by simpa [Memory.get?] using h k
      subst hv
      rw [ih hm.2 hn.2]
      intro a
      rcases Nat.lt_or_ge k a with hlt | hge
      · simpa [Memory.get?, Nat.ne_of_lt hlt] using h a
      · rw [Memory.get?_none_of_lt fun c hc => Nat.lt_of_le_of_lt hge (hm' c hc),
          Memory.get?_none_of_lt fun c hc => Nat.lt_of_le_of_lt hge (hn' c hc)]

/-! ### Runs of writes -/

theorem Memory.get?_fill (m : List (Nat × α)) (a : Nat) (f : Nat → α) (n b : Nat) :
    Memory.get? (Memory.fill m a f n) b = if a ≤ b ∧ b < a + n then some (f (b - a)) else Memory.get? m b := by
  induction n with
  | zero => simp [Memory.fill]
  | succ n ih =>
    rw [Memory.fill, Memory.get?_set, ih]
    by_cases h : b = a + n
    · subst h
      simp
    · rw [if_neg h]
      exact if_congr (by omega) rfl rfl

theorem Memory.fill_wf {size : Nat} {m : List (Nat × α)} {a n : Nat} (f : Nat → α) (h : Memory.wf size m)
    (ha : a + n ≤ size) : Memory.wf size (Memory.fill m a f n) := by
  induction n with
  | zero => exact h
  | succ n ih => exact Memory.set_wf _ (ih (by omega)) (by omega)

theorem Memory.get?_setList (m : List (Nat × α)) (a : Nat) (l : List α) (b : Nat) :
    Memory.get? (Memory.setList m a l) b =
      if a ≤ b ∧ b < a + l.length then l[b - a]? else Memory.get? m b := by
  induction l generalizing m a with
  | nil => simp [Memory.setList]
  | cons v l ih =>
    rw [Memory.setList, ih, Memory.get?_set]
    by_cases h : b = a
    · subst h
      simp
    · by_cases hb : a ≤ b ∧ b < a + (v :: l).length
      · have hb' : a + 1 ≤ b ∧ b < a + 1 + l.length := by simp at hb; omega
        rw [if_pos hb', if_pos hb, show b - a = (b - (a + 1)) + 1 by omega, List.getElem?_cons_succ]
      · have hb' : ¬ (a + 1 ≤ b ∧ b < a + 1 + l.length) := by simp at hb ⊢; omega
        rw [if_neg hb', if_neg h, if_neg hb]

theorem Memory.setList_wf {size : Nat} {m : List (Nat × α)} {a : Nat} {l : List α} (h : Memory.wf size m)
    (ha : a + l.length ≤ size) : Memory.wf size (Memory.setList m a l) := by
  induction l generalizing m a with
  | nil => exact h
  | cons v l ih =>
    simp only [List.length_cons] at ha
    exact ih (Memory.set_wf v h (by omega)) (by omega)

/-! ### Bytes -/

@[simp] theorem read8_write8_self (d : Nat) (m : List Host.Cell) (a : Nat) (v : Byte) :
    read8 d (write8 m a v) a = v := by simp [read8, write8]

theorem read8_write8_ne (d : Nat) (m : List Host.Cell) {a b : Nat} (v : Byte) (h : b ≠ a) :
    read8 d (write8 m a v) b = read8 d m b := by simp [read8, write8, Memory.get?_set_ne m v h]

theorem read8_congr {d : Nat} {m n : List Host.Cell} {a : Nat} (h : Memory.get? m a = Memory.get? n a) :
    read8 d m a = read8 d n a := by simp [read8, h]

theorem get?_write8_ne (m : List Host.Cell) {a b : Nat} (v : Byte) (h : b ≠ a) :
    Memory.get? (write8 m a v) b = Memory.get? m b := Memory.get?_set_ne m v h

theorem write8_wf {size : Nat} {m : List Host.Cell} {a : Nat} (v : Byte) (h : Memory.wf size m) (ha : a < size) :
    Memory.wf size (write8 m a v) := Memory.set_wf v h ha

/-- A 2-byte write leaves every other byte alone. -/
theorem get?_write16_ne (m : List Host.Cell) {a b : Nat} (v : BitVec 16) (h : b < a ∨ a + 2 ≤ b) :
    Memory.get? (write16 m a v) b = Memory.get? m b := by
  rw [write16, get?_write8_ne _ _ (by omega), get?_write8_ne _ _ (by omega)]

/-- A 3-byte write leaves every other byte alone. -/
theorem get?_write24_ne (m : List Host.Cell) {a b : Nat} (v : BitVec 24) (h : b < a ∨ a + 3 ≤ b) :
    Memory.get? (write24 m a v) b = Memory.get? m b := by
  rw [write24, get?_write8_ne _ _ (by omega), get?_write8_ne _ _ (by omega), get?_write8_ne _ _ (by omega)]

/-- A 4-byte write leaves every other byte alone. -/
theorem get?_write32_ne (m : List Host.Cell) {a b : Nat} (v : BitVec 32) (h : b < a ∨ a + 4 ≤ b) :
    Memory.get? (write32 m a v) b = Memory.get? m b := by
  rw [write32, get?_write8_ne _ _ (by omega), get?_write8_ne _ _ (by omega), get?_write8_ne _ _ (by omega),
    get?_write8_ne _ _ (by omega)]

theorem write16_wf {size : Nat} {m : List Host.Cell} {a : Nat} (v : BitVec 16) (h : Memory.wf size m)
    (ha : a + 2 ≤ size) : Memory.wf size (write16 m a v) :=
  write8_wf _ (write8_wf _ h (by omega)) (by omega)

theorem write24_wf {size : Nat} {m : List Host.Cell} {a : Nat} (v : BitVec 24) (h : Memory.wf size m)
    (ha : a + 3 ≤ size) : Memory.wf size (write24 m a v) :=
  write8_wf _ (write8_wf _ (write8_wf _ h (by omega)) (by omega)) (by omega)

theorem write32_wf {size : Nat} {m : List Host.Cell} {a : Nat} (v : BitVec 32) (h : Memory.wf size m)
    (ha : a + 4 ≤ size) : Memory.wf size (write32 m a v) :=
  write8_wf _ (write8_wf _ (write8_wf _ (write8_wf _ h (by omega)) (by omega)) (by omega)) (by omega)

theorem append_extract16 (v : BitVec 16) : v.extractLsb' 8 8 ++ v.extractLsb' 0 8 = v := by
  ext i hi
  simp only [BitVec.getElem_append, BitVec.getElem_extractLsb']
  split
  · simp [BitVec.getLsbD_eq_getElem hi]
  · have : 8 + (i - 8) = i := by omega
    simp [this, BitVec.getLsbD_eq_getElem hi]

theorem append_extract24 (v : BitVec 24) :
    v.extractLsb' 16 8 ++ v.extractLsb' 8 8 ++ v.extractLsb' 0 8 = v := by
  ext i hi
  simp only [BitVec.getElem_append, BitVec.getElem_extractLsb']
  split
  · simp [BitVec.getLsbD_eq_getElem hi]
  · split
    · have : 8 + (i - 8) = i := by omega
      simp [this, BitVec.getLsbD_eq_getElem hi]
    · have : 16 + (i - 8 - 8) = i := by omega
      simp [this, BitVec.getLsbD_eq_getElem hi]

/-- A 2-byte read after a 2-byte write gives the value written. -/
@[simp] theorem read16_write16_self (d : Nat) (m : List Host.Cell) (a : Nat) (v : BitVec 16) :
    read16 d (write16 m a v) a = v := by
  rw [read16, write16, read8_write8_self, read8_write8_ne _ _ _ (by omega), read8_write8_self, append_extract16]

/-- A 3-byte read after a 3-byte write gives the value written. -/
@[simp] theorem read24_write24_self (d : Nat) (m : List Host.Cell) (a : Nat) (v : BitVec 24) :
    read24 d (write24 m a v) a = v := by
  rw [read24, write24, read8_write8_self, read8_write8_ne _ _ _ (by omega), read8_write8_self,
    read8_write8_ne _ _ _ (by omega), read8_write8_ne _ _ _ (by omega), read8_write8_self, append_extract24]

theorem read16_congr {d : Nat} {m n : List Host.Cell} {a : Nat}
    (h : ∀ b, a ≤ b → b < a + 2 → Memory.get? m b = Memory.get? n b) : read16 d m a = read16 d n a := by
  rw [read16, read16, read8_congr (h a (by omega) (by omega)), read8_congr (h (a + 1) (by omega) (by omega))]

theorem read24_congr {d : Nat} {m n : List Host.Cell} {a : Nat}
    (h : ∀ b, a ≤ b → b < a + 3 → Memory.get? m b = Memory.get? n b) : read24 d m a = read24 d n a := by
  rw [read24, read24, read8_congr (h a (by omega) (by omega)), read8_congr (h (a + 1) (by omega) (by omega)),
    read8_congr (h (a + 2) (by omega) (by omega))]

/-! ### Zeroing, copying, scrambling -/

theorem get?_zeroBytes (m : List Host.Cell) (a n b : Nat) :
    Memory.get? (zeroBytes m a n) b = if a ≤ b ∧ b < a + n then some 0 else Memory.get? m b :=
  Memory.get?_fill m a _ n b

theorem zeroBytes_wf {size : Nat} {m : List Host.Cell} {a n : Nat} (h : Memory.wf size m) (ha : a + n ≤ size) :
    Memory.wf size (zeroBytes m a n) := Memory.fill_wf _ h ha

theorem get?_scrambleBytes (d : Nat) (m : List Host.Cell) (a n b : Nat) :
    Memory.get? (scrambleBytes d m a n) b =
      if a ≤ b ∧ b < a + n then some (Config.freeByte d b) else Memory.get? m b := by
  rw [scrambleBytes, Memory.get?_fill]
  by_cases h : a ≤ b ∧ b < a + n
  · rw [if_pos h, if_pos h, show a + (b - a) = b by omega]
  · rw [if_neg h, if_neg h]

theorem scrambleBytes_wf {size : Nat} {d : Nat} {m : List Host.Cell} {a n : Nat} (h : Memory.wf size m)
    (ha : a + n ≤ size) : Memory.wf size (scrambleBytes d m a n) := Memory.fill_wf _ h ha

/-- A copy leaves every byte outside its destination alone. -/
theorem get?_copyBytes_out (d : Nat) (m : List Host.Cell) {src dst n b : Nat} (h : b < dst ∨ dst + n ≤ b) :
    Memory.get? (copyBytes d m src dst n) b = Memory.get? m b := by
  induction n with
  | zero => rfl
  | succ n ih => rw [copyBytes, get?_write8_ne _ _ (by omega), ih (by omega)]

/-- A copy between ranges with no byte in common copies every byte. -/
theorem get?_copyBytes_in (d : Nat) (m : List Host.Cell) {src dst n i : Nat} (h : dst + n ≤ src ∨ src + n ≤ dst)
    (hi : i < n) : Memory.get? (copyBytes d m src dst n) (dst + i) = some (read8 d m (src + i)) := by
  induction n with
  | zero => omega
  | succ n ih =>
    rw [copyBytes]
    by_cases e : i = n
    · subst e
      rw [write8, Memory.get?_set_self, read8_congr (get?_copyBytes_out d m (by omega))]
    · rw [get?_write8_ne _ _ (by omega), ih (by omega) (by omega)]

theorem copyBytes_wf {size : Nat} {d : Nat} {m : List Host.Cell} {src dst n : Nat} (h : Memory.wf size m)
    (ha : dst + n ≤ size) : Memory.wf size (copyBytes d m src dst n) := by
  induction n with
  | zero => exact h
  | succ n ih => exact write8_wf _ (ih (by omega)) (by omega)

/-! ### Pixels -/

/-- A pixel write leaves every byte but the pixel's alone. -/
theorem get?_writeRaw_out (d : Nat) (m : List Host.Cell) (f : PixFmt) (base st x y : Nat) (v : Raw) {b : Nat}
    (h : b < pixelAddr f base st x y ∨ pixelAddr f base st x y + pixelBytes f ≤ b) :
    Memory.get? (writeRaw d m f base st x y v) b = Memory.get? m b := by
  cases f <;> simp only [writeRaw, pixelBytes] at h ⊢
  · exact get?_write8_ne _ _ (by omega)
  · exact get?_write8_ne _ _ (by omega)
  · exact get?_write8_ne _ _ (by omega)
  · exact get?_write16_ne _ _ h
  · exact get?_write16_ne _ _ h
  · exact get?_write24_ne _ _ h

theorem writeRaw_wf {size d : Nat} {m : List Host.Cell} {f : PixFmt} {base st x y : Nat} (v : Raw)
    (h : Memory.wf size m) (ha : pixelAddr f base st x y + pixelBytes f ≤ size) :
    Memory.wf size (writeRaw d m f base st x y v) := by
  cases f <;> simp only [writeRaw, pixelBytes] at ha ⊢
  · exact write8_wf _ h (by omega)
  · exact write8_wf _ h (by omega)
  · exact write8_wf _ h (by omega)
  · exact write16_wf _ h ha
  · exact write16_wf _ h ha
  · exact write24_wf _ h ha

/-- A pixel read depends on the pixel's bytes alone. -/
theorem readRaw_congr {d : Nat} {m n : List Host.Cell} {f : PixFmt} {base st x y : Nat}
    (h : ∀ b, pixelAddr f base st x y ≤ b → b < pixelAddr f base st x y + pixelBytes f →
      Memory.get? m b = Memory.get? n b) :
    readRaw d m f base st x y = readRaw d n f base st x y := by
  cases f <;> simp only [readRaw, pixelBytes] at h ⊢
  · rw [read8_congr (h _ (Nat.le_refl _) (by omega))]
  · rw [read8_congr (h _ (Nat.le_refl _) (by omega))]
  · rw [read8_congr (h _ (Nat.le_refl _) (by omega))]
  · rw [read16_congr h]
  · rw [read16_congr h]
  · rw [read24_congr h]

end Sys2Proof.Machine
end

