-- ==== Sys2Proof/Laws/Frame.lean ====
section
/-! SUPPORT. The frame checks of R820, R821 and R901: each passes exactly on the legal frames of `Safety`. -/

namespace Sys2Proof.Machine

theorem PixFmt.ofCode_code (f : PixFmt) : PixFmt.ofCode f.code = some f := by cases f <;> rfl

theorem PixFmt.code_of_ofCode {n : Nat} {f : PixFmt} (h : PixFmt.ofCode n = some f) : n = f.code := by
  unfold PixFmt.ofCode at h
  split at h <;> first | (cases h; rfl) | cases h

/-- `validateSource` passes exactly on a legal source frame (R820). -/
theorem validateSource_ok_iff {s : State} {f : PixFmt} (hf : PixFmt.ofCode (srcFmtCode s) = some f) :
    validateSource s f = .ok () ↔ SourceLegal s f := by
  constructor
  · intro h
    unfold validateSource at h
    split at h
    · cases h
    split at h
    · cases h
    split at h
    · cases h
    split at h
    · cases h
    split at h
    · cases h
    split at h
    · cases h
    rename_i h1 h2 h3 h4 h5 h6
    simp only [palLenLegal] at h5
    refine ⟨hf, by omega, by omega, by simpa using h2, by simpa using h3, by omega, ?_, ?_, ?_, ?_⟩
    · intro e
      rw [if_pos e] at h5
      simp only [Bool.and_eq_false_iff, not_or] at h5
      obtain ⟨⟨h7, h8⟩, h9⟩ := h5
      simp at h7 h8
      exact ⟨by omega, h8⟩
    · rintro rfl
      simp [PixFmt.isIndexed] at h5
      exact h5.2.2
    · intro e
      simpa [e] using h5
    · intro e
      unfold maskLen at h6
      simp only [e, true_and, not_lt] at h6
      exact h6
  · intro h
    unfold validateSource
    rw [if_neg (by have := h.width; have := h.height; omega), if_neg (by simp [h.stride]), if_neg (by simp [h.length]),
      if_neg (by have := h.buffer; omega), if_neg, if_neg]
    · rintro ⟨h1, h2⟩
      have := h.mask h1
      unfold maskLen at h2
      omega
    · unfold palLenLegal
      cases e : f.isIndexed with
      | false => simp [h.noPalette e]
      | true =>
        obtain ⟨h1, h2⟩ := h.palette e
        by_cases e1 : f = .indexed1
        · simp [h.palette1 e1]
        · simp [h1, h2, e1]

theorem not_overlaps_iff {a n b m : Nat} :
    overlaps (a, a + n) (b, b + m) = false ↔ Apart a n b m := by
  simp only [overlaps, Apart, Bool.and_eq_false_iff, decide_eq_false_iff_not, not_lt]
  omega

/-- `validateDestination` passes exactly on a legal destination (R821). -/
theorem validateDestination_ok_iff {s : State} {t : PixFmt} :
    validateDestination s t = .ok () ↔ DestinationLegal s t := by
  constructor
  · intro h
    unfold validateDestination at h
    split at h
    · cases h
    split at h
    · cases h
    rename_i h1 h2
    simp only [Bool.or_eq_true, not_or, Bool.not_eq_true] at h2
    obtain ⟨h2, h3⟩ := h2
    have hb := not_overlaps_iff.1 h2
    cases hm : s.src.maskPresent with
    | false =>
      refine ⟨?_, hb, ?_, ?_, ?_, ?_, ?_⟩
      · unfold dstLen at h1
        omega
      all_goals (intro e; rw [hm] at e; cases e)
    | true =>
      rw [hm, if_neg (by simp)] at h
      split at h
      · cases h
      split at h
      · cases h
      rename_i h4 h5
      simp only [Bool.or_eq_true, not_or, Bool.not_eq_true] at h5
      obtain ⟨⟨h5, h6⟩, h7⟩ := h5
      unfold srcMaskRange at h3 h6
      unfold dstMaskRange at h5 h6 h7
      rw [hm, if_pos rfl] at h3 h5 h6 h7
      rw [if_pos rfl] at h6
      refine ⟨?_, hb, fun _ => not_overlaps_iff.1 h3, fun _ => ?_, fun _ => not_overlaps_iff.1 h5,
        fun _ => not_overlaps_iff.1 h6, fun _ => not_overlaps_iff.1 h7⟩
      · unfold dstLen at h1
        omega
      · unfold maskLen at h4
        omega
  · intro h
    unfold validateDestination
    rw [if_neg (by have := h.buffer; unfold dstLen; omega), if_neg]
    · cases hm : s.src.maskPresent with
      | false => simp
      | true =>
        rw [if_neg (by simp), if_neg (by have := h.mask hm; unfold maskLen; omega), if_neg]
        simp only [Bool.or_eq_true, not_or, Bool.not_eq_true]
        unfold srcMaskRange dstMaskRange
        simp only [hm, if_pos]
        exact ⟨⟨not_overlaps_iff.2 (h.maskOffSource hm), not_overlaps_iff.2 (h.maskOffMask hm)⟩,
          not_overlaps_iff.2 (h.maskOffBuffer hm)⟩
    · simp only [Bool.or_eq_true, not_or, Bool.not_eq_true]
      refine ⟨not_overlaps_iff.2 h.offSource, ?_⟩
      unfold srcMaskRange
      cases hm : s.src.maskPresent with
      | false => simp [overlaps]
      | true =>
        simp only [if_pos]
        exact not_overlaps_iff.2 (h.offMask hm)

/-- `validatePixelAccess` passes exactly on a pixel of a legal source frame (R901). -/
theorem validatePixelAccess_ok_iff {s : State} {f : PixFmt} :
    validatePixelAccess s = .ok f ↔ SourceLegal s f ∧ xOperand s < srcW s ∧ yOperand s < srcH s := by
  unfold validatePixelAccess formatOperand
  cases e : PixFmt.ofCode (srcFmtCode s) with
  | none =>
    simp only [reduceCtorEq, false_iff]
    rintro ⟨h, -⟩
    have := h.fmt
    rw [e] at this
    cases this
  | some g =>
    simp only []
    cases ev : validateSource s g with
    | error er =>
      simp only [reduceCtorEq, false_iff]
      rintro ⟨h, -⟩
      have hfg := h.fmt
      rw [e] at hfg
      cases hfg
      rw [(validateSource_ok_iff h.fmt).2 h] at ev
      cases ev
    | ok u =>
      have hs := (validateSource_ok_iff e).1 ev
      simp only []
      split
      · simp only [reduceCtorEq, false_iff]
        rintro ⟨-, h1, h2⟩
        omega
      · simp only [Except.ok.injEq]
        constructor
        · rintro rfl
          exact ⟨hs, by omega, by omega⟩
        · rintro ⟨h, -⟩
          have hfg := h.fmt
          rw [e] at hfg
          cases hfg
          rfl

/-- The checks of REFORMAT pass exactly on a pair of the table with legal frames (R810, R811, R820, R821). -/
theorem reformatChecks_ok_iff {s : State} {n : Nat} {f g : PixFmt} {r : Route} :
    reformatChecks s n = .ok (f, g, r) ↔
      PixFmt.ofCode n = some g ∧ r = routeTable f g ∧ r ≠ .unsupported ∧ SourceLegal s f ∧ DestinationLegal s g := by
  unfold reformatChecks selectRoute
  cases ef : PixFmt.ofCode (srcFmtCode s) with
  | none =>
    cases PixFmt.ofCode n <;>
      · simp only [reduceCtorEq, false_iff]
        rintro ⟨-, -, -, h, -⟩
        have := h.fmt
        rw [ef] at this
        cases this
  | some f' =>
    cases eg : PixFmt.ofCode n with
    | none => simp
    | some g' =>
      have hroute : route (srcFmtCode s) n = routeTable f' g' := by simp [route, ef, eg]
      simp only [hroute]
      by_cases hr : routeTable f' g' = .unsupported
      · simp only [hr, if_true, reduceCtorEq, Option.some.injEq, false_iff]
        rintro ⟨rfl, rfl, h1, h2, -⟩
        have hfg := h2.fmt
        rw [ef] at hfg
        cases hfg
        exact h1 hr
      · simp only [hr, if_false]
        cases ev : validateSource s f' with
        | error er =>
          simp only [reduceCtorEq, false_iff]
          rintro ⟨-, -, -, h2, -⟩
          have hfg := h2.fmt
          rw [ef] at hfg
          cases hfg
          rw [(validateSource_ok_iff ef).2 h2] at ev
          cases ev
        | ok u =>
          have hs := (validateSource_ok_iff ef).1 ev
          simp only []
          cases ed : validateDestination s g' with
          | error er =>
            simp only [reduceCtorEq, Option.some.injEq, false_iff]
            rintro ⟨rfl, -, -, -, h3⟩
            rw [validateDestination_ok_iff.2 h3] at ed
            cases ed
          | ok u =>
            have hd := validateDestination_ok_iff.1 ed
            simp only [Except.ok.injEq, Prod.mk.injEq, Option.some.injEq]
            constructor
            · rintro ⟨rfl, rfl, rfl⟩
              exact ⟨rfl, rfl, hr, hs, hd⟩
            · rintro ⟨rfl, rfl, -, h2, -⟩
              have hfg := h2.fmt
              rw [ef] at hfg
              cases hfg
              exact ⟨rfl, rfl, rfl⟩

end Sys2Proof.Machine
end

