-- ==== Sys2Proof/Laws/Pixels.lean ====
section
/-! SUPPORT. Pixels of a frame: where their bytes lie, and that a pixel write gives the value back and leaves the
other pixels alone. -/

namespace Sys2Proof.Machine

/-! ### Fields of a byte -/

theorem getLsbD_nibbles (a b : BitVec 4) (i : Nat) :
    BitVec.getLsbD (w := 8) (a ++ b) i = if i < 4 then b.getLsbD i else a.getLsbD (i - 4) :=
  BitVec.getLsbD_append

theorem nibbleOf_withNibble_self (b : Byte) (x : Nat) (v : BitVec 4) : nibbleOf (withNibble b x v) x = v := by
  unfold nibbleOf withNibble
  split <;> ext i hi <;> simp [getLsbD_nibbles, hi]

theorem nibbleOf_withNibble_ne (b : Byte) {x z : Nat} (v : BitVec 4) (h : z % 2 ≠ x % 2) :
    nibbleOf (withNibble b x v) z = nibbleOf b z := by
  unfold nibbleOf withNibble
  split <;> split
  · omega
  · ext i hi
    simp [getLsbD_nibbles, hi]
  · ext i hi
    simp [getLsbD_nibbles, hi]
  · omega

theorem getLsbD_withBit (b : Byte) (x : Nat) (v : BitVec 1) {i : Nat} (hi : i < 8) :
    (withBit b x v).getLsbD i = if i = 7 - x % 8 then v.getLsbD 0 else b.getLsbD i := by
  have h8 : x % 8 < 8 := Nat.mod_lt _ (by omega)
  unfold withBit
  generalize 7 - x % 8 = k at *
  split
  · rename_i e
    subst e
    simp [hi]
  · rename_i e
    rcases Nat.lt_or_gt_of_ne e with h | h
    · simp [hi, h]
    · have : v.getLsbD (i - k) = false := BitVec.getLsbD_of_ge _ _ (by omega)
      simp [hi, Nat.not_lt.2 (Nat.le_of_lt h), this, show i - k ≠ 0 by omega]

theorem bitOf_withBit_self (b : Byte) (x : Nat) (v : BitVec 1) : bitOf (withBit b x v) x = v := by
  ext i hi
  have : i = 0 := by omega
  subst this
  simp [bitOf, getLsbD_withBit b x v (i := 7 - x % 8) (by omega)]

theorem bitOf_withBit_ne (b : Byte) {x z : Nat} (v : BitVec 1) (h : z % 8 ≠ x % 8) :
    bitOf (withBit b x v) z = bitOf b z := by
  ext i hi
  have : i = 0 := by omega
  subst this
  have hz : z % 8 < 8 := Nat.mod_lt _ (by omega)
  have hx : x % 8 < 8 := Nat.mod_lt _ (by omega)
  simp [bitOf, getLsbD_withBit b x v (i := 7 - z % 8) (by omega), show 7 - z % 8 ≠ 7 - x % 8 by omega]

/-! ### A pixel write read back -/

/-- The value a pixel of a format holds after `v` is stored: the low bits the format has (R535). -/
def Raw.trim (f : PixFmt) (v : Raw) : Raw :=
  match f with
  | .indexed1 => (v.extractLsb' 0 1).setWidth 24
  | .indexed4 => (v.extractLsb' 0 4).setWidth 24
  | .indexed8 => (v.extractLsb' 0 8).setWidth 24
  | .rgb555 => (v.extractLsb' 0 16).setWidth 24
  | .rgb565 => (v.extractLsb' 0 16).setWidth 24
  | .rgb24 => v

theorem readRaw_writeRaw_self (d : Nat) (m : List Host.Cell) (f : PixFmt) (base st x y : Nat) (v : Raw) :
    readRaw d (writeRaw d m f base st x y v) f base st x y = Raw.trim f v := by
  cases f <;> simp [readRaw, writeRaw, Raw.trim, bitOf_withBit_self, nibbleOf_withNibble_self]

/-- A value below 2^bpp is stored whole. -/
theorem Raw.trim_of_lt {f : PixFmt} {v : Raw} (h : v.toNat < 2 ^ f.bpp) : Raw.trim f v = v := by
  cases f <;> simp only [Raw.trim, PixFmt.bpp] at h ⊢
  all_goals
    apply BitVec.eq_of_toNat_eq
    simp only [BitVec.toNat_setWidth, BitVec.extractLsb'_toNat, Nat.shiftRight_zero]
    omega

/-! ### Where pixels lie -/

theorem pixelOffset_lt_stride {f : PixFmt} {x w : Nat} (h : x < w) : pixelOffset f x + pixelBytes f ≤ stride f w := by
  cases f <;> simp only [pixelOffset, pixelBytes, stride, PixFmt.bpp] <;> omega

/-- The bytes of a pixel lie in its row, and so in the frame's buffer. -/
theorem pixelAddr_le {f : PixFmt} {base x y w h : Nat} (hx : x < w) (hy : y < h) :
    pixelAddr f base (stride f w) x y + pixelBytes f ≤ base + h * stride f w := by
  have h1 := pixelOffset_lt_stride (f := f) hx
  have h2 : (y + 1) * stride f w ≤ h * stride f w := Nat.mul_le_mul_right _ hy
  rw [Nat.add_mul] at h2
  unfold pixelAddr
  omega

theorem base_le_pixelAddr (f : PixFmt) (base st x y : Nat) : base ≤ pixelAddr f base st x y := by
  unfold pixelAddr
  omega

/-- Pixels of different rows have no byte in common. -/
theorem pixelAddr_rows {f : PixFmt} {base st x y z u : Nat} (hx : pixelOffset f x + pixelBytes f ≤ st) (hy : y < u) :
    pixelAddr f base st x y + pixelBytes f ≤ pixelAddr f base st z u := by
  have h2 : (y + 1) * st ≤ u * st := Nat.mul_le_mul_right _ hy
  rw [Nat.add_mul] at h2
  unfold pixelAddr
  omega

/-- A pixel write leaves every other pixel position of the frame alone, padding positions included (R535). -/
theorem readRaw_writeRaw_other (d : Nat) (m : List Host.Cell) (f : PixFmt) (base : Nat) {st x y z u : Nat} (v : Raw)
    (hx : pixelOffset f x + pixelBytes f ≤ st) (hz : pixelOffset f z + pixelBytes f ≤ st) (h : (z, u) ≠ (x, y)) :
    readRaw d (writeRaw d m f base st x y v) f base st z u = readRaw d m f base st z u := by
  by_cases hu : u = y
  · subst hu
    have hzx : z ≠ x := fun e => h (by rw [e])
    cases f
    · by_cases e : z / 8 = x / 8
      · have hmod : z % 8 ≠ x % 8 := by omega
        have ha : pixelAddr .indexed1 base st z u = pixelAddr .indexed1 base st x u := by
          simp [pixelAddr, pixelOffset, e]
        simp [readRaw, writeRaw, ha, bitOf_withBit_ne _ _ hmod]
      · apply readRaw_congr
        intro b h1 h2
        apply get?_writeRaw_out
        simp only [pixelAddr, pixelOffset, pixelBytes] at h1 h2 ⊢
        omega
    · by_cases e : z / 2 = x / 2
      · have hmod : z % 2 ≠ x % 2 := by omega
        have ha : pixelAddr .indexed4 base st z u = pixelAddr .indexed4 base st x u := by
          simp [pixelAddr, pixelOffset, e]
        simp [readRaw, writeRaw, ha, nibbleOf_withNibble_ne _ _ hmod]
      · apply readRaw_congr
        intro b h1 h2
        apply get?_writeRaw_out
        simp only [pixelAddr, pixelOffset, pixelBytes] at h1 h2 ⊢
        omega
    all_goals
      apply readRaw_congr
      intro b h1 h2
      apply get?_writeRaw_out
      simp only [pixelAddr, pixelOffset, pixelBytes] at h1 h2 ⊢
      omega
  · apply readRaw_congr
    intro b h1 h2
    apply get?_writeRaw_out
    rcases Nat.lt_or_gt_of_ne hu with hlt | hgt
    · have := pixelAddr_rows (base := base) (z := x) hz hlt
      omega
    · have := pixelAddr_rows (base := base) (z := z) hx hgt
      omega

/-- A pixel write leaves every other pixel of the frame alone (R535). -/
theorem readRaw_writeRaw_ne (d : Nat) (m : List Host.Cell) (f : PixFmt) (base : Nat) {w x y z u : Nat} (v : Raw)
    (hx : x < w) (hz : z < w) (h : (z, u) ≠ (x, y)) :
    readRaw d (writeRaw d m f base (stride f w) x y v) f base (stride f w) z u =
      readRaw d m f base (stride f w) z u :=
  readRaw_writeRaw_other d m f base v (pixelOffset_lt_stride hx) (pixelOffset_lt_stride hz) h

end Sys2Proof.Machine
end

