-- ==== Sys2Proof/Laws/Raster.lean ====
section
/-! SUPPORT. The row-major loops of the converter (R16) and what a loop that writes every destination pixel leaves in
FMEM: the pixels, the padding, and every other byte (R535, R536, R883). -/

namespace Sys2Proof.Machine

/-! ### Loops -/

theorem mem_rowMajor {w h x y : Nat} : (x, y) ∈ rowMajor w h ↔ x < w ∧ y < h := by
  simp only [rowMajor, List.mem_flatMap, List.mem_range, List.mem_map, Prod.mk.injEq]
  constructor
  · rintro ⟨v, hv, u, hu, rfl, rfl⟩
    exact ⟨hu, hv⟩
  · rintro ⟨hx, hy⟩
    exact ⟨y, hy, x, hx, rfl, rfl⟩

theorem rowMajor_length (w h : Nat) : (rowMajor w h).length = h * w := by
  simp [rowMajor, List.length_flatMap]

theorem rowMajor_nodup (w h : Nat) : (rowMajor w h).Nodup := by
  unfold rowMajor
  rw [List.nodup_flatMap]
  refine ⟨fun y _ => ?_, ?_⟩
  · refine List.Nodup.map ?_ List.nodup_range
    intro a b e
    exact (Prod.mk.inj e).1
  · refine List.Pairwise.imp_of_mem ?_ List.nodup_range
    intro a b _ _ hab p hp hq
    obtain ⟨u, -, rfl⟩ := List.mem_map.1 hp
    obtain ⟨v, -, e⟩ := List.mem_map.1 hq
    exact hab (Prod.mk.inj e).2.symm

theorem forPixels_append {σ : Type} (body : σ → Nat → Nat → Except CmdError σ) (ps qs : List (Nat × Nat)) (a : σ) :
    forPixels body (ps ++ qs) a =
      match forPixels body ps a with
      | .error e => .error e
      | .ok a' => forPixels body qs a' := by
  induction ps generalizing a with
  | nil => rfl
  | cons p ps ih =>
    obtain ⟨x, y⟩ := p
    simp only [List.cons_append, forPixels]
    cases body a x y with
    | error e => rfl
    | ok a' => exact ih a'

/-- A loop whose body always succeeds keeps an invariant of the pixels done so far. -/
theorem forPixels_induct {σ : Type} {body : σ → Nat → Nat → Except CmdError σ} {ps : List (Nat × Nat)}
    (P : List (Nat × Nat) → σ → Prop) {a : σ} (h0 : P [] a)
    (hstep : ∀ done x y rest b, ps = done ++ (x, y) :: rest → P done b → ∃ b', body b x y = .ok b' ∧ P (done ++ [(x, y)]) b') :
    ∃ b, forPixels body ps a = .ok b ∧ P ps b := by
  have key : ∀ rest done b, ps = done ++ rest → P done b → ∃ b', forPixels body rest b = .ok b' ∧ P ps b' := by
    intro rest
    induction rest with
    | nil =>
      intro done b e hb
      exact ⟨b, rfl, by simpa [e] using hb⟩
    | cons p rest ih =>
      obtain ⟨x, y⟩ := p
      intro done b e hb
      obtain ⟨b', e1, hb'⟩ := hstep done x y rest b e hb
      obtain ⟨c, e2, hc⟩ := ih (done ++ [(x, y)]) b' (by simpa using e) hb'
      exact ⟨c, by simp [forPixels, e1, e2], hc⟩
  exact key ps [] a rfl h0

/-- What every step of a loop that succeeds keeps, its result keeps. -/
theorem forPixels_keeps {σ : Type} {body : σ → Nat → Nat → Except CmdError σ} {ps : List (Nat × Nat)}
    (P : σ → Prop) {a b : σ} (h0 : P a)
    (hstep : ∀ x y c c', (x, y) ∈ ps → P c → body c x y = .ok c' → P c') (h : forPixels body ps a = .ok b) : P b := by
  induction ps generalizing a with
  | nil =>
    cases h
    exact h0
  | cons p ps ih =>
    obtain ⟨x, y⟩ := p
    simp only [forPixels] at h
    split at h
    · cases h
    · rename_i c e
      exact ih (hstep x y a c (by simp) h0 e) (fun x y c c' hm => hstep x y c c' (by simp [hm])) h

/-! ### Frames written pixel by pixel -/

theorem pixelOffset_le_rowBytes {f : PixFmt} {x w : Nat} (h : x < w) :
    pixelOffset f x + pixelBytes f ≤ pixelRowBytes f w := by
  cases f <;> simp only [pixelOffset, pixelBytes, pixelRowBytes, PixFmt.bpp] <;> omega

theorem pixelRowBytes_le_stride (f : PixFmt) (w : Nat) : pixelRowBytes f w ≤ stride f w := by
  cases f <;> simp only [pixelRowBytes, stride, PixFmt.bpp] <;> omega

/-- A frame at DST_BASE whose pixels hold `val` and whose padding is 0, with every byte outside its buffer as in `s`. -/
structure Written (s : State) (t : PixFmt) (val : Nat → Nat → Raw) (m : List Host.Cell) : Prop where
  outside : ∀ b, ¬ InRange (dstBase s) (dstLen s t) b → Memory.get? m b = Memory.get? s.fmem b
  pixels : ∀ x y, x < srcW s → y < srcH s →
    readRaw s.draws m t (dstBase s) (stride t (srcW s)) x y = Raw.trim t (val x y)
  bytes : ∀ y o, y < srcH s → pixelRowBytes t (srcW s) ≤ o → o < stride t (srcW s) →
    Memory.get? m (dstBase s + y * stride t (srcW s) + o) = some 0
  bits : ∀ x y, srcW s ≤ x → y < srcH s → pixelOffset t x + pixelBytes t ≤ stride t (srcW s) →
    readRaw s.draws m t (dstBase s) (stride t (srcW s)) x y = 0
  wf : dstBase s + dstLen s t ≤ s.cfg.fmemSize → Memory.wf s.cfg.fmemSize s.fmem → Memory.wf s.cfg.fmemSize m

theorem readRaw_zero {d : Nat} {m : List Host.Cell} {f : PixFmt} {base st x y : Nat}
    (h : ∀ b, pixelAddr f base st x y ≤ b → b < pixelAddr f base st x y + pixelBytes f → Memory.get? m b = some 0) :
    readRaw d m f base st x y = 0 := by
  have r8 : ∀ b, Memory.get? m b = some 0 → read8 d m b = 0 := by
    intro b hb
    simp [read8, hb]
  cases f <;> simp only [pixelBytes] at h
  · simp [readRaw, bitOf, r8 _ (h _ (Nat.le_refl _) (by omega))]
  · simp [readRaw, nibbleOf, r8 _ (h _ (Nat.le_refl _) (by omega))]
  · simp [readRaw, r8 _ (h _ (Nat.le_refl _) (by omega))]
  · simp [readRaw, read16, r8 _ (h _ (Nat.le_refl _) (by omega)), r8 _ (h _ (Nat.le_add_right _ 1) (by omega))]
  · simp [readRaw, read16, r8 _ (h _ (Nat.le_refl _) (by omega)), r8 _ (h _ (Nat.le_add_right _ 1) (by omega))]
  · simp [readRaw, read24, r8 _ (h _ (Nat.le_refl _) (by omega)), r8 _ (h _ (Nat.le_add_right _ 1) (by omega)),
      r8 _ (h _ (Nat.le_add_right _ 2) (by omega))]

/-- The frame part way through a loop. -/
structure WrittenUpTo (s : State) (t : PixFmt) (val : Nat → Nat → Raw) (done : List (Nat × Nat)) (m : List Host.Cell) :
    Prop where
  outside : ∀ b, ¬ InRange (dstBase s) (dstLen s t) b → Memory.get? m b = Memory.get? s.fmem b
  pixels : ∀ x y, (x, y) ∈ done → readRaw s.draws m t (dstBase s) (stride t (srcW s)) x y = Raw.trim t (val x y)
  bytes : ∀ b, InRange (dstBase s) (dstLen s t) b →
    (∀ x y, (x, y) ∈ done → b < pixelAddr t (dstBase s) (stride t (srcW s)) x y ∨
      pixelAddr t (dstBase s) (stride t (srcW s)) x y + pixelBytes t ≤ b) → Memory.get? m b = some 0
  bits : ∀ x y, (x, y) ∉ done → y < srcH s → pixelOffset t x + pixelBytes t ≤ stride t (srcW s) →
    readRaw s.draws m t (dstBase s) (stride t (srcW s)) x y = 0
  wf : dstBase s + dstLen s t ≤ s.cfg.fmemSize → Memory.wf s.cfg.fmemSize s.fmem → Memory.wf s.cfg.fmemSize m

theorem pixelAddr_fits {f : PixFmt} {base st x y h : Nat} (hx : pixelOffset f x + pixelBytes f ≤ st) (hy : y < h) :
    pixelAddr f base st x y + pixelBytes f ≤ base + h * st := by
  have h2 : (y + 1) * st ≤ h * st := Nat.mul_le_mul_right _ hy
  rw [Nat.add_mul] at h2
  unfold pixelAddr
  omega

theorem WrittenUpTo.start (s : State) (t : PixFmt) (val : Nat → Nat → Raw) :
    WrittenUpTo s t val [] (fillZero s t s.fmem) where
  outside := by
    intro b hb
    rw [fillZero, get?_zeroBytes]
    exact if_neg hb
  pixels := by simp
  bytes := by
    intro b hb _
    rw [fillZero, get?_zeroBytes]
    exact if_pos hb
  bits := by
    intro x y _ hy hx
    apply readRaw_zero
    intro b h1 h2
    have := base_le_pixelAddr t (dstBase s) (stride t (srcW s)) x y
    have := pixelAddr_fits (base := dstBase s) hx hy
    rw [fillZero, get?_zeroBytes, if_pos]
    unfold dstLen
    omega
  wf := fun h1 h2 => zeroBytes_wf h2 h1

theorem WrittenUpTo.step {s : State} {t : PixFmt} {val : Nat → Nat → Raw} {done : List (Nat × Nat)}
    {m : List Host.Cell} (h : WrittenUpTo s t val done m) {x y : Nat} (hx : x < srcW s) (hy : y < srcH s)
    (hnew : (x, y) ∉ done) (hdone : ∀ p ∈ done, p.1 < srcW s) :
    WrittenUpTo s t val (done ++ [(x, y)]) (writeDst s t m x y (val x y)) := by
  have h0 := base_le_pixelAddr t (dstBase s) (stride t (srcW s)) x y
  have h1 := pixelAddr_le (f := t) (base := dstBase s) hx hy
  refine ⟨?_, ?_, ?_, ?_, ?_⟩
  · intro b hb
    rw [writeDst, get?_writeRaw_out, h.outside b hb]
    unfold InRange dstLen at hb
    omega
  · intro u v huv
    rw [List.mem_append, List.mem_singleton] at huv
    rcases huv with huv | huv
    · have hne : (u, v) ≠ (x, y) := fun e => hnew (e ▸ huv)
      rw [writeDst, readRaw_writeRaw_ne _ _ _ _ _ hx (hdone _ huv) hne, h.pixels u v huv]
    · cases huv
      rw [writeDst, readRaw_writeRaw_self]
  · intro b hb hall
    have hxy := hall x y (by simp)
    rw [writeDst, get?_writeRaw_out _ _ _ _ _ _ _ _ hxy]
    exact h.bytes b hb fun u v huv => hall u v (by simp [huv])
  · intro u v huv hv hu
    rw [List.mem_append, List.mem_singleton, not_or] at huv
    rw [writeDst, readRaw_writeRaw_other _ _ _ _ _ (pixelOffset_lt_stride hx) hu huv.2]
    exact h.bits u v huv.1 hv hu
  · intro g1 g2
    refine writeRaw_wf _ (h.wf g1 g2) ?_
    unfold dstLen at g1
    omega

theorem WrittenUpTo.done {s : State} {t : PixFmt} {val : Nat → Nat → Raw} {m : List Host.Cell}
    (h : WrittenUpTo s t val (srcPixels s) m) : Written s t val m where
  outside := h.outside
  pixels := fun x y hx hy => h.pixels x y (mem_rowMajor.2 ⟨hx, hy⟩)
  bytes := by
    intro y o hy h1 h2
    have hb : (y + 1) * stride t (srcW s) ≤ srcH s * stride t (srcW s) := Nat.mul_le_mul_right _ hy
    rw [Nat.add_mul] at hb
    refine h.bytes _ ⟨by omega, by unfold dstLen; omega⟩ ?_
    intro u v huv
    obtain ⟨hu, hv⟩ := mem_rowMajor.1 huv
    have hf := pixelOffset_le_rowBytes (f := t) hu
    have hle := pixelRowBytes_le_stride t (srcW s)
    unfold pixelAddr
    rcases Nat.lt_trichotomy v y with hlt | rfl | hgt
    · have : (v + 1) * stride t (srcW s) ≤ y * stride t (srcW s) := Nat.mul_le_mul_right _ hlt
      rw [Nat.add_mul] at this
      omega
    · omega
    · have : (y + 1) * stride t (srcW s) ≤ v * stride t (srcW s) := Nat.mul_le_mul_right _ hgt
      rw [Nat.add_mul] at this
      omega
  bits := fun x y hx hy hfit => h.bits x y (fun hm => by have := (mem_rowMajor.1 hm).1; omega) hy hfit
  wf := h.wf

/-- A loop over the source pixels whose body, on a working copy that agrees with FMEM outside the destination buffer,
writes `val x y` at (x, y): its result. -/
theorem writeLoop {σ : Type} {s : State} {t : PixFmt} {body : σ → Nat → Nat → Except CmdError σ}
    (mem : σ → List Host.Cell) (val : Nat → Nat → Raw) (J : σ → Prop) {a : σ} (hmem : mem a = fillZero s t s.fmem)
    (hJ : J a)
    (hstep : ∀ b x y, x < srcW s → y < srcH s → J b →
      (∀ c, ¬ InRange (dstBase s) (dstLen s t) c → Memory.get? (mem b) c = Memory.get? s.fmem c) →
      ∃ b', body b x y = .ok b' ∧ J b' ∧ mem b' = writeDst s t (mem b) x y (val x y)) :
    ∃ b, forPixels body (srcPixels s) a = .ok b ∧ J b ∧ Written s t val (mem b) := by
  obtain ⟨b, h1, h2, h3⟩ := forPixels_induct (body := body) (ps := srcPixels s) (a := a)
    (fun done b => J b ∧ WrittenUpTo s t val done (mem b))
    ⟨hJ, by rw [hmem]; exact WrittenUpTo.start s t val⟩ (by
      intro done x y rest b e ⟨hb1, hb2⟩
      have hall : ∀ p ∈ done ++ (x, y) :: rest, p.1 < srcW s ∧ p.2 < srcH s := by
        intro p hp
        rw [← e] at hp
        exact mem_rowMajor.1 hp
      obtain ⟨hx, hy⟩ := hall (x, y) (by simp)
      have hnd : (done ++ (x, y) :: rest).Nodup := by
        rw [← e]
        exact rowMajor_nodup _ _
      obtain ⟨b', e1, e2, e3⟩ := hstep b x y hx hy hb1 hb2.outside
      refine ⟨b', e1, e2, ?_⟩
      rw [e3]
      refine hb2.step hx hy ?_ fun p hp => (hall p (by simp [hp])).1
      intro hin
      rw [List.nodup_append] at hnd
      exact hnd.2.2 _ hin _ (by simp) rfl)
  exact ⟨b, h1, h2, h3.done⟩

/-! ### The source while a destination is written -/

theorem Apart.not_both {a n b m x : Nat} (h : Apart a n b m) (h1 : InRange a n x) (h2 : InRange b m x) : False := by
  unfold Apart at h
  unfold InRange at h1 h2
  omega

/-- A working copy that agrees with FMEM outside the destination buffer holds the source pixels (R822). -/
theorem readSrc_eq {s : State} {f t : PixFmt} {m : List Host.Cell} (hs : SourceLegal s f) (hd : DestinationLegal s t)
    (hm : ∀ c, ¬ InRange (dstBase s) (dstLen s t) c → Memory.get? m c = Memory.get? s.fmem c) {x y : Nat}
    (hx : x < srcW s) (hy : y < srcH s) : readSrc s f m x y = sourceRaw s f x y := by
  unfold readSrc sourceRaw
  rw [hs.stride]
  apply readRaw_congr
  intro b h1 h2
  apply hm
  intro hin
  have g1 := base_le_pixelAddr f (srcBase s) (stride f (srcW s)) x y
  have g2 := pixelAddr_le (f := f) (base := srcBase s) hx hy
  have hl := hs.length
  rw [hs.stride] at hl
  exact hd.offSource.not_both hin ⟨by omega, by omega⟩

end Sys2Proof.Machine
end

