-- ==== Sys2Proof/Laws/Convert.lean ====
section
/-! SUPPORT. The conversion routines (R830 to R873) on legal frames: what each returns and what it leaves in FMEM. -/

namespace Sys2Proof.Machine

/-- CONVERT never fails after validation (R860). -/
theorem convertTrue_spec {s : State} {f t : PixFmt} (hs : SourceLegal s f) (hd : DestinationLegal s t) :
    ∃ m, convertTrue s f t = .ok { fmem := m, pal := [], transp := noTransparent } ∧
      Written s t (fun x y => convertPixel f t (sourceRaw s f x y)) m := by
  obtain ⟨m, h1, -, h3⟩ := writeLoop (s := s) (t := t) (body := convertOne s f t)
    (a := fillZero s t s.fmem) (fun m => m)
    (fun x y => convertPixel f t (sourceRaw s f x y)) (fun _ => True) rfl trivial (by
      intro m x y hx hy _ hm
      refine ⟨_, rfl, trivial, ?_⟩
      show writeDst s t m x y (convertPixel f t (readSrc s f m x y)) = _
      rw [readSrc_eq hs hd hm hx hy])
  exact ⟨m, by unfold convertTrue; rw [h1], h3⟩

/-- EXPAND on a frame whose indices are all in the palette (R850). -/
theorem expand_spec {s : State} {f t : PixFmt} (hs : SourceLegal s f) (hd : DestinationLegal s t)
    (hf : f.isIndexed = true) (hi : ∀ x y, x < srcW s → y < srcH s → (sourceRaw s f x y).toNat < srcPalLen s) :
    ∃ m, expand s f t = .ok { fmem := m, pal := [], transp := noTransparent } ∧
      Written s t (fun x y => packPixel t (srcPalAt s (sourceRaw s f x y).toNat)) m := by
  obtain ⟨m, h1, -, h3⟩ := writeLoop (s := s) (t := t) (body := expandPixel s f t)
    (a := fillZero s t s.fmem) (fun m => m)
    (fun x y => packPixel t (srcPalAt s (sourceRaw s f x y).toNat)) (fun _ => True) rfl trivial (by
      intro m x y hx hy _ hm
      refine ⟨_, ?_, trivial, rfl⟩
      have hlt := hi x y hx hy
      unfold expandPixel colourOfRaw
      rw [show readSrc s f m x y = sourceRaw s f x y from readSrc_eq hs hd hm hx hy, if_pos hf, if_neg (by omega)])
  exact ⟨m, by unfold expand; rw [h1], h3⟩

/-- REPACK on a frame whose indices are all in the palette and fit the target (R840). -/
theorem repack_spec {s : State} {f t : PixFmt} (hs : SourceLegal s f) (hd : DestinationLegal s t)
    (h1 : t = .indexed1 → srcPalLen s = 2)
    (hi : ∀ x y, x < srcW s → y < srcH s →
      (sourceRaw s f x y).toNat < srcPalLen s ∧ (sourceRaw s f x y).toNat < 2 ^ t.bpp) :
    ∃ m, repack s f t = .ok { fmem := m, pal := srcPalList s (srcPalLen s), transp := s.src.transp } ∧
      Written s t (fun x y => sourceRaw s f x y) m := by
  obtain ⟨m, g1, -, g3⟩ := writeLoop (s := s) (t := t) (body := repackPixel s f t)
    (a := fillZero s t s.fmem) (fun m => m)
    (fun x y => sourceRaw s f x y) (fun _ => True) rfl trivial (by
      intro m x y hx hy _ hm
      refine ⟨_, ?_, trivial, rfl⟩
      obtain ⟨hlt1, hlt2⟩ := hi x y hx hy
      unfold repackPixel
      simp only [show readSrc s f m x y = sourceRaw s f x y from readSrc_eq hs hd hm hx hy]
      rw [if_neg (by omega), if_neg (by omega)])
  refine ⟨m, ?_, g3⟩
  unfold repack
  rw [if_neg (by rintro ⟨e, h⟩; exact h (h1 e)), g1]

/-! ### QUANTIZE (R870 to R873) -/

theorem buildPixel_eq {s : State} {f : PixFmt} (hs : SourceLegal s f) (T : Octree) (x y : Nat) :
    buildPixel s f T x y = T.addColour s.cfg.nodeCapacity (sourceColour s f x y) := by
  unfold buildPixel readSrc sourceColour sourceRaw
  rw [hs.stride]

/-- Pass 1 fails only with CAPACITY_EXCEEDED, and otherwise leaves a sound octree with a leaf for every pixel's
colour (R653, R870). -/
theorem build_spec {s : State} {f : PixFmt} (hs : SourceLegal s f) (hcap : 1 ≤ s.cfg.nodeCapacity) :
    forPixels (buildPixel s f) (srcPixels s) Octree.empty = .error .capacityExceeded ∨
    ∃ T, forPixels (buildPixel s f) (srcPixels s) Octree.empty = .ok T ∧ T.Sound s.cfg.nodeCapacity ∧ T.phase = .build ∧
      T.total = srcH s * srcW s ∧
      ∀ x y, x < srcW s → y < srcH s → (T.root.leafAt (pathOf (sourceColour s f x y))).isSome = true := by
  have key : ∀ ps (T : Octree), T.Sound s.cfg.nodeCapacity → T.phase = .build →
      forPixels (buildPixel s f) ps T = .error .capacityExceeded ∨
      ∃ T', forPixels (buildPixel s f) ps T = .ok T' ∧ T'.Sound s.cfg.nodeCapacity ∧ T'.phase = .build ∧
        T'.total = T.total + ps.length ∧
        (∀ js, (T.root.leafAt js).isSome = true → (T'.root.leafAt js).isSome = true) ∧
        ∀ p ∈ ps, (T'.root.leafAt (pathOf (sourceColour s f p.1 p.2))).isSome = true := by
    intro ps
    induction ps with
    | nil =>
      intro T h1 h2
      exact .inr ⟨T, rfl, h1, h2, rfl, fun _ h => h, by simp⟩
    | cons p ps ih =>
      obtain ⟨x, y⟩ := p
      intro T h1 h2
      simp only [forPixels, buildPixel_eq hs]
      cases e : T.addColour s.cfg.nodeCapacity (sourceColour s f x y) with
      | error er =>
        left
        rw [Octree.addColour_eq h1] at e
        split at e
        · cases e
          rfl
        · split at e
          · cases e
            rfl
          · cases e
      | ok T1 =>
        obtain ⟨g1, g2, rfl, -, -⟩ := Octree.addColour_spec h1 h2 e
        rcases ih _ g1 g2 with h | ⟨T', k1, k2, k3, k4, k5, k6⟩
        · exact .inl h
        · refine .inr ⟨T', k1, k2, k3, ?_, ?_, ?_⟩
          · rw [k4, show (T.descend (sourceColour s f x y)).total = T.total + 1 from rfl, List.length_cons]
            omega
          · exact fun js hj => k5 js (Octree.descend_leafAt_mono T _ js hj)
          · intro q hq
            rcases List.mem_cons.1 hq with rfl | hq
            · exact k5 _ (Octree.descend_leafAt h1 _)
            · exact k6 q hq
  rcases key (srcPixels s) Octree.empty (Octree.empty_sound hcap) rfl with h | ⟨T, h1, h2, h3, h4, -, h6⟩
  · exact .inl h
  · refine .inr ⟨T, h1, h2, h3, ?_, fun x y hx hy => h6 (x, y) (mem_rowMajor.2 ⟨hx, hy⟩)⟩
    rw [h4]
    simp [Octree.empty, srcPixels, rowMajor_length]

/-- Pass 1 succeeds when the node store has room for eight nodes a pixel. -/
theorem build_ok {s : State} {f : PixFmt} (hs : SourceLegal s f) (hcap : 1 + 8 * (srcH s * srcW s) ≤ s.cfg.nodeCapacity) :
    ∃ T, forPixels (buildPixel s f) (srcPixels s) Octree.empty = .ok T := by
  obtain ⟨T, h, -⟩ := forPixels_induct (body := buildPixel s f) (ps := srcPixels s) (a := Octree.empty)
    (fun done T => T.Sound s.cfg.nodeCapacity ∧ T.phase = .build ∧ T.total = done.length ∧ T.live ≤ 1 + 8 * done.length)
    ⟨Octree.empty_sound (by omega), rfl, rfl, Nat.le_refl _⟩ (by
      intro done x y rest T e ⟨h1, h2, h3, h4⟩
      have hlen : done.length + 1 ≤ srcH s * srcW s := by
        have := congrArg List.length e
        rw [srcPixels, rowMajor_length, List.length_append, List.length_cons] at this
        omega
      have hw : srcH s * srcW s ≤ 65535 * 65535 :=
        Nat.mul_le_mul (by have := s.src.height.isLt; unfold srcH; omega) (by have := s.src.width.isLt; unfold srcW; omega)
      have hmax : maxTotal = 2 ^ 32 - 1 := rfl
      have hok := Octree.addColour_ok h1 (sourceColour s f x y) (by omega) (by omega)
      obtain ⟨g1, g2, -⟩ := Octree.addColour_spec h1 h2 hok
      obtain ⟨m1, m2, -⟩ := Octree.descend_measures h1 (sourceColour s f x y)
      exact ⟨_, by rw [buildPixel_eq hs, hok], g1, g2, by rw [m1, h3, List.length_append]; rfl,
        by rw [List.length_append]; show _ ≤ 1 + 8 * (done.length + 1); omega⟩)
  exact ⟨T, h⟩

/-- The index of a colour in a frozen tree, as a stored value. -/
def indexValue (T : Octree) (c : Colour) : Raw := ((T.root.lookup (pathOf c)).getD 0).setWidth 24

/-- QUANTIZE once pass 1 has passed: the palette is CreatePalette's, every pixel gets its colour's index, and nothing
fails (R653, R870). -/
theorem quantize_spec {s : State} {f t : PixFmt} (hs : SourceLegal s f) (hd : DestinationLegal s t)
    (hcap : 1 ≤ s.cfg.nodeCapacity) (ht : 8 ≤ 2 ^ t.bpp) {T : Octree}
    (hT : forPixels (buildPixel s f) (srcPixels s) Octree.empty = .ok T) :
    ∃ frozen pal m, T.createPalette (2 ^ t.bpp) = .ok (frozen, pal) ∧
      quantize s f t = .ok { fmem := m, pal := pal, transp := noTransparent } ∧ pal.length ≤ 2 ^ t.bpp ∧
      Written s t (fun x y => indexValue frozen (sourceColour s f x y)) m ∧
      ∀ x y, x < srcW s → y < srcH s → ∃ d i, frozen.root.leafAt (pathOf (sourceColour s f x y)) = some d ∧
        i < pal.length ∧ d.palIdx = some (BitVec.ofNat 8 i) ∧ pal[i]? = some d.colour := by
  rcases build_spec hs hcap with h | ⟨T', e1, h1, h2, -, h4⟩
  · rw [h] at hT
    cases hT
  · rw [e1] at hT
    cases hT
    rcases Octree.createPalette_spec (m := 2 ^ t.bpp) h1 h2 with
      ⟨frozen, pal, p1, p2, p3, p4, p5, -, -, p8, p9⟩ | ⟨-, hlt⟩
    · have hleaf : ∀ x y, x < srcW s → y < srcH s → ∃ d i, frozen.root.leafAt (pathOf (sourceColour s f x y)) = some d ∧
          i < pal.length ∧ d.palIdx = some (BitVec.ofNat 8 i) ∧ pal[i]? = some d.colour := by
        intro x y hx hy
        obtain ⟨d, hd⟩ := Option.isSome_iff_exists.1 (p8 _ (h4 x y hx hy))
        obtain ⟨i, i1, i2, i3⟩ := p9 _ d hd
        exact ⟨d, i, hd, i1, i2, i3⟩
      obtain ⟨b, l1, -, l3⟩ := writeLoop (s := s) (t := t) (body := indexPixel s f t) (a := (frozen, fillZero s t s.fmem))
        Prod.snd (fun x y => indexValue frozen (sourceColour s f x y))
        (fun b => b.1.Sound s.cfg.nodeCapacity ∧ b.1.phase = .frozen ∧ b.1.root = frozen.root) rfl ⟨p2, p3, rfl⟩ (by
          rintro ⟨U, m⟩ x y hx hy ⟨j1, j2, j3⟩ hm
          obtain ⟨d, i, k1, -, k2, -⟩ := hleaf x y hx hy
          have hlook : U.root.lookup (pathOf (sourceColour s f x y)) = some (BitVec.ofNat 8 i) := by
            rw [j3, Node.lookup_eq, k1]
            exact k2
          obtain ⟨U', u1, -⟩ := (Octree.getPaletteIndex_spec j1 (sourceColour s f x y)).1 _ hlook
          obtain ⟨v1, v2, v3, -⟩ := Octree.getPaletteIndex_ok j1 j2 u1
          have hsrc : unpackPixel f (readSrc s f m x y) = sourceColour s f x y := by
            rw [show readSrc s f m x y = sourceRaw s f x y from readSrc_eq hs hd hm hx hy]
            rfl
          refine ⟨(U', writeDst s t m x y (indexValue frozen (sourceColour s f x y))), ?_, ⟨v1, v2, v3.trans j3⟩, rfl⟩
          unfold indexPixel
          simp only [hsrc, u1]
          rw [show (BitVec.ofNat 8 i).setWidth 24 = indexValue frozen (sourceColour s f x y) by
            unfold indexValue
            rw [← j3, hlook]
            rfl])
      refine ⟨frozen, pal, b.2, p1, ?_, p5, l3, hleaf⟩
      unfold quantize
      simp only [e1, p1, l1]
    · omega

/-- QUANTIZE fails only with CAPACITY_EXCEEDED, in pass 1 (R653, R810, R870). -/
theorem quantize_error {s : State} {f t : PixFmt} (hs : SourceLegal s f) (hd : DestinationLegal s t)
    (hcap : 1 ≤ s.cfg.nodeCapacity) (ht : 8 ≤ 2 ^ t.bpp) {e : CmdError} (h : quantize s f t = .error e) :
    e = .capacityExceeded := by
  rcases build_spec hs hcap with hb | ⟨T, e1, -⟩
  · unfold quantize at h
    simp only [hb] at h
    cases h
    rfl
  · obtain ⟨frozen, pal, m, -, h2, -⟩ := quantize_spec hs hd hcap ht e1
    rw [h2] at h
    cases h

/-! ### The mask (R881) and the commit (R880) -/

theorem get?_copyMask_out {s : State} {m : List Host.Cell} {b : Nat}
    (h : s.src.maskPresent = true → ¬ InRange (dstMaskBase s) (maskLen s) b) :
    Memory.get? (copyMask s m) b = Memory.get? m b := by
  unfold copyMask
  split
  · rename_i e
    apply get?_copyBytes_out
    have := h e
    unfold InRange at this
    omega
  · rfl

/-- The mask is copied byte for byte (R881). -/
theorem get?_copyMask_in {s : State} {t : PixFmt} (hd : DestinationLegal s t) (hm : s.src.maskPresent = true)
    (m : List Host.Cell) {i : Nat} (hi : i < maskLen s)
    (hsrc : Memory.get? m (srcMaskBase s + i) = Memory.get? s.fmem (srcMaskBase s + i)) :
    Memory.get? (copyMask s m) (dstMaskBase s + i) = some (read8 s.draws s.fmem (srcMaskBase s + i)) := by
  unfold copyMask
  rw [if_pos hm, get?_copyBytes_in _ _ _ hi, read8_congr hsrc]
  have := hd.maskOffMask hm
  unfold Apart at this
  unfold maskLen
  omega

theorem copyMask_wf {s : State} {t : PixFmt} (hd : DestinationLegal s t) {m : List Host.Cell}
    (h : Memory.wf s.cfg.fmemSize m) : Memory.wf s.cfg.fmemSize (copyMask s m) := by
  unfold copyMask
  split
  · rename_i e
    exact copyBytes_wf h (hd.mask e)
  · exact h

/-- The destination buffer is as the routine left it after the mask is copied (R821). -/
theorem destinationRaw_commit {s : State} {t : PixFmt} (hd : DestinationLegal s t) (out : Converted) {x y : Nat}
    (hx : pixelOffset t x + pixelBytes t ≤ stride t (srcW s)) (hy : y < srcH s) :
    destinationRaw s (commit s t out) t x y = readRaw s.draws out.fmem t (dstBase s) (stride t (srcW s)) x y := by
  unfold destinationRaw
  apply readRaw_congr
  intro b h1 h2
  show Memory.get? (copyMask s out.fmem) b = _
  apply get?_copyMask_out
  intro e hin
  have g1 := base_le_pixelAddr t (dstBase s) (stride t (srcW s)) x y
  have g2 := pixelAddr_fits (base := dstBase s) hx hy
  exact (hd.maskOffBuffer e).not_both hin ⟨by omega, by omega⟩

theorem reformat_ok {s : State} {n : Nat} {f t : PixFmt} {out : Converted} (hs : SourceLegal s f)
    (hn : PixFmt.ofCode n = some t) (hr : routeTable f t ≠ .unsupported) (hd : DestinationLegal s t)
    (ho : runRoute s f t (routeTable f t) = .ok out) : reformat s n = .ok (commit s t out) := by
  unfold reformat
  rw [reformatChecks_ok_iff.2 ⟨hn, rfl, hr, hs, hd⟩]
  simp only [ho]

/-- A working copy of FMEM that agrees with FMEM outside the destination buffer and has its canonical form. -/
def FrameKept (s : State) (t : PixFmt) (m : List Host.Cell) : Prop :=
  (∀ b, ¬ InRange (dstBase s) (dstLen s t) b → Memory.get? m b = Memory.get? s.fmem b) ∧
    (Memory.wf s.cfg.fmemSize s.fmem → Memory.wf s.cfg.fmemSize m)

/-- Whatever a routine returns on legal frames, every byte outside the destination buffer is as before, and the
canonical form is kept (R883). -/
theorem runRoute_frame {s : State} {f t : PixFmt} {out : Converted} (hs : SourceLegal s f) (hd : DestinationLegal s t)
    {r : Route} (hr : r = routeTable f t) (ho : runRoute s f t r = .ok out) : FrameKept s t out.fmem := by
  have hbuf : dstBase s + dstLen s t ≤ s.cfg.fmemSize := hd.buffer
  have hwrite : ∀ (m : List Host.Cell) (x y : Nat) (v : Raw), x < srcW s → y < srcH s →
      FrameKept s t m → FrameKept s t (writeDst s t m x y v) := by
    intro m x y v hx hy ⟨h1, h2⟩
    have g1 := base_le_pixelAddr t (dstBase s) (stride t (srcW s)) x y
    have g2 := pixelAddr_le (f := t) (base := dstBase s) hx hy
    refine ⟨fun b hb => ?_, fun h => writeRaw_wf _ (h2 h) (by unfold dstLen at hbuf; omega)⟩
    rw [writeDst, get?_writeRaw_out _ _ _ _ _ _ _ _ (by unfold InRange dstLen at hb; omega), h1 b hb]
  have hzero : FrameKept s t (fillZero s t s.fmem) := by
    refine ⟨fun b hb => ?_, fun h => zeroBytes_wf h hbuf⟩
    rw [fillZero, get?_zeroBytes]
    exact if_neg hb
  cases r with
  | clone =>
    cases ho
    have hft : f = t := by cases f <;> cases t <;> first | rfl | (simp [routeTable] at hr)
    subst hft
    have hl : srcBufLen s = dstLen s f := by rw [hs.length, hs.stride]; rfl
    refine ⟨fun b hb => ?_, fun h => copyBytes_wf h (by rw [hl]; exact hbuf)⟩
    apply get?_copyBytes_out
    rw [hl]
    unfold InRange at hb
    omega
  | repack =>
    simp only [runRoute, repack] at ho
    split at ho
    · cases ho
    · split at ho
      · cases ho
      · rename_i m hm
        cases ho
        refine forPixels_keeps (FrameKept s t) hzero ?_ hm
        intro x y a a' hxy ha hb
        obtain ⟨hx, hy⟩ := mem_rowMajor.1 hxy
        unfold repackPixel at hb
        simp only at hb
        split at hb
        · cases hb
        · split at hb
          · cases hb
          · cases hb
            exact hwrite _ _ _ _ hx hy ha
  | expand =>
    simp only [runRoute, expand] at ho
    split at ho
    · cases ho
    · rename_i m hm
      cases ho
      refine forPixels_keeps (FrameKept s t) hzero ?_ hm
      intro x y a a' hxy ha hb
      obtain ⟨hx, hy⟩ := mem_rowMajor.1 hxy
      unfold expandPixel at hb
      split at hb
      · cases hb
      · cases hb
        exact hwrite _ _ _ _ hx hy ha
  | convert =>
    simp only [runRoute, convertTrue] at ho
    split at ho
    · cases ho
    · rename_i m hm
      cases ho
      refine forPixels_keeps (FrameKept s t) hzero ?_ hm
      intro x y a a' hxy ha hb
      obtain ⟨hx, hy⟩ := mem_rowMajor.1 hxy
      cases hb
      exact hwrite _ _ _ _ hx hy ha
  | quantize =>
    simp only [runRoute, quantize] at ho
    split at ho
    · cases ho
    · split at ho
      · cases ho
      · split at ho
        · cases ho
        · rename_i U m hm
          cases ho
          refine forPixels_keeps (fun b : Octree × List Host.Cell => FrameKept s t b.2) hzero ?_ hm
          intro x y a a' hxy ha hb
          obtain ⟨hx, hy⟩ := mem_rowMajor.1 hxy
          unfold indexPixel at hb
          split at hb
          · cases hb
          · cases hb
            exact hwrite _ _ _ _ hx hy ha
  | unsupported => cases ho

end Sys2Proof.Machine
end

