-- ==== Sys2Proof/Laws/Exact.lean ====
section
/-! SUPPORT. Octrees that nothing has reduced (R884): every leaf is at level 8 and holds one colour, so a palette made
without a reduction reproduces every colour exactly. -/

namespace Sys2Proof.Machine

/-! ### Paths of colours (R611) -/

theorem Key.ofBits_inj {a b c a' b' c' : Bool} (h : Key.ofBits a b c = Key.ofBits a' b' c') : a = a' ∧ b = b' ∧ c = c' := by
  revert h
  cases a <;> cases b <;> cases c <;> cases a' <;> cases b' <;> cases c' <;> decide

/-- Two colours with the same path are the same colour (R611). -/
theorem pathOf_inj {c e : Colour} (h : pathOf c = pathOf e) : c = e := by
  simp only [pathOf, List.cons.injEq, keyAt, and_true] at h
  obtain ⟨h0, h1, h2, h3, h4, h5, h6, h7⟩ := h
  have k0 := Key.ofBits_inj h0
  have k1 := Key.ofBits_inj h1
  have k2 := Key.ofBits_inj h2
  have k3 := Key.ofBits_inj h3
  have k4 := Key.ofBits_inj h4
  have k5 := Key.ofBits_inj h5
  have k6 := Key.ofBits_inj h6
  have k7 := Key.ofBits_inj h7
  have hr : redOf c = redOf e := by
    apply BitVec.eq_of_getLsbD_eq
    intro i hi
    interval_cases i <;> simp_all
  have hg : greenOf c = greenOf e := by
    apply BitVec.eq_of_getLsbD_eq
    intro i hi
    interval_cases i <;> simp_all
  have hb : blueOf c = blueOf e := by
    apply BitVec.eq_of_getLsbD_eq
    intro i hi
    interval_cases i <;> simp_all
  rw [← rgb_channels c, ← rgb_channels e, hr, hg, hb]

/-! ### Trees with all leaves at level 8 -/

/-- Every leaf of a tree whose root has `n` levels below it is `n` levels down. -/
def Node.deep : Nat → Node → Prop
  | _, .empty => True
  | n, .leaf _ => n = 0
  | n, .branch _ c0 c1 c2 c3 c4 c5 c6 c7 =>
    1 ≤ n ∧ c0.deep (n - 1) ∧ c1.deep (n - 1) ∧ c2.deep (n - 1) ∧ c3.deep (n - 1) ∧ c4.deep (n - 1) ∧ c5.deep (n - 1) ∧
      c6.deep (n - 1) ∧ c7.deep (n - 1)

theorem Node.child_deep {n : Nat} {m : Node} (h : m.deep (n + 1)) (k : Key) : (m.child k).deep n := by
  cases m with
  | empty => trivial
  | leaf d => trivial
  | branch q c0 c1 c2 c3 c4 c5 c6 c7 =>
    obtain ⟨-, h0, h1, h2, h3, h4, h5, h6, h7⟩ := h
    cases k <;> assumption

theorem Node.setChild_deep {n : Nat} {m r : Node} (h : m.deep (n + 1)) (k : Key) (hr : r.deep n) :
    (m.setChild k r).deep (n + 1) := by
  cases m with
  | empty => trivial
  | leaf d => exact h
  | branch q c0 c1 c2 c3 c4 c5 c6 c7 =>
    obtain ⟨h, h0, h1, h2, h3, h4, h5, h6, h7⟩ := h
    cases k <;> exact ⟨h, by assumption, by assumption, by assumption, by assumption, by assumption, by assumption,
      by assumption, by assumption⟩

theorem Node.fresh_deep (c : Colour) (q : Nat) (ks : Path) : (Node.fresh c q ks).deep ks.length := by
  induction ks generalizing q with
  | nil => rfl
  | cons k ks ih =>
    exact Node.setChild_deep (m := Node.bare q)
      ⟨by simp, trivial, trivial, trivial, trivial, trivial, trivial, trivial, trivial⟩ k (ih (q + 1))

theorem Node.fresh_leafAt_ne (c : Colour) (q : Nat) {ks js : Path} (hl : js.length = ks.length) (h : js ≠ ks) :
    (Node.fresh c q ks).leafAt js = none := by
  induction ks generalizing q js with
  | nil => exact absurd (List.eq_nil_of_length_eq_zero hl) h
  | cons k ks ih =>
    cases js with
    | nil => simp at hl
    | cons j js =>
      rw [Node.fresh, Node.leafAt_cons (by simp), Node.child_setChild rfl]
      split
      · rename_i e
        exact ih (q + 1) (by simpa using hl) (fun e' => h (by rw [e, e']))
      · rw [Node.child_bare]
        cases js <;> rfl

/-- A descent in a tree with all leaves at level 8 leaves every other path alone. -/
theorem Node.insert_deep (c : Colour) (q : Nat) (ks : Path) (n : Node) (hn : n.deep ks.length) :
    (n.insert c q ks).deep ks.length ∧
      ∀ js, js.length = ks.length → js ≠ ks → (n.insert c q ks).leafAt js = n.leafAt js := by
  induction ks generalizing n with
  | nil =>
    refine ⟨?_, fun js hl hne => absurd (List.eq_nil_of_length_eq_zero hl) hne⟩
    cases n with
    | empty => exact Node.fresh_deep c q []
    | leaf d => exact hn
    | branch => exact hn
  | cons k ks ih =>
    cases n with
    | empty =>
      refine ⟨Node.fresh_deep c q (k :: ks), fun js hl hne => ?_⟩
      rw [Node.insert, Node.fresh_leafAt_ne c q hl hne]
      cases js <;> rfl
    | leaf d => simp [Node.deep] at hn
    | branch q' c0 c1 c2 c3 c4 c5 c6 c7 =>
      generalize hN : Node.branch q' c0 c1 c2 c3 c4 c5 c6 c7 = n at *
      have hb : n.isBranch = true := by rw [← hN]; rfl
      obtain ⟨h1, h2⟩ := ih (n.child k) (Node.child_deep hn k)
      rw [Node.insert_cons c q hb]
      refine ⟨Node.setChild_deep hn k h1, ?_⟩
      intro js hl hne
      cases js with
      | nil => simp at hl
      | cons j js =>
        rw [Node.leafAt_cons (by simp [hb]), Node.leafAt_cons hb, Node.child_setChild hb]
        split
        · rename_i e
          subst e
          exact h2 js (by simpa using hl) (fun e => hne (by rw [e]))
        · rfl

/-! ### Leaves of one colour -/

/-- A leaf that has accumulated the colour `c` and no other. -/
def LeafData.pure (d : LeafData) (c : Colour) : Prop :=
  1 ≤ d.count.toNat ∧ d.sumR.toNat = d.count.toNat * (redOf c).toNat ∧ d.sumG.toNat = d.count.toNat * (greenOf c).toNat ∧
    d.sumB.toNat = d.count.toNat * (blueOf c).toNat

/-- The palette entry of such a leaf is that colour (R643). -/
theorem LeafData.pure_colour {d : LeafData} {c : Colour} (h : d.pure c) : d.colour = c := by
  obtain ⟨h0, h1, h2, h3⟩ := h
  have key : ∀ (b : Byte) (sum : BitVec 40), sum.toNat = d.count.toNat * b.toNat → meanOf sum d.count = b := by
    intro b sum hs
    unfold meanOf
    rw [hs, Nat.mul_div_cancel_left _ h0]
    simp
  unfold LeafData.colour
  rw [key _ _ h1, key _ _ h2, key _ _ h3, rgb_channels]

theorem LeafData.fresh_pure (c : Colour) (q : Nat) : ((LeafData.fresh q).accumulate c).pure c := by
  have hr := (redOf c).isLt
  have hg := (greenOf c).isLt
  have hb := (blueOf c).isLt
  refine ⟨?_, ?_, ?_, ?_⟩ <;> simp [LeafData.fresh, LeafData.accumulate] <;> omega

theorem LeafData.accumulate_pure {d : LeafData} {c : Colour} (h : d.pure c) (hlt : d.count.toNat + 1 < 2 ^ 32) :
    (d.accumulate c).pure c := by
  obtain ⟨h0, h1, h2, h3⟩ := h
  have hr := (redOf c).isLt
  have hg := (greenOf c).isLt
  have hb := (blueOf c).isLt
  have b1 : d.count.toNat * (redOf c).toNat ≤ d.count.toNat * 255 := Nat.mul_le_mul_left _ (by omega)
  have b2 : d.count.toNat * (greenOf c).toNat ≤ d.count.toNat * 255 := Nat.mul_le_mul_left _ (by omega)
  have b3 : d.count.toNat * (blueOf c).toNat ≤ d.count.toNat * 255 := Nat.mul_le_mul_left _ (by omega)
  obtain ⟨-, e0, e1, e2, e3⟩ := LeafData.accumulate_spec c hlt ⟨by omega, by omega, by omega⟩
  refine ⟨by omega, ?_, ?_, ?_⟩
  · rw [e0, e1, h1, Nat.add_mul, Nat.one_mul]
  · rw [e0, e2, h2, Nat.add_mul, Nat.one_mul]
  · rw [e0, e3, h3, Nat.add_mul, Nat.one_mul]

/-- An octree that has only been added to: every leaf is at level 8 and pure, and there are as many leaves as
colours. -/
structure Octree.Exact (t : Octree) (seen : List Colour) : Prop where
  deep : t.root.deep 8
  pure : ∀ c d, t.root.leafAt (pathOf c) = some d → d.pure c
  mem : ∀ c, (t.root.leafAt (pathOf c)).isSome = true ↔ c ∈ seen
  nodup : seen.Nodup
  count : t.leafCount = seen.length

theorem Octree.empty_exact : Octree.empty.Exact [] where
  deep := ⟨by omega, trivial, trivial, trivial, trivial, trivial, trivial, trivial, trivial⟩
  pure := by
    intro c d h
    have : Octree.empty.root.leafAt (pathOf c) = none := by
      unfold pathOf
      rw [Node.leafAt_cons rfl]
      cases keyAt c 0 <;> rfl
    rw [this] at h
    cases h
  mem := by
    intro c
    have : Octree.empty.root.leafAt (pathOf c) = none := by
      unfold pathOf
      rw [Node.leafAt_cons rfl]
      cases keyAt c 0 <;> rfl
    simp [this]
  nodup := List.nodup_nil
  count := rfl

theorem Node.leafAt_count_le (n : Node) (ks : Path) (d : LeafData) (h : n.leafAt ks = some d) : d.count.toNat ≤ n.pixels := by
  induction ks generalizing n with
  | nil =>
    cases n with
    | empty => cases h
    | leaf d' => cases h; exact Nat.le_refl _
    | branch => cases h
  | cons k ks ih =>
    cases n with
    | empty => cases h
    | leaf d' => cases h; exact Nat.le_refl _
    | branch q c0 c1 c2 c3 c4 c5 c6 c7 =>
      exact Nat.le_trans (ih _ h) (Node.child_pixels_le _ k)

theorem Octree.descend_exact {cap : Nat} {t : Octree} {seen : List Colour} (h : t.Sound cap) (he : t.Exact seen)
    (c : Colour) (htot : t.total + 1 ≤ maxTotal) :
    (t.descend c).Exact (if c ∈ seen then seen else c :: seen) := by
  obtain ⟨d1, d2⟩ := Node.insert_deep c t.nextSeq (pathOf c) t.root he.deep
  obtain ⟨l1, l2⟩ := Node.leafAt_insert_self c t.nextSeq (pathOf c) t.root 0 h.shape rfl
  have hother : ∀ e, e ≠ c → (t.descend c).root.leafAt (pathOf e) = t.root.leafAt (pathOf e) := by
    intro e hne
    exact d2 (pathOf e) rfl (fun e' => hne (pathOf_inj e'))
  have hself : ((t.descend c).root.leafAt (pathOf c)).isSome = true := Octree.descend_leafAt h c
  refine ⟨d1, ?_, ?_, ?_, ?_⟩
  · intro e d hd
    by_cases hec : e = c
    · subst hec
      have hd' : (t.root.insert e t.nextSeq (pathOf e)).leafAt (pathOf e) = some d := hd
      cases e0 : t.root.leafAt (pathOf e) with
      | none =>
        obtain ⟨q', hq, -⟩ := l1 e0
        rw [hq] at hd'
        cases hd'
        exact LeafData.fresh_pure e q'
      | some d0 =>
        rw [(l2 d0 e0).1] at hd'
        cases hd'
        refine LeafData.accumulate_pure (he.pure e d0 e0) ?_
        have := Node.leafAt_count_le _ _ _ e0
        have := h.total
        have : maxTotal = 2 ^ 32 - 1 := rfl
        omega
    · rw [hother e hec] at hd
      exact he.pure e d hd
  · intro e
    by_cases hec : e = c
    · subst hec
      simp only [hself, true_iff]
      split <;> simp [*]
    · rw [hother e hec, he.mem e]
      split <;> simp [hec]
  · split
    · exact he.nodup
    · exact List.nodup_cons.2 ⟨‹_›, he.nodup⟩
  · show (if t.root.need (pathOf c) = 0 then t.leafCount else t.leafCount + 1) = _
    have := he.mem c
    cases e0 : t.root.leafAt (pathOf c) with
    | none =>
      obtain ⟨q', -, hq⟩ := l1 e0
      rw [e0] at this
      rw [if_neg hq, if_neg (by simpa using this), he.count]
      rfl
    | some d0 =>
      rw [e0] at this
      rw [if_pos (l2 d0 e0).2, if_pos (by simpa using this), he.count]

/-- After pass 1 the leaves are the distinct colours of the source (R884). -/
theorem build_exact {s : State} {f : PixFmt} (hs : SourceLegal s f) (hcap : 1 ≤ s.cfg.nodeCapacity) {T : Octree}
    (hT : forPixels (buildPixel s f) (srcPixels s) Octree.empty = .ok T) :
    ∃ seen, T.Exact seen ∧ ∀ c ∈ seen, ∃ x y, x < srcW s ∧ y < srcH s ∧ sourceColour s f x y = c := by
  have h := forPixels_keeps
    (P := fun T : Octree => T.Sound s.cfg.nodeCapacity ∧ T.phase = .build ∧
      ∃ seen, T.Exact seen ∧ ∀ c ∈ seen, ∃ x y, x < srcW s ∧ y < srcH s ∧ sourceColour s f x y = c)
    ⟨Octree.empty_sound hcap, rfl, [], Octree.empty_exact, by simp⟩ (by
      rintro x y T T' hxy ⟨h1, h2, seen, h3, h4⟩ hb
      obtain ⟨hx, hy⟩ := mem_rowMajor.1 hxy
      rw [buildPixel_eq hs] at hb
      obtain ⟨g1, g2, rfl, g3, -⟩ := Octree.addColour_spec h1 h2 hb
      refine ⟨g1, g2, _, Octree.descend_exact h1 h3 _ g3, ?_⟩
      intro c hc
      split at hc
      · exact h4 c hc
      · rcases List.mem_cons.1 hc with rfl | hc
        · exact ⟨x, y, hx, hy, rfl⟩
        · exact h4 c hc) hT
  exact h.2.2

/-- A palette made without a reduction gives every leaf's colour back (R643, R884). -/
theorem Octree.extract_exact {m : Nat} {t t' : Octree} {seen : List Colour} {pal : List Colour} (he : t.Exact seen)
    (hm : seen.length ≤ m) (hp : t.createPalette m = .ok (t', pal))
    {c : Colour} (hc : c ∈ seen) :
    ∃ i, i < pal.length ∧ t'.root.lookup (pathOf c) = some (BitVec.ofNat 8 i) ∧ pal[i]? = some c := by
  unfold Octree.createPalette at hp
  rw [Octree.reduceTo_of_le (by rw [he.count]; exact hm)] at hp
  cases hp
  obtain ⟨d, hd⟩ := Option.isSome_iff_exists.1 ((he.mem c).2 hc)
  obtain ⟨i, -, i2, i3, i4⟩ := Node.visit_leafAt t.root [] (pathOf c) d hd
  refine ⟨i, i2, ?_, ?_⟩
  · show (t.root.visit []).1.lookup (pathOf c) = _
    rw [Node.lookup_eq, i3]
    rfl
  · show (t.root.visit []).2[i]? = _
    rw [i4, LeafData.pure_colour (he.pure c d hd)]

end Sys2Proof.Machine
end

