-- ==== Sys2Proof/Laws/State.lean ====
section
/-! SUPPORT. What each named update of the state leaves in each field. -/

namespace Sys2Proof.Machine

variable (s : State)

/-! ### `takeError` -/

@[simp] theorem takeError_cfg (e : CmdError) : (takeError e s).cfg = s.cfg := rfl
@[simp] theorem takeError_rstN (e : CmdError) : (takeError e s).rstN = s.rstN := rfl
@[simp] theorem takeError_inflight (e : CmdError) : (takeError e s).inflight = none := rfl
@[simp] theorem takeError_done (e : CmdError) : (takeError e s).done = true := rfl
@[simp] theorem takeError_ovr (e : CmdError) : (takeError e s).ovr = s.ovr := rfl
@[simp] theorem takeError_err (e : CmdError) : (takeError e s).err = e.code := rfl
@[simp] theorem takeError_errInfo (e : CmdError) : (takeError e s).errInfo = e.subcode := rfl
@[simp] theorem takeError_cmd (e : CmdError) : (takeError e s).cmd = s.cmd := rfl
@[simp] theorem takeError_arg0 (e : CmdError) : (takeError e s).arg0 = s.arg0 := rfl
@[simp] theorem takeError_arg1 (e : CmdError) : (takeError e s).arg1 = s.arg1 := rfl
@[simp] theorem takeError_arg2 (e : CmdError) : (takeError e s).arg2 = s.arg2 := rfl
@[simp] theorem takeError_result0 (e : CmdError) : (takeError e s).result0 = s.result0 := rfl
@[simp] theorem takeError_result1 (e : CmdError) : (takeError e s).result1 = s.result1 := rfl
@[simp] theorem takeError_src (e : CmdError) : (takeError e s).src = s.src := rfl
@[simp] theorem takeError_dst (e : CmdError) : (takeError e s).dst = s.dst := rfl
@[simp] theorem takeError_srcPal (e : CmdError) : (takeError e s).srcPal = s.srcPal := rfl
@[simp] theorem takeError_dstPal (e : CmdError) : (takeError e s).dstPal = s.dstPal := rfl
@[simp] theorem takeError_oct (e : CmdError) : (takeError e s).oct = s.oct := rfl
@[simp] theorem takeError_fmem (e : CmdError) : (takeError e s).fmem = s.fmem := rfl
@[simp] theorem takeError_inputs (e : CmdError) : (takeError e s).inputs = s.inputs := rfl
@[simp] theorem takeError_response (e : CmdError) : (takeError e s).response = s.response := rfl
@[simp] theorem takeError_draws (e : CmdError) : (takeError e s).draws = s.draws := rfl

/-! ### `finish` -/

@[simp] theorem finish_cfg : (finish s).cfg = s.cfg := rfl
@[simp] theorem finish_rstN : (finish s).rstN = s.rstN := rfl
@[simp] theorem finish_inflight : (finish s).inflight = none := rfl
@[simp] theorem finish_done : (finish s).done = true := rfl
@[simp] theorem finish_ovr : (finish s).ovr = s.ovr := rfl
@[simp] theorem finish_err : (finish s).err = .none := rfl
@[simp] theorem finish_errInfo : (finish s).errInfo = 0 := rfl
@[simp] theorem finish_cmd : (finish s).cmd = s.cmd := rfl
@[simp] theorem finish_arg0 : (finish s).arg0 = s.arg0 := rfl
@[simp] theorem finish_arg1 : (finish s).arg1 = s.arg1 := rfl
@[simp] theorem finish_arg2 : (finish s).arg2 = s.arg2 := rfl
@[simp] theorem finish_result0 : (finish s).result0 = s.result0 := rfl
@[simp] theorem finish_result1 : (finish s).result1 = s.result1 := rfl
@[simp] theorem finish_src : (finish s).src = s.src := rfl
@[simp] theorem finish_dst : (finish s).dst = s.dst := rfl
@[simp] theorem finish_srcPal : (finish s).srcPal = s.srcPal := rfl
@[simp] theorem finish_dstPal : (finish s).dstPal = s.dstPal := rfl
@[simp] theorem finish_oct : (finish s).oct = s.oct := rfl
@[simp] theorem finish_fmem : (finish s).fmem = s.fmem := rfl
@[simp] theorem finish_inputs : (finish s).inputs = s.inputs := rfl
@[simp] theorem finish_response : (finish s).response = s.response := rfl
@[simp] theorem finish_draws : (finish s).draws = s.draws := rfl

/-! ### `acceptCommand` -/

@[simp] theorem acceptCommand_cfg (w : Word) : (acceptCommand w s).cfg = s.cfg := rfl
@[simp] theorem acceptCommand_rstN (w : Word) : (acceptCommand w s).rstN = s.rstN := rfl
@[simp] theorem acceptCommand_inflight (w : Word) : (acceptCommand w s).inflight = some w := rfl
@[simp] theorem acceptCommand_done (w : Word) : (acceptCommand w s).done = false := rfl
@[simp] theorem acceptCommand_ovr (w : Word) : (acceptCommand w s).ovr = s.ovr := rfl
@[simp] theorem acceptCommand_err (w : Word) : (acceptCommand w s).err = .none := rfl
@[simp] theorem acceptCommand_errInfo (w : Word) : (acceptCommand w s).errInfo = s.errInfo := rfl
@[simp] theorem acceptCommand_cmd (w : Word) : (acceptCommand w s).cmd = w := rfl
@[simp] theorem acceptCommand_arg0 (w : Word) : (acceptCommand w s).arg0 = s.arg0 := rfl
@[simp] theorem acceptCommand_arg1 (w : Word) : (acceptCommand w s).arg1 = s.arg1 := rfl
@[simp] theorem acceptCommand_arg2 (w : Word) : (acceptCommand w s).arg2 = s.arg2 := rfl
@[simp] theorem acceptCommand_result0 (w : Word) : (acceptCommand w s).result0 = s.result0 := rfl
@[simp] theorem acceptCommand_result1 (w : Word) : (acceptCommand w s).result1 = s.result1 := rfl
@[simp] theorem acceptCommand_src (w : Word) : (acceptCommand w s).src = s.src := rfl
@[simp] theorem acceptCommand_dst (w : Word) : (acceptCommand w s).dst = s.dst := rfl
@[simp] theorem acceptCommand_srcPal (w : Word) : (acceptCommand w s).srcPal = s.srcPal := rfl
@[simp] theorem acceptCommand_dstPal (w : Word) : (acceptCommand w s).dstPal = s.dstPal := rfl
@[simp] theorem acceptCommand_oct (w : Word) : (acceptCommand w s).oct = s.oct := rfl
@[simp] theorem acceptCommand_fmem (w : Word) : (acceptCommand w s).fmem = s.fmem := rfl
@[simp] theorem acceptCommand_inputs (w : Word) : (acceptCommand w s).inputs = s.inputs := rfl
@[simp] theorem acceptCommand_response (w : Word) : (acceptCommand w s).response = s.response := rfl
@[simp] theorem acceptCommand_draws (w : Word) : (acceptCommand w s).draws = s.draws := rfl

/-! ### `setResult0` -/

@[simp] theorem setResult0_cfg (v : Word) : (setResult0 v s).cfg = s.cfg := rfl
@[simp] theorem setResult0_rstN (v : Word) : (setResult0 v s).rstN = s.rstN := rfl
@[simp] theorem setResult0_inflight (v : Word) : (setResult0 v s).inflight = s.inflight := rfl
@[simp] theorem setResult0_done (v : Word) : (setResult0 v s).done = s.done := rfl
@[simp] theorem setResult0_ovr (v : Word) : (setResult0 v s).ovr = s.ovr := rfl
@[simp] theorem setResult0_err (v : Word) : (setResult0 v s).err = s.err := rfl
@[simp] theorem setResult0_errInfo (v : Word) : (setResult0 v s).errInfo = s.errInfo := rfl
@[simp] theorem setResult0_cmd (v : Word) : (setResult0 v s).cmd = s.cmd := rfl
@[simp] theorem setResult0_arg0 (v : Word) : (setResult0 v s).arg0 = s.arg0 := rfl
@[simp] theorem setResult0_arg1 (v : Word) : (setResult0 v s).arg1 = s.arg1 := rfl
@[simp] theorem setResult0_arg2 (v : Word) : (setResult0 v s).arg2 = s.arg2 := rfl
@[simp] theorem setResult0_result0 (v : Word) : (setResult0 v s).result0 = v := rfl
@[simp] theorem setResult0_result1 (v : Word) : (setResult0 v s).result1 = s.result1 := rfl
@[simp] theorem setResult0_src (v : Word) : (setResult0 v s).src = s.src := rfl
@[simp] theorem setResult0_dst (v : Word) : (setResult0 v s).dst = s.dst := rfl
@[simp] theorem setResult0_srcPal (v : Word) : (setResult0 v s).srcPal = s.srcPal := rfl
@[simp] theorem setResult0_dstPal (v : Word) : (setResult0 v s).dstPal = s.dstPal := rfl
@[simp] theorem setResult0_oct (v : Word) : (setResult0 v s).oct = s.oct := rfl
@[simp] theorem setResult0_fmem (v : Word) : (setResult0 v s).fmem = s.fmem := rfl
@[simp] theorem setResult0_inputs (v : Word) : (setResult0 v s).inputs = s.inputs := rfl
@[simp] theorem setResult0_response (v : Word) : (setResult0 v s).response = s.response := rfl
@[simp] theorem setResult0_draws (v : Word) : (setResult0 v s).draws = s.draws := rfl

/-! ### `setResult1` -/

@[simp] theorem setResult1_cfg (v : Word) : (setResult1 v s).cfg = s.cfg := rfl
@[simp] theorem setResult1_rstN (v : Word) : (setResult1 v s).rstN = s.rstN := rfl
@[simp] theorem setResult1_inflight (v : Word) : (setResult1 v s).inflight = s.inflight := rfl
@[simp] theorem setResult1_done (v : Word) : (setResult1 v s).done = s.done := rfl
@[simp] theorem setResult1_ovr (v : Word) : (setResult1 v s).ovr = s.ovr := rfl
@[simp] theorem setResult1_err (v : Word) : (setResult1 v s).err = s.err := rfl
@[simp] theorem setResult1_errInfo (v : Word) : (setResult1 v s).errInfo = s.errInfo := rfl
@[simp] theorem setResult1_cmd (v : Word) : (setResult1 v s).cmd = s.cmd := rfl
@[simp] theorem setResult1_arg0 (v : Word) : (setResult1 v s).arg0 = s.arg0 := rfl
@[simp] theorem setResult1_arg1 (v : Word) : (setResult1 v s).arg1 = s.arg1 := rfl
@[simp] theorem setResult1_arg2 (v : Word) : (setResult1 v s).arg2 = s.arg2 := rfl
@[simp] theorem setResult1_result0 (v : Word) : (setResult1 v s).result0 = s.result0 := rfl
@[simp] theorem setResult1_result1 (v : Word) : (setResult1 v s).result1 = v := rfl
@[simp] theorem setResult1_src (v : Word) : (setResult1 v s).src = s.src := rfl
@[simp] theorem setResult1_dst (v : Word) : (setResult1 v s).dst = s.dst := rfl
@[simp] theorem setResult1_srcPal (v : Word) : (setResult1 v s).srcPal = s.srcPal := rfl
@[simp] theorem setResult1_dstPal (v : Word) : (setResult1 v s).dstPal = s.dstPal := rfl
@[simp] theorem setResult1_oct (v : Word) : (setResult1 v s).oct = s.oct := rfl
@[simp] theorem setResult1_fmem (v : Word) : (setResult1 v s).fmem = s.fmem := rfl
@[simp] theorem setResult1_inputs (v : Word) : (setResult1 v s).inputs = s.inputs := rfl
@[simp] theorem setResult1_response (v : Word) : (setResult1 v s).response = s.response := rfl
@[simp] theorem setResult1_draws (v : Word) : (setResult1 v s).draws = s.draws := rfl

/-! ### `setLeafResult` -/

@[simp] theorem setLeafResult_cfg (t : Octree) : (setLeafResult t s).cfg = s.cfg := rfl
@[simp] theorem setLeafResult_rstN (t : Octree) : (setLeafResult t s).rstN = s.rstN := rfl
@[simp] theorem setLeafResult_inflight (t : Octree) : (setLeafResult t s).inflight = s.inflight := rfl
@[simp] theorem setLeafResult_done (t : Octree) : (setLeafResult t s).done = s.done := rfl
@[simp] theorem setLeafResult_ovr (t : Octree) : (setLeafResult t s).ovr = s.ovr := rfl
@[simp] theorem setLeafResult_err (t : Octree) : (setLeafResult t s).err = s.err := rfl
@[simp] theorem setLeafResult_errInfo (t : Octree) : (setLeafResult t s).errInfo = s.errInfo := rfl
@[simp] theorem setLeafResult_cmd (t : Octree) : (setLeafResult t s).cmd = s.cmd := rfl
@[simp] theorem setLeafResult_arg0 (t : Octree) : (setLeafResult t s).arg0 = s.arg0 := rfl
@[simp] theorem setLeafResult_arg1 (t : Octree) : (setLeafResult t s).arg1 = s.arg1 := rfl
@[simp] theorem setLeafResult_arg2 (t : Octree) : (setLeafResult t s).arg2 = s.arg2 := rfl
@[simp] theorem setLeafResult_result0 (t : Octree) : (setLeafResult t s).result0 = BitVec.ofNat 32 t.leafCount := rfl
@[simp] theorem setLeafResult_result1 (t : Octree) : (setLeafResult t s).result1 = s.result1 := rfl
@[simp] theorem setLeafResult_src (t : Octree) : (setLeafResult t s).src = s.src := rfl
@[simp] theorem setLeafResult_dst (t : Octree) : (setLeafResult t s).dst = s.dst := rfl
@[simp] theorem setLeafResult_srcPal (t : Octree) : (setLeafResult t s).srcPal = s.srcPal := rfl
@[simp] theorem setLeafResult_dstPal (t : Octree) : (setLeafResult t s).dstPal = s.dstPal := rfl
@[simp] theorem setLeafResult_oct (t : Octree) : (setLeafResult t s).oct = s.oct := rfl
@[simp] theorem setLeafResult_fmem (t : Octree) : (setLeafResult t s).fmem = s.fmem := rfl
@[simp] theorem setLeafResult_inputs (t : Octree) : (setLeafResult t s).inputs = s.inputs := rfl
@[simp] theorem setLeafResult_response (t : Octree) : (setLeafResult t s).response = s.response := rfl
@[simp] theorem setLeafResult_draws (t : Octree) : (setLeafResult t s).draws = s.draws := rfl

/-! ### `setFmem` -/

@[simp] theorem setFmem_cfg (m : List Host.Cell) : (setFmem m s).cfg = s.cfg := rfl
@[simp] theorem setFmem_rstN (m : List Host.Cell) : (setFmem m s).rstN = s.rstN := rfl
@[simp] theorem setFmem_inflight (m : List Host.Cell) : (setFmem m s).inflight = s.inflight := rfl
@[simp] theorem setFmem_done (m : List Host.Cell) : (setFmem m s).done = s.done := rfl
@[simp] theorem setFmem_ovr (m : List Host.Cell) : (setFmem m s).ovr = s.ovr := rfl
@[simp] theorem setFmem_err (m : List Host.Cell) : (setFmem m s).err = s.err := rfl
@[simp] theorem setFmem_errInfo (m : List Host.Cell) : (setFmem m s).errInfo = s.errInfo := rfl
@[simp] theorem setFmem_cmd (m : List Host.Cell) : (setFmem m s).cmd = s.cmd := rfl
@[simp] theorem setFmem_arg0 (m : List Host.Cell) : (setFmem m s).arg0 = s.arg0 := rfl
@[simp] theorem setFmem_arg1 (m : List Host.Cell) : (setFmem m s).arg1 = s.arg1 := rfl
@[simp] theorem setFmem_arg2 (m : List Host.Cell) : (setFmem m s).arg2 = s.arg2 := rfl
@[simp] theorem setFmem_result0 (m : List Host.Cell) : (setFmem m s).result0 = s.result0 := rfl
@[simp] theorem setFmem_result1 (m : List Host.Cell) : (setFmem m s).result1 = s.result1 := rfl
@[simp] theorem setFmem_src (m : List Host.Cell) : (setFmem m s).src = s.src := rfl
@[simp] theorem setFmem_dst (m : List Host.Cell) : (setFmem m s).dst = s.dst := rfl
@[simp] theorem setFmem_srcPal (m : List Host.Cell) : (setFmem m s).srcPal = s.srcPal := rfl
@[simp] theorem setFmem_dstPal (m : List Host.Cell) : (setFmem m s).dstPal = s.dstPal := rfl
@[simp] theorem setFmem_oct (m : List Host.Cell) : (setFmem m s).oct = s.oct := rfl
@[simp] theorem setFmem_fmem (m : List Host.Cell) : (setFmem m s).fmem = m := rfl
@[simp] theorem setFmem_inputs (m : List Host.Cell) : (setFmem m s).inputs = s.inputs := rfl
@[simp] theorem setFmem_response (m : List Host.Cell) : (setFmem m s).response = s.response := rfl
@[simp] theorem setFmem_draws (m : List Host.Cell) : (setFmem m s).draws = s.draws := rfl

/-! ### `setOct` -/

@[simp] theorem setOct_cfg (t : Octree) : (setOct t s).cfg = s.cfg := rfl
@[simp] theorem setOct_rstN (t : Octree) : (setOct t s).rstN = s.rstN := rfl
@[simp] theorem setOct_inflight (t : Octree) : (setOct t s).inflight = s.inflight := rfl
@[simp] theorem setOct_done (t : Octree) : (setOct t s).done = s.done := rfl
@[simp] theorem setOct_ovr (t : Octree) : (setOct t s).ovr = s.ovr := rfl
@[simp] theorem setOct_err (t : Octree) : (setOct t s).err = s.err := rfl
@[simp] theorem setOct_errInfo (t : Octree) : (setOct t s).errInfo = s.errInfo := rfl
@[simp] theorem setOct_cmd (t : Octree) : (setOct t s).cmd = s.cmd := rfl
@[simp] theorem setOct_arg0 (t : Octree) : (setOct t s).arg0 = s.arg0 := rfl
@[simp] theorem setOct_arg1 (t : Octree) : (setOct t s).arg1 = s.arg1 := rfl
@[simp] theorem setOct_arg2 (t : Octree) : (setOct t s).arg2 = s.arg2 := rfl
@[simp] theorem setOct_result0 (t : Octree) : (setOct t s).result0 = s.result0 := rfl
@[simp] theorem setOct_result1 (t : Octree) : (setOct t s).result1 = s.result1 := rfl
@[simp] theorem setOct_src (t : Octree) : (setOct t s).src = s.src := rfl
@[simp] theorem setOct_dst (t : Octree) : (setOct t s).dst = s.dst := rfl
@[simp] theorem setOct_srcPal (t : Octree) : (setOct t s).srcPal = s.srcPal := rfl
@[simp] theorem setOct_dstPal (t : Octree) : (setOct t s).dstPal = s.dstPal := rfl
@[simp] theorem setOct_oct (t : Octree) : (setOct t s).oct = t := rfl
@[simp] theorem setOct_fmem (t : Octree) : (setOct t s).fmem = s.fmem := rfl
@[simp] theorem setOct_inputs (t : Octree) : (setOct t s).inputs = s.inputs := rfl
@[simp] theorem setOct_response (t : Octree) : (setOct t s).response = s.response := rfl
@[simp] theorem setOct_draws (t : Octree) : (setOct t s).draws = s.draws := rfl

/-! ### `setDstPal` -/

@[simp] theorem setDstPal_cfg (p : List Colour) : (setDstPal p s).cfg = s.cfg := rfl
@[simp] theorem setDstPal_rstN (p : List Colour) : (setDstPal p s).rstN = s.rstN := rfl
@[simp] theorem setDstPal_inflight (p : List Colour) : (setDstPal p s).inflight = s.inflight := rfl
@[simp] theorem setDstPal_done (p : List Colour) : (setDstPal p s).done = s.done := rfl
@[simp] theorem setDstPal_ovr (p : List Colour) : (setDstPal p s).ovr = s.ovr := rfl
@[simp] theorem setDstPal_err (p : List Colour) : (setDstPal p s).err = s.err := rfl
@[simp] theorem setDstPal_errInfo (p : List Colour) : (setDstPal p s).errInfo = s.errInfo := rfl
@[simp] theorem setDstPal_cmd (p : List Colour) : (setDstPal p s).cmd = s.cmd := rfl
@[simp] theorem setDstPal_arg0 (p : List Colour) : (setDstPal p s).arg0 = s.arg0 := rfl
@[simp] theorem setDstPal_arg1 (p : List Colour) : (setDstPal p s).arg1 = s.arg1 := rfl
@[simp] theorem setDstPal_arg2 (p : List Colour) : (setDstPal p s).arg2 = s.arg2 := rfl
@[simp] theorem setDstPal_result0 (p : List Colour) : (setDstPal p s).result0 = s.result0 := rfl
@[simp] theorem setDstPal_result1 (p : List Colour) : (setDstPal p s).result1 = s.result1 := rfl
@[simp] theorem setDstPal_src (p : List Colour) : (setDstPal p s).src = s.src := rfl
@[simp] theorem setDstPal_dst (p : List Colour) : (setDstPal p s).dst = s.dst := rfl
@[simp] theorem setDstPal_srcPal (p : List Colour) : (setDstPal p s).srcPal = s.srcPal := rfl
@[simp] theorem setDstPal_dstPal (p : List Colour) : (setDstPal p s).dstPal = Memory.setList s.dstPal 0 p := rfl
@[simp] theorem setDstPal_oct (p : List Colour) : (setDstPal p s).oct = s.oct := rfl
@[simp] theorem setDstPal_fmem (p : List Colour) : (setDstPal p s).fmem = s.fmem := rfl
@[simp] theorem setDstPal_inputs (p : List Colour) : (setDstPal p s).inputs = s.inputs := rfl
@[simp] theorem setDstPal_response (p : List Colour) : (setDstPal p s).response = s.response := rfl
@[simp] theorem setDstPal_draws (p : List Colour) : (setDstPal p s).draws = s.draws := rfl

/-! ### `setDstPalLen` -/

@[simp] theorem setDstPalLen_cfg (n : Nat) : (setDstPalLen n s).cfg = s.cfg := rfl
@[simp] theorem setDstPalLen_rstN (n : Nat) : (setDstPalLen n s).rstN = s.rstN := rfl
@[simp] theorem setDstPalLen_inflight (n : Nat) : (setDstPalLen n s).inflight = s.inflight := rfl
@[simp] theorem setDstPalLen_done (n : Nat) : (setDstPalLen n s).done = s.done := rfl
@[simp] theorem setDstPalLen_ovr (n : Nat) : (setDstPalLen n s).ovr = s.ovr := rfl
@[simp] theorem setDstPalLen_err (n : Nat) : (setDstPalLen n s).err = s.err := rfl
@[simp] theorem setDstPalLen_errInfo (n : Nat) : (setDstPalLen n s).errInfo = s.errInfo := rfl
@[simp] theorem setDstPalLen_cmd (n : Nat) : (setDstPalLen n s).cmd = s.cmd := rfl
@[simp] theorem setDstPalLen_arg0 (n : Nat) : (setDstPalLen n s).arg0 = s.arg0 := rfl
@[simp] theorem setDstPalLen_arg1 (n : Nat) : (setDstPalLen n s).arg1 = s.arg1 := rfl
@[simp] theorem setDstPalLen_arg2 (n : Nat) : (setDstPalLen n s).arg2 = s.arg2 := rfl
@[simp] theorem setDstPalLen_result0 (n : Nat) : (setDstPalLen n s).result0 = s.result0 := rfl
@[simp] theorem setDstPalLen_result1 (n : Nat) : (setDstPalLen n s).result1 = s.result1 := rfl
@[simp] theorem setDstPalLen_src (n : Nat) : (setDstPalLen n s).src = s.src := rfl
@[simp] theorem setDstPalLen_dst (n : Nat) : (setDstPalLen n s).dst = { s.dst with palLen := BitVec.ofNat 9 n } := rfl
@[simp] theorem setDstPalLen_srcPal (n : Nat) : (setDstPalLen n s).srcPal = s.srcPal := rfl
@[simp] theorem setDstPalLen_dstPal (n : Nat) : (setDstPalLen n s).dstPal = s.dstPal := rfl
@[simp] theorem setDstPalLen_oct (n : Nat) : (setDstPalLen n s).oct = s.oct := rfl
@[simp] theorem setDstPalLen_fmem (n : Nat) : (setDstPalLen n s).fmem = s.fmem := rfl
@[simp] theorem setDstPalLen_inputs (n : Nat) : (setDstPalLen n s).inputs = s.inputs := rfl
@[simp] theorem setDstPalLen_response (n : Nat) : (setDstPalLen n s).response = s.response := rfl
@[simp] theorem setDstPalLen_draws (n : Nat) : (setDstPalLen n s).draws = s.draws := rfl

/-! ### `nextTurn` -/

@[simp] theorem nextTurn_cfg (r : List Input) : (nextTurn r s).cfg = s.cfg := rfl
@[simp] theorem nextTurn_rstN (r : List Input) : (nextTurn r s).rstN = s.rstN := rfl
@[simp] theorem nextTurn_inflight (r : List Input) : (nextTurn r s).inflight = s.inflight := rfl
@[simp] theorem nextTurn_done (r : List Input) : (nextTurn r s).done = s.done := rfl
@[simp] theorem nextTurn_ovr (r : List Input) : (nextTurn r s).ovr = s.ovr := rfl
@[simp] theorem nextTurn_err (r : List Input) : (nextTurn r s).err = s.err := rfl
@[simp] theorem nextTurn_errInfo (r : List Input) : (nextTurn r s).errInfo = s.errInfo := rfl
@[simp] theorem nextTurn_cmd (r : List Input) : (nextTurn r s).cmd = s.cmd := rfl
@[simp] theorem nextTurn_arg0 (r : List Input) : (nextTurn r s).arg0 = s.arg0 := rfl
@[simp] theorem nextTurn_arg1 (r : List Input) : (nextTurn r s).arg1 = s.arg1 := rfl
@[simp] theorem nextTurn_arg2 (r : List Input) : (nextTurn r s).arg2 = s.arg2 := rfl
@[simp] theorem nextTurn_result0 (r : List Input) : (nextTurn r s).result0 = s.result0 := rfl
@[simp] theorem nextTurn_result1 (r : List Input) : (nextTurn r s).result1 = s.result1 := rfl
@[simp] theorem nextTurn_src (r : List Input) : (nextTurn r s).src = s.src := rfl
@[simp] theorem nextTurn_dst (r : List Input) : (nextTurn r s).dst = s.dst := rfl
@[simp] theorem nextTurn_srcPal (r : List Input) : (nextTurn r s).srcPal = s.srcPal := rfl
@[simp] theorem nextTurn_dstPal (r : List Input) : (nextTurn r s).dstPal = s.dstPal := rfl
@[simp] theorem nextTurn_oct (r : List Input) : (nextTurn r s).oct = s.oct := rfl
@[simp] theorem nextTurn_fmem (r : List Input) : (nextTurn r s).fmem = s.fmem := rfl
@[simp] theorem nextTurn_inputs (r : List Input) : (nextTurn r s).inputs = r := rfl
@[simp] theorem nextTurn_response (r : List Input) : (nextTurn r s).response = s.response := rfl
@[simp] theorem nextTurn_draws (r : List Input) : (nextTurn r s).draws = s.draws + 1 := rfl

/-! ### `answer` -/

@[simp] theorem answer_cfg (b : BusResponse) : (answer b s).cfg = s.cfg := rfl
@[simp] theorem answer_rstN (b : BusResponse) : (answer b s).rstN = s.rstN := rfl
@[simp] theorem answer_inflight (b : BusResponse) : (answer b s).inflight = s.inflight := rfl
@[simp] theorem answer_done (b : BusResponse) : (answer b s).done = s.done := rfl
@[simp] theorem answer_ovr (b : BusResponse) : (answer b s).ovr = s.ovr := rfl
@[simp] theorem answer_err (b : BusResponse) : (answer b s).err = s.err := rfl
@[simp] theorem answer_errInfo (b : BusResponse) : (answer b s).errInfo = s.errInfo := rfl
@[simp] theorem answer_cmd (b : BusResponse) : (answer b s).cmd = s.cmd := rfl
@[simp] theorem answer_arg0 (b : BusResponse) : (answer b s).arg0 = s.arg0 := rfl
@[simp] theorem answer_arg1 (b : BusResponse) : (answer b s).arg1 = s.arg1 := rfl
@[simp] theorem answer_arg2 (b : BusResponse) : (answer b s).arg2 = s.arg2 := rfl
@[simp] theorem answer_result0 (b : BusResponse) : (answer b s).result0 = s.result0 := rfl
@[simp] theorem answer_result1 (b : BusResponse) : (answer b s).result1 = s.result1 := rfl
@[simp] theorem answer_src (b : BusResponse) : (answer b s).src = s.src := rfl
@[simp] theorem answer_dst (b : BusResponse) : (answer b s).dst = s.dst := rfl
@[simp] theorem answer_srcPal (b : BusResponse) : (answer b s).srcPal = s.srcPal := rfl
@[simp] theorem answer_dstPal (b : BusResponse) : (answer b s).dstPal = s.dstPal := rfl
@[simp] theorem answer_oct (b : BusResponse) : (answer b s).oct = s.oct := rfl
@[simp] theorem answer_fmem (b : BusResponse) : (answer b s).fmem = s.fmem := rfl
@[simp] theorem answer_inputs (b : BusResponse) : (answer b s).inputs = s.inputs := rfl
@[simp] theorem answer_response (b : BusResponse) : (answer b s).response = some b := rfl
@[simp] theorem answer_draws (b : BusResponse) : (answer b s).draws = s.draws := rfl

/-! ### `writeStatus` -/

@[simp] theorem writeStatus_cfg (v : Word) : (writeStatus v s).cfg = s.cfg := rfl
@[simp] theorem writeStatus_rstN (v : Word) : (writeStatus v s).rstN = s.rstN := rfl
@[simp] theorem writeStatus_inflight (v : Word) : (writeStatus v s).inflight = s.inflight := rfl
@[simp] theorem writeStatus_done (v : Word) : (writeStatus v s).done = (s.done && !v.getLsbD 1) := rfl
@[simp] theorem writeStatus_ovr (v : Word) : (writeStatus v s).ovr = (s.ovr && !v.getLsbD 2) := rfl
@[simp] theorem writeStatus_err (v : Word) : (writeStatus v s).err = s.err := rfl
@[simp] theorem writeStatus_errInfo (v : Word) : (writeStatus v s).errInfo = s.errInfo := rfl
@[simp] theorem writeStatus_cmd (v : Word) : (writeStatus v s).cmd = s.cmd := rfl
@[simp] theorem writeStatus_arg0 (v : Word) : (writeStatus v s).arg0 = s.arg0 := rfl
@[simp] theorem writeStatus_arg1 (v : Word) : (writeStatus v s).arg1 = s.arg1 := rfl
@[simp] theorem writeStatus_arg2 (v : Word) : (writeStatus v s).arg2 = s.arg2 := rfl
@[simp] theorem writeStatus_result0 (v : Word) : (writeStatus v s).result0 = s.result0 := rfl
@[simp] theorem writeStatus_result1 (v : Word) : (writeStatus v s).result1 = s.result1 := rfl
@[simp] theorem writeStatus_src (v : Word) : (writeStatus v s).src = s.src := rfl
@[simp] theorem writeStatus_dst (v : Word) : (writeStatus v s).dst = s.dst := rfl
@[simp] theorem writeStatus_srcPal (v : Word) : (writeStatus v s).srcPal = s.srcPal := rfl
@[simp] theorem writeStatus_dstPal (v : Word) : (writeStatus v s).dstPal = s.dstPal := rfl
@[simp] theorem writeStatus_oct (v : Word) : (writeStatus v s).oct = s.oct := rfl
@[simp] theorem writeStatus_fmem (v : Word) : (writeStatus v s).fmem = s.fmem := rfl
@[simp] theorem writeStatus_inputs (v : Word) : (writeStatus v s).inputs = s.inputs := rfl
@[simp] theorem writeStatus_response (v : Word) : (writeStatus v s).response = s.response := rfl
@[simp] theorem writeStatus_draws (v : Word) : (writeStatus v s).draws = s.draws := rfl

/-! ### `setOverrun` -/

@[simp] theorem setOverrun_cfg : (setOverrun s).cfg = s.cfg := rfl
@[simp] theorem setOverrun_rstN : (setOverrun s).rstN = s.rstN := rfl
@[simp] theorem setOverrun_inflight : (setOverrun s).inflight = s.inflight := rfl
@[simp] theorem setOverrun_done : (setOverrun s).done = s.done := rfl
@[simp] theorem setOverrun_ovr : (setOverrun s).ovr = true := rfl
@[simp] theorem setOverrun_err : (setOverrun s).err = s.err := rfl
@[simp] theorem setOverrun_errInfo : (setOverrun s).errInfo = s.errInfo := rfl
@[simp] theorem setOverrun_cmd : (setOverrun s).cmd = s.cmd := rfl
@[simp] theorem setOverrun_arg0 : (setOverrun s).arg0 = s.arg0 := rfl
@[simp] theorem setOverrun_arg1 : (setOverrun s).arg1 = s.arg1 := rfl
@[simp] theorem setOverrun_arg2 : (setOverrun s).arg2 = s.arg2 := rfl
@[simp] theorem setOverrun_result0 : (setOverrun s).result0 = s.result0 := rfl
@[simp] theorem setOverrun_result1 : (setOverrun s).result1 = s.result1 := rfl
@[simp] theorem setOverrun_src : (setOverrun s).src = s.src := rfl
@[simp] theorem setOverrun_dst : (setOverrun s).dst = s.dst := rfl
@[simp] theorem setOverrun_srcPal : (setOverrun s).srcPal = s.srcPal := rfl
@[simp] theorem setOverrun_dstPal : (setOverrun s).dstPal = s.dstPal := rfl
@[simp] theorem setOverrun_oct : (setOverrun s).oct = s.oct := rfl
@[simp] theorem setOverrun_fmem : (setOverrun s).fmem = s.fmem := rfl
@[simp] theorem setOverrun_inputs : (setOverrun s).inputs = s.inputs := rfl
@[simp] theorem setOverrun_response : (setOverrun s).response = s.response := rfl
@[simp] theorem setOverrun_draws : (setOverrun s).draws = s.draws := rfl

/-! ### `commit` -/

@[simp] theorem commit_cfg (t : PixFmt) (out : Converted) : (commit s t out).cfg = s.cfg := rfl
@[simp] theorem commit_rstN (t : PixFmt) (out : Converted) : (commit s t out).rstN = s.rstN := rfl
@[simp] theorem commit_inflight (t : PixFmt) (out : Converted) : (commit s t out).inflight = s.inflight := rfl
@[simp] theorem commit_done (t : PixFmt) (out : Converted) : (commit s t out).done = s.done := rfl
@[simp] theorem commit_ovr (t : PixFmt) (out : Converted) : (commit s t out).ovr = s.ovr := rfl
@[simp] theorem commit_err (t : PixFmt) (out : Converted) : (commit s t out).err = s.err := rfl
@[simp] theorem commit_errInfo (t : PixFmt) (out : Converted) : (commit s t out).errInfo = s.errInfo := rfl
@[simp] theorem commit_cmd (t : PixFmt) (out : Converted) : (commit s t out).cmd = s.cmd := rfl
@[simp] theorem commit_arg0 (t : PixFmt) (out : Converted) : (commit s t out).arg0 = s.arg0 := rfl
@[simp] theorem commit_arg1 (t : PixFmt) (out : Converted) : (commit s t out).arg1 = s.arg1 := rfl
@[simp] theorem commit_arg2 (t : PixFmt) (out : Converted) : (commit s t out).arg2 = s.arg2 := rfl
@[simp] theorem commit_result0 (t : PixFmt) (out : Converted) : (commit s t out).result0 = s.result0 := rfl
@[simp] theorem commit_result1 (t : PixFmt) (out : Converted) : (commit s t out).result1 = s.result1 := rfl
@[simp] theorem commit_src (t : PixFmt) (out : Converted) : (commit s t out).src = s.src := rfl
@[simp] theorem commit_dst (t : PixFmt) (out : Converted) : (commit s t out).dst = dstDescriptor s t out.pal.length out.transp := rfl
@[simp] theorem commit_srcPal (t : PixFmt) (out : Converted) : (commit s t out).srcPal = s.srcPal := rfl
@[simp] theorem commit_dstPal (t : PixFmt) (out : Converted) : (commit s t out).dstPal = Memory.setList s.dstPal 0 out.pal := rfl
@[simp] theorem commit_oct (t : PixFmt) (out : Converted) : (commit s t out).oct = s.oct := rfl
@[simp] theorem commit_fmem (t : PixFmt) (out : Converted) : (commit s t out).fmem = copyMask s out.fmem := rfl
@[simp] theorem commit_inputs (t : PixFmt) (out : Converted) : (commit s t out).inputs = s.inputs := rfl
@[simp] theorem commit_response (t : PixFmt) (out : Converted) : (commit s t out).response = s.response := rfl
@[simp] theorem commit_draws (t : PixFmt) (out : Converted) : (commit s t out).draws = s.draws := rfl

/-! ### `softResetRegs` -/

@[simp] theorem softResetRegs_cfg : (softResetRegs s).cfg = s.cfg := rfl
@[simp] theorem softResetRegs_rstN : (softResetRegs s).rstN = s.rstN := rfl
@[simp] theorem softResetRegs_inflight : (softResetRegs s).inflight = none := rfl
@[simp] theorem softResetRegs_done : (softResetRegs s).done = false := rfl
@[simp] theorem softResetRegs_ovr : (softResetRegs s).ovr = false := rfl
@[simp] theorem softResetRegs_err : (softResetRegs s).err = .none := rfl
@[simp] theorem softResetRegs_errInfo : (softResetRegs s).errInfo = 0 := rfl
@[simp] theorem softResetRegs_cmd : (softResetRegs s).cmd = 0 := rfl
@[simp] theorem softResetRegs_arg0 : (softResetRegs s).arg0 = 0 := rfl
@[simp] theorem softResetRegs_arg1 : (softResetRegs s).arg1 = 0 := rfl
@[simp] theorem softResetRegs_arg2 : (softResetRegs s).arg2 = 0 := rfl
@[simp] theorem softResetRegs_result0 : (softResetRegs s).result0 = 0 := rfl
@[simp] theorem softResetRegs_result1 : (softResetRegs s).result1 = 0 := rfl
@[simp] theorem softResetRegs_src : (softResetRegs s).src = .reset := rfl
@[simp] theorem softResetRegs_dst : (softResetRegs s).dst = .reset := rfl
@[simp] theorem softResetRegs_srcPal : (softResetRegs s).srcPal = s.srcPal := rfl
@[simp] theorem softResetRegs_dstPal : (softResetRegs s).dstPal = s.dstPal := rfl
@[simp] theorem softResetRegs_oct : (softResetRegs s).oct = .empty := rfl
@[simp] theorem softResetRegs_fmem : (softResetRegs s).fmem = s.fmem := rfl
@[simp] theorem softResetRegs_inputs : (softResetRegs s).inputs = s.inputs := rfl
@[simp] theorem softResetRegs_response : (softResetRegs s).response = s.response := rfl
@[simp] theorem softResetRegs_draws : (softResetRegs s).draws = s.draws := rfl

/-! ### `powerOn` -/

@[simp] theorem powerOn_cfg (b : Bool) : (powerOn b s).cfg = s.cfg := rfl
@[simp] theorem powerOn_rstN (b : Bool) : (powerOn b s).rstN = b := rfl
@[simp] theorem powerOn_inflight (b : Bool) : (powerOn b s).inflight = none := rfl
@[simp] theorem powerOn_done (b : Bool) : (powerOn b s).done = false := rfl
@[simp] theorem powerOn_ovr (b : Bool) : (powerOn b s).ovr = false := rfl
@[simp] theorem powerOn_err (b : Bool) : (powerOn b s).err = .none := rfl
@[simp] theorem powerOn_errInfo (b : Bool) : (powerOn b s).errInfo = 0 := rfl
@[simp] theorem powerOn_cmd (b : Bool) : (powerOn b s).cmd = 0 := rfl
@[simp] theorem powerOn_arg0 (b : Bool) : (powerOn b s).arg0 = 0 := rfl
@[simp] theorem powerOn_arg1 (b : Bool) : (powerOn b s).arg1 = 0 := rfl
@[simp] theorem powerOn_arg2 (b : Bool) : (powerOn b s).arg2 = 0 := rfl
@[simp] theorem powerOn_result0 (b : Bool) : (powerOn b s).result0 = 0 := rfl
@[simp] theorem powerOn_result1 (b : Bool) : (powerOn b s).result1 = 0 := rfl
@[simp] theorem powerOn_src (b : Bool) : (powerOn b s).src = .reset := rfl
@[simp] theorem powerOn_dst (b : Bool) : (powerOn b s).dst = .reset := rfl
@[simp] theorem powerOn_srcPal (b : Bool) : (powerOn b s).srcPal = [] := rfl
@[simp] theorem powerOn_dstPal (b : Bool) : (powerOn b s).dstPal = [] := rfl
@[simp] theorem powerOn_oct (b : Bool) : (powerOn b s).oct = .empty := rfl
@[simp] theorem powerOn_fmem (b : Bool) : (powerOn b s).fmem = [] := rfl
@[simp] theorem powerOn_inputs (b : Bool) : (powerOn b s).inputs = s.inputs := rfl
@[simp] theorem powerOn_response (b : Bool) : (powerOn b s).response = none := rfl
@[simp] theorem powerOn_draws (b : Bool) : (powerOn b s).draws = s.draws := rfl

end Sys2Proof.Machine
end

