-- ==== Sys2Proof/Laws/HostPort.lean ====
section
/-! SUPPORT. The host port: what an access can reach (R220 to R223), and what the soft reset leaves in FMEM
(R1103). -/

namespace Sys2Proof.Machine

theorem Reg.ofOffset_offset (r : Reg) : Reg.ofOffset r.offset = some r := by cases r <;> rfl

theorem Reg.offset_of_ofOffset {n : Nat} {r : Reg} (h : Reg.ofOffset n = some r) : r.offset = n := by
  unfold Reg.ofOffset at h
  split at h <;> first | (cases h; rfl) | cases h

theorem Reg.offset_lt (r : Reg) : r.offset < 0x400 ∧ r.offset % 4 = 0 := by cases r <;> decide

/-- An offset below 0xC00 reaches what the map of R102 lists there. -/
theorem targetAt_eq_some {off : Nat} {t : Target} (h : targetAt off = some t) :
    off % 4 = 0 ∧
      ((∃ r, t = .reg r ∧ r.offset = off) ∨ (∃ i, i < 256 ∧ t = .srcPal i ∧ off = 0x400 + 4 * i) ∨
        (∃ i, i < 256 ∧ t = .dstPal i ∧ off = 0x800 + 4 * i)) := by
  unfold targetAt at h
  split at h
  · cases h
  · rename_i h0
    refine ⟨by omega, ?_⟩
    split at h
    · obtain ⟨r, hr, rfl⟩ := Option.map_eq_some_iff.1 h
      exact .inl ⟨r, rfl, Reg.offset_of_ofOffset hr⟩
    · split at h
      · cases h
        exact .inr (.inl ⟨_, by omega, rfl, by omega⟩)
      · split at h
        · cases h
          exact .inr (.inr ⟨_, by omega, rfl, by omega⟩)
        · cases h

theorem targetAt_reg (r : Reg) : targetAt r.offset = some (.reg r) := by
  obtain ⟨h1, h2⟩ := Reg.offset_lt r
  unfold targetAt
  rw [if_neg (by omega), if_pos h1, Reg.ofOffset_offset]
  rfl

theorem access_reg (cfg : Config) (r : Reg) : access cfg r.offset .b4 = some (.reg r) := by
  have := (Reg.offset_lt r).1
  unfold access
  rw [if_pos (by omega), if_pos rfl, targetAt_reg]

theorem access_srcPal (cfg : Config) {i : Nat} (hi : i < 256) : access cfg (0x400 + 4 * i) .b4 = some (.srcPal i) := by
  unfold access targetAt
  rw [if_pos (by omega), if_pos rfl, if_neg (by omega), if_neg (by omega), if_pos (by omega),
    show (0x400 + 4 * i - 0x400) / 4 = i by omega]

theorem access_dstPal (cfg : Config) {i : Nat} (hi : i < 256) : access cfg (0x800 + 4 * i) .b4 = some (.dstPal i) := by
  unfold access targetAt
  rw [if_pos (by omega), if_pos rfl, if_neg (by omega), if_neg (by omega), if_neg (by omega), if_pos (by omega),
    show (0x800 + 4 * i - 0x800) / 4 = i by omega]

/-- Everything an access that is not a bus error can reach (R221 to R223). -/
theorem access_eq_some {cfg : Config} {a : Nat} {n : BusSize} {t : Target} (h : access cfg a n = some t) :
    (a < 0xC00 ∧ n = .b4 ∧ targetAt a = some t) ∨
      (∃ off, t = .fmem off ∧ a = fmemWindow + off ∧ off % n.bytes = 0 ∧ off + n.bytes ≤ cfg.fmemSize) := by
  unfold access at h
  split at h
  · split at h
    · exact .inl ⟨‹_›, ‹_›, h⟩
    · cases h
  · split at h
    · cases h
    · split at h
      · rename_i h1 h2 h3
        cases h
        refine .inr ⟨_, rfl, by omega, ?_, h3.2⟩
        have h4 := h3.1
        unfold fmemWindow
        unfold fmemWindow at h2
        cases n <;> simp only [BusSize.bytes] at h4 ⊢ <;> omega
      · cases h

theorem access_fmem {cfg : Config} {off : Nat} {n : BusSize} (h1 : off % n.bytes = 0) (h2 : off + n.bytes ≤ cfg.fmemSize) :
    access cfg (fmemWindow + off) n = some (.fmem off) := by
  unfold access
  have h3 : (fmemWindow + off) % n.bytes = 0 := by
    unfold fmemWindow
    cases n <;> simp only [BusSize.bytes] at h1 ⊢ <;> omega
  have h4 : fmemWindow + off - fmemWindow = off := by omega
  rw [if_neg (by unfold fmemWindow; omega), if_neg (by omega), h4, if_pos ⟨h3, h2⟩]

theorem writeFmem_wf {size : Nat} {m : List Host.Cell} {off : Nat} {n : BusSize} (v : Word) (h : Memory.wf size m)
    (ho : off + n.bytes ≤ size) : Memory.wf size (writeFmem m off n v) := by
  cases n
  · exact write8_wf _ h (by simpa [BusSize.bytes] using ho)
  · exact write16_wf _ h (by simpa [BusSize.bytes] using ho)
  · exact write32_wf _ h (by simpa [BusSize.bytes] using ho)

theorem get?_writeFmem_out (m : List Host.Cell) (off : Nat) (n : BusSize) (v : Word) {b : Nat}
    (h : b < off ∨ off + n.bytes ≤ b) : Memory.get? (writeFmem m off n v) b = Memory.get? m b := by
  cases n <;> simp only [BusSize.bytes] at h
  · exact get?_write8_ne _ _ (by omega)
  · exact get?_write16_ne _ _ h
  · exact get?_write32_ne _ _ h

/-! ### The soft reset -/

/-- The ranges a command may have started to write lie in FMEM (R1103). -/
theorem writtenRanges_le {s : State} {i : Instr} {r : Nat × Nat} (h : r ∈ writtenRanges s i) :
    r.1 + r.2 ≤ s.cfg.fmemSize := by
  cases i <;> simp only [writtenRanges, List.not_mem_nil] at h
  · unfold reformatRanges at h
    split at h
    · cases h
    · rename_i f g route e
      obtain ⟨-, -, -, -, hd⟩ := reformatChecks_ok_iff.1 e
      have hb : dstBase s + dstLen s g ≤ s.cfg.fmemSize := hd.buffer
      split at h
      · rename_i hm
        have hk : dstMaskBase s + maskLen s ≤ s.cfg.fmemSize := hd.mask hm
        simp only [List.mem_cons, List.not_mem_nil, or_false] at h
        rcases h with rfl | rfl
        · exact hb
        · exact hk
      · simp only [List.mem_cons, List.not_mem_nil, or_false] at h
        rw [h]
        exact hb
  · unfold setpixelRanges at h
    split at h
    · cases h
    · rename_i f e
      obtain ⟨hs, hx, hy⟩ := validatePixelAccess_ok_iff.1 e
      simp only [List.mem_cons, List.not_mem_nil, or_false] at h
      rw [h]
      have g1 := pixelAddr_le (f := f) (base := srcBase s) hx hy
      have g2 := hs.buffer
      have g3 := hs.length
      have g4 := hs.stride
      show addressedByte s f + pixelBytes f ≤ s.cfg.fmemSize
      unfold addressedByte
      rw [g4]
      rw [g3, g4] at g2
      omega

theorem abortedRanges_le {s : State} {r : Nat × Nat} (h : r ∈ abortedRanges s) : r.1 + r.2 ≤ s.cfg.fmemSize := by
  unfold abortedRanges at h
  split at h
  · cases h
  · split at h
    · exact writtenRanges_le h
    · cases h

theorem foldl_scramble_wf {size d : Nat} (rs : List (Nat × Nat)) (m : List Host.Cell) (h : Memory.wf size m)
    (hr : ∀ r ∈ rs, r.1 + r.2 ≤ size) : Memory.wf size (rs.foldl (fun m r => scrambleBytes d m r.1 r.2) m) := by
  induction rs generalizing m with
  | nil => exact h
  | cons r rs ih =>
    exact ih _ (scrambleBytes_wf h (hr r (by simp))) fun q hq => hr q (by simp [hq])

theorem get?_foldl_scramble_out (d : Nat) (rs : List (Nat × Nat)) (m : List Host.Cell) {b : Nat}
    (h : ∀ r ∈ rs, ¬ (r.1 ≤ b ∧ b < r.1 + r.2)) :
    Memory.get? (rs.foldl (fun m r => scrambleBytes d m r.1 r.2) m) b = Memory.get? m b := by
  induction rs generalizing m with
  | nil => rfl
  | cons r rs ih =>
    rw [List.foldl_cons, ih _ fun q hq => h q (by simp [hq]), get?_scrambleBytes, if_neg (h r (by simp))]

theorem abortedFmem_wf {s : State} (h : Memory.wf s.cfg.fmemSize s.fmem) : Memory.wf s.cfg.fmemSize (abortedFmem s) :=
  foldl_scramble_wf _ _ h fun _ hr => abortedRanges_le hr

theorem get?_abortedFmem_out {s : State} {b : Nat} (h : ∀ r ∈ abortedRanges s, ¬ (r.1 ≤ b ∧ b < r.1 + r.2)) :
    Memory.get? (abortedFmem s) b = Memory.get? s.fmem b := get?_foldl_scramble_out _ _ _ h

end Sys2Proof.Machine
end

