-- ==== Sys2Proof/Laws/Matcher.lean ====
section
/-! SUPPORT. The matcher (R701 to R703): the loop finds the lowest index of the least distance. -/

namespace Sys2Proof.Machine

/-- Everything the loop of R702 finds. -/
theorem nearestUpTo_spec (dist : Nat → Nat) (n : Nat) :
    (nearestUpTo dist n).1 ≤ n ∧ (nearestUpTo dist n).2 = dist (nearestUpTo dist n).1 ∧
      (∀ j, j ≤ n → (nearestUpTo dist n).2 ≤ dist j) ∧
      ∀ j, j < (nearestUpTo dist n).1 → (nearestUpTo dist n).2 < dist j := by
  induction n with
  | zero =>
    refine ⟨Nat.le_refl _, rfl, ?_, ?_⟩
    · intro j hj
      rw [Nat.le_zero.1 hj]
      exact Nat.le_refl _
    · intro j hj
      exact absurd hj (Nat.not_lt_zero j)
  | succ n ih =>
    obtain ⟨h1, h2, h3, h4⟩ := ih
    by_cases hlt : dist (n + 1) < (nearestUpTo dist n).2
    · have e : nearestUpTo dist (n + 1) = (n + 1, dist (n + 1)) := if_pos hlt
      rw [e]
      refine ⟨Nat.le_refl _, rfl, ?_, ?_⟩
      · intro j hj
        rcases Nat.lt_or_eq_of_le hj with h | rfl
        · have := h3 j (by omega)
          show dist (n + 1) ≤ dist j
          omega
        · exact Nat.le_refl _
      · intro j hj
        have := h3 j (by simp at hj; omega)
        show dist (n + 1) < dist j
        omega
    · have e : nearestUpTo dist (n + 1) = nearestUpTo dist n := if_neg hlt
      rw [e]
      refine ⟨by omega, h2, ?_, h4⟩
      intro j hj
      rcases Nat.lt_or_eq_of_le hj with h | rfl
      · exact h3 j (by omega)
      · omega

/-- Everything the matcher answers for a palette of at least one entry (R700 to R703). -/
theorem matchPalette_spec (c : Colour) (pal : Nat → Colour) {m : Nat} (hm : 1 ≤ m) :
    (matchPalette c pal m).1 < m ∧ (matchPalette c pal m).2 = dist2 c (pal (matchPalette c pal m).1) ∧
      (∀ j, j < m → (matchPalette c pal m).2 ≤ dist2 c (pal j)) ∧
      ∀ j, j < (matchPalette c pal m).1 → (matchPalette c pal m).2 < dist2 c (pal j) := by
  obtain ⟨h1, h2, h3, h4⟩ := nearestUpTo_spec (fun i => dist2 c (pal i)) (m - 1)
  exact ⟨by unfold matchPalette; omega, h2, fun j hj => h3 j (by omega), h4⟩

theorem sqDiff_eq (a b : Byte) : (sqDiff a b : Int) = ((a.toNat : Int) - b.toNat) ^ 2 := by
  unfold sqDiff
  rw [Int.toNat_of_nonneg (by positivity)]

theorem sqDiff_le (a b : Byte) : sqDiff a b ≤ 65025 := by
  have ha := a.isLt
  have hb := b.isLt
  have h := sqDiff_eq a b
  have h1 : ((a.toNat : Int) - b.toNat) ^ 2 ≤ 65025 := by nlinarith
  omega

/-- A squared distance fits in 18 bits (R701). -/
theorem dist2_le (c p : Colour) : dist2 c p ≤ 195075 := by
  have h1 := sqDiff_le (redOf c) (redOf p)
  have h2 := sqDiff_le (greenOf c) (greenOf p)
  have h3 := sqDiff_le (blueOf c) (blueOf p)
  unfold dist2
  omega

end Sys2Proof.Machine
end

