-- ==== Sys2Proof/Laws/OctUnit.lean ====
section
/-! SUPPORT. What AddColor, Reduce and CreatePalette leave alone and what they total: the leaves off the path, the sums a
fold collects, the children of the root, and the numbering of the leaves. -/

namespace Sys2Proof.Machine

/-- An insertion leaves a leaf that is not the one it reaches as it was (R620). -/
theorem Node.insert_leafAt_other (c : Colour) (q : Nat) (ks js : Path) (n : Node) (d : LeafData) (h : n.leafAt js = some d)
    (hne : n.leafPath js ≠ n.leafPath ks) : (n.insert c q ks).leafAt js = some d := by
  induction ks generalizing n js with
  | nil =>
    cases n with
    | empty => cases js <;> cases h
    | leaf e => cases js <;> exact absurd rfl hne
    | branch => exact h
  | cons k ks ih =>
    cases n with
    | empty => cases js <;> cases h
    | leaf e => cases js <;> exact absurd rfl hne
    | branch q' c0 c1 c2 c3 c4 c5 c6 c7 =>
      generalize hN : Node.branch q' c0 c1 c2 c3 c4 c5 c6 c7 = n at *
      have hb : n.isBranch = true := by rw [← hN]; rfl
      cases js with
      | nil =>
        rw [← hN] at h
        cases h
      | cons j js =>
        rw [Node.leafAt_cons hb] at h
        rw [Node.insert_cons c q hb, Node.leafAt_cons (by simp [hb]), Node.child_setChild hb]
        split
        · rename_i e
          subst e
          rw [Node.leafPath_cons hb, Node.leafPath_cons hb] at hne
          exact ih js _ h fun e => hne (by rw [e])
        · exact h

/-- A change of the node at `p` is not seen from a path that does not pass `p`. -/
theorem Node.modify_leafAt_other (f : Node → Node) (p js : Path) (n : Node) (hp : ¬ p <+: js) :
    (n.modify f p).leafAt js = n.leafAt js := by
  induction p generalizing n js with
  | nil => exact absurd (List.nil_prefix) hp
  | cons k p ih =>
    rw [Node.modify_cons]
    cases n with
    | empty => rfl
    | leaf d => rfl
    | branch q' c0 c1 c2 c3 c4 c5 c6 c7 =>
      generalize hN : Node.branch q' c0 c1 c2 c3 c4 c5 c6 c7 = n at *
      have hb : n.isBranch = true := by rw [← hN]; rfl
      cases js with
      | nil =>
        have : (n.setChild k ((n.child k).modify f p)).isBranch = true := by simp [hb]
        obtain ⟨q, d0, d1, d2, d3, d4, d5, d6, d7, e⟩ := Node.exists_branch this
        rw [e, ← hN]
        rfl
      | cons j js =>
        rw [Node.leafAt_cons hb, Node.leafAt_cons (by simp [hb]), Node.child_setChild hb]
        split
        · rename_i e
          subst e
          exact ih js _ fun h => hp (List.cons_prefix_cons.2 ⟨rfl, h⟩)
        · rfl

theorem Node.sumOver_kids (v : LeafData → Nat) (n : Node) (h : n.isBranch = true) :
    n.sumOver v = (n.kids.map (Node.sumOver v)).sum := by
  obtain ⟨q, c0, c1, c2, c3, c4, c5, c6, c7, rfl⟩ := Node.exists_branch h
  simp [Node.sumOver, Node.kids, Node.child]
  omega

/-- A leaf or an empty slot shows what it holds. -/
theorem Node.sumOver_flat {m : Node} (h : m.isBranch = false) :
    m.sumOver (fun e => e.count.toNat) = m.count.toNat ∧ m.sumOver (fun e => e.sumR.toNat) = m.sumR.toNat ∧
      m.sumOver (fun e => e.sumG.toNat) = m.sumG.toNat ∧ m.sumOver (fun e => e.sumB.toNat) = m.sumB.toNat := by
  cases m with
  | empty => exact ⟨rfl, rfl, rfl, rfl⟩
  | leaf d => exact ⟨rfl, rfl, rfl, rfl⟩
  | branch => simp at h

/-- The fold collects the exact totals of the children, which are leaves (R630, R631). -/
theorem Node.fold_sums {n : Node} {level : Nat} (hb : n.isBranch = true) (hn : n.shaped level) (hf : n.flat)
    (hpix : n.pixels < 2 ^ 32) :
    ∃ d, n.fold = .leaf d ∧ d.palIdx = none ∧ d.count.toNat = n.sumOver (fun e => e.count.toNat) ∧
      d.sumR.toNat = n.sumOver (fun e => e.sumR.toNat) ∧ d.sumG.toNat = n.sumOver (fun e => e.sumG.toNat) ∧
      d.sumB.toNat = n.sumOver (fun e => e.sumB.toNat) := by
  have hk : ∀ m ∈ n.kids, m.shaped (level + 1) ∧ m.isBranch = false := by
    intro m hm
    obtain ⟨k, rfl⟩ := Node.mem_kids.1 hm
    exact ⟨Node.child_shaped hn k, hf k⟩
  obtain ⟨-, -, i3, -, i5, i6, i7⟩ := Node.flat_list n.kids hk
  have e3 := Node.pixels_kids n hb
  have heq : ∀ (v : LeafData → Nat) (w : Node → Nat), (∀ m : Node, m.isBranch = false → m.sumOver v = w m) →
      n.sumOver v = (n.kids.map w).sum := by
    intro v w h
    rw [Node.sumOver_kids v n hb]
    congr 1
    exact List.map_congr_left fun m hm => h m (hk m hm).2
  have v0 := heq _ _ fun m hm => (Node.sumOver_flat hm).1
  have v1 := heq _ _ fun m hm => (Node.sumOver_flat hm).2.1
  have v2 := heq _ _ fun m hm => (Node.sumOver_flat hm).2.2.1
  have v3 := heq _ _ fun m hm => (Node.sumOver_flat hm).2.2.2
  have s0 := toNat_foldl_add (n.kids.map Node.count) 0#32 (by
    simp only [List.map_map, Function.comp_def, BitVec.toNat_ofNat]
    omega)
  have s1 := toNat_foldl_add (n.kids.map Node.sumR) 0#40 (by
    simp only [List.map_map, Function.comp_def, BitVec.toNat_ofNat]
    omega)
  have s2 := toNat_foldl_add (n.kids.map Node.sumG) 0#40 (by
    simp only [List.map_map, Function.comp_def, BitVec.toNat_ofNat]
    omega)
  have s3 := toNat_foldl_add (n.kids.map Node.sumB) 0#40 (by
    simp only [List.map_map, Function.comp_def, BitVec.toNat_ofNat]
    omega)
  simp only [List.map_map, Function.comp_def, BitVec.toNat_ofNat, Nat.zero_mod, Nat.zero_add] at s0 s1 s2 s3
  rw [v0, v1, v2, v3, ← s0, ← s1, ← s2, ← s3]
  obtain ⟨q, c0, c1, c2, c3, c4, c5, c6, c7, rfl⟩ := Node.exists_branch hb
  exact ⟨_, rfl, rfl, rfl, rfl, rfl, rfl⟩

/-! ### The children of the root -/

theorem Node.childCount_leaves {n : Node} {level : Nat} (hb : n.isBranch = true) (hn : n.shaped level) :
    n.childCount ≤ n.leaves ∧ (n.flat → n.childCount = n.leaves) := by
  have hk : ∀ m ∈ n.kids, m.shaped (level + 1) := by
    intro m hm
    obtain ⟨k, rfl⟩ := Node.mem_kids.1 hm
    exact Node.child_shaped hn k
  have hpos : ∀ (m : Node) (l : Nat), 1 ≤ l → m.shaped l → m.isEmpty = false → 1 ≤ m.leaves := by
    intro m
    induction m with
    | empty => simp [Node.isEmpty]
    | leaf d => simp [Node.leaves]
    | branch q c0 c1 c2 c3 c4 c5 c6 c7 i0 i1 i2 i3 i4 i5 i6 i7 =>
      intro l hl ⟨_, h1, s0, s1, s2, s3, s4, s5, s6, s7⟩ _
      have hz : ∀ c : Node, c.isEmpty = true → c.nodes = 0 := by
        intro c hc
        cases c with
        | empty => rfl
        | leaf => cases hc
        | branch => cases hc
      have h1 := h1 hl
      simp only [Node.leaves]
      by_contra hcon
      have n0 : c0.isEmpty = true := by
        by_contra e
        have := i0 (l + 1) (by omega) s0 (by simpa using e)
        omega
      have n1 : c1.isEmpty = true := by
        by_contra e
        have := i1 (l + 1) (by omega) s1 (by simpa using e)
        omega
      have n2 : c2.isEmpty = true := by
        by_contra e
        have := i2 (l + 1) (by omega) s2 (by simpa using e)
        omega
      have n3 : c3.isEmpty = true := by
        by_contra e
        have := i3 (l + 1) (by omega) s3 (by simpa using e)
        omega
      have n4 : c4.isEmpty = true := by
        by_contra e
        have := i4 (l + 1) (by omega) s4 (by simpa using e)
        omega
      have n5 : c5.isEmpty = true := by
        by_contra e
        have := i5 (l + 1) (by omega) s5 (by simpa using e)
        omega
      have n6 : c6.isEmpty = true := by
        by_contra e
        have := i6 (l + 1) (by omega) s6 (by simpa using e)
        omega
      have n7 : c7.isEmpty = true := by
        by_contra e
        have := i7 (l + 1) (by omega) s7 (by simpa using e)
        omega
      have := hz _ n0
      have := hz _ n1
      have := hz _ n2
      have := hz _ n3
      have := hz _ n4
      have := hz _ n5
      have := hz _ n6
      have := hz _ n7
      omega
  rw [Node.leaves_kids n hb]
  refine ⟨?_, fun hf => ?_⟩
  · unfold Node.childCount
    revert hk
    generalize n.kids = l
    intro hk
    induction l with
    | nil => simp
    | cons m l ih =>
      have := ih fun m hm => hk m (by simp [hm])
      have hm := hpos m (level + 1) (by omega) (hk m (by simp))
      rw [List.countP_cons, List.map_cons, List.sum_cons]
      cases e : m.isEmpty
      · have := hm e
        simp
        omega
      · simp
        omega
  · refine (Node.flat_list (level := level + 1) n.kids ?_).2.1
    intro m hm
    refine ⟨hk m hm, ?_⟩
    obtain ⟨k, rfl⟩ := Node.mem_kids.1 hm
    exact hf k

theorem Node.isEmpty_modify_fold (n : Node) (p : Path) : (n.modify Node.fold p).isEmpty = n.isEmpty := by
  cases p with
  | nil => cases n <;> rfl
  | cons k p => cases n <;> cases k <;> rfl

/-- A fold below the root keeps the number of the root's children. -/
theorem Node.childCount_modify_fold {n : Node} (hb : n.isBranch = true) (k : Key) (p : Path) :
    (n.modify Node.fold (k :: p)).childCount = n.childCount := by
  rw [Node.modify_cons]
  have h : ∀ j, ((n.setChild k ((n.child k).modify Node.fold p)).child j).isEmpty = (n.child j).isEmpty := by
    intro j
    rw [Node.child_setChild hb]
    split
    · rename_i e
      subst e
      exact Node.isEmpty_modify_fold _ _
    · rfl
  simp only [Node.childCount, Node.kids, List.countP_cons, List.countP_nil, h]

/-- Reduce keeps the number of the root's children. -/
theorem Octree.reduce_childCount {cap : Nat} {t t' : Octree} {level : Nat} (h : t.Sound cap)
    (hr : t.reduce = .ok (level, t')) : t'.root.childCount = t.root.childCount := by
  unfold Octree.reduce at hr
  split at hr
  · cases hr
  · rename_i l p red hp
    cases hr
    obtain ⟨h1, -, h3, -⟩ := h.flat hp
    cases p with
    | nil => simp at h3; omega
    | cons k p => exact Node.childCount_modify_fold h.root k p

/-- Reduce fails exactly when the leaves are the root's children (R633). -/
theorem Octree.reduce_exhausted {cap : Nat} {t : Octree} (h : t.Sound cap) {e : CmdError} (hr : t.reduce = .error e) :
    e = .quantizerExhausted ∧ t.leafCount = t.root.childCount := by
  refine ⟨(Octree.reduce_error h hr).1, ?_⟩
  unfold Octree.reduce at hr
  split at hr
  · rename_i hp
    have hnone := Reducible.popFrom_none hp
    rw [h.leafCount, (Node.childCount_leaves h.root h.shape).2]
    intro k
    by_contra hk
    have hk' : (t.root.child k).isBranch = true := by simpa using hk
    have : [k] ∈ t.red.get 1 := (h.registered 1 [k]).2 ⟨by omega, by omega, rfl, by simpa using hk'⟩
    rw [hnone 1 (by omega) (by omega)] at this
    cases this
  · cases hr

/-- The loop of CreatePalette reaches its bound exactly when the root has no more children than that. -/
theorem Octree.reduceTo_iff {cap m fuel : Nat} {t : Octree} (h : t.Sound cap) (hb : t.phase = .build)
    (hfuel : t.red.size ≤ fuel) :
    (m < t.root.childCount → t.reduceTo m fuel = .error .quantizerExhausted) ∧
    (t.root.childCount ≤ m → ∃ t', t.reduceTo m fuel = .ok t') := by
  induction fuel generalizing t with
  | zero =>
    have hle := (Node.childCount_leaves h.root h.shape).1
    have hlc := h.leafCount
    unfold Octree.reduceTo
    constructor
    · intro hm
      rw [if_pos (by omega)]
    · intro hm
      rw [if_neg]
      · exact ⟨_, rfl⟩
      · cases hr : t.reduce with
        | error e =>
          have := (Octree.reduce_exhausted h hr).2
          omega
        | ok r =>
          have := (Octree.reduce_spec h hb (level := r.1) (t' := r.2) hr).2.2.2.2.2.1
          omega
  | succ fuel ih =>
    have hle := (Node.childCount_leaves h.root h.shape).1
    have hlc := h.leafCount
    unfold Octree.reduceTo
    by_cases hm : m < t.leafCount
    · rw [if_pos hm]
      cases hr : t.reduce with
      | error e =>
        obtain ⟨rfl, h2⟩ := Octree.reduce_exhausted h hr
        exact ⟨fun _ => rfl, fun h => by omega⟩
      | ok r =>
        obtain ⟨g1, g2, -, -, -, g6, -⟩ := Octree.reduce_spec h hb (level := r.1) (t' := r.2) hr
        rw [← Octree.reduce_childCount h (level := r.1) (t' := r.2) hr]
        exact ih g1 g2 (by omega)
    · rw [if_neg hm]
      exact ⟨fun h => by omega, fun _ => ⟨_, rfl⟩⟩

/-! ### The numbering of the leaves (R640, R644) -/

/-- The leaves of a visited tree are those of the tree, numbered from the length of the palette. -/
theorem Node.visit_leafList (n : Node) (pal : List Colour) :
    (n.visit pal).1.leafList.map (fun d => { d with palIdx := none }) =
      n.leafList.map (fun d => { d with palIdx := none }) ∧
    ∀ i d, (n.visit pal).1.leafList[i]? = some d → d.palIdx = some (BitVec.ofNat 8 (pal.length + i)) := by
  have append : ∀ (a b : List LeafData) (k l : Nat), a.length = l →
      (∀ i d, a[i]? = some d → d.palIdx = some (BitVec.ofNat 8 (k + i))) →
      (∀ i d, b[i]? = some d → d.palIdx = some (BitVec.ofNat 8 (k + l + i))) →
      ∀ i d, (a ++ b)[i]? = some d → d.palIdx = some (BitVec.ofNat 8 (k + i)) := by
    intro a b k l hl ha hb i d hd
    by_cases hi : i < a.length
    · rw [List.getElem?_append_left hi] at hd
      exact ha i d hd
    · rw [List.getElem?_append_right (by omega)] at hd
      rw [hb _ d hd, hl, show k + l + (i - l) = k + i by omega]
  induction n generalizing pal with
  | empty => exact ⟨rfl, fun i d h => by cases h⟩
  | leaf e =>
    refine ⟨rfl, fun i d h => ?_⟩
    cases i with
    | zero => cases h; rfl
    | succ i => cases h
  | branch q c0 c1 c2 c3 c4 c5 c6 c7 i0 i1 i2 i3 i4 i5 i6 i7 =>
    have len : ∀ (c : Node) (p : List Colour),
        (c.visit p).1.leafList.length = (c.visit p).2.length - p.length ∧ p.length ≤ (c.visit p).2.length := by
      intro c p
      rw [Node.visit_pal, Node.leafList_length, (Node.visit_measures c p).1, List.length_append, List.length_map,
        Node.leafList_length]
      omega
    simp only [Node.visit, Node.leafList, List.map_append]
    obtain ⟨a0, b0⟩ := i0 pal
    generalize hr0 : c0.visit pal = r0 at *
    have l0 := len c0 pal
    rw [hr0] at l0
    obtain ⟨a1, b1⟩ := i1 r0.2
    generalize hr1 : c1.visit r0.2 = r1 at *
    have l1 := len c1 r0.2
    rw [hr1] at l1
    obtain ⟨a2, b2⟩ := i2 r1.2
    generalize hr2 : c2.visit r1.2 = r2 at *
    have l2 := len c2 r1.2
    rw [hr2] at l2
    obtain ⟨a3, b3⟩ := i3 r2.2
    generalize hr3 : c3.visit r2.2 = r3 at *
    have l3 := len c3 r2.2
    rw [hr3] at l3
    obtain ⟨a4, b4⟩ := i4 r3.2
    generalize hr4 : c4.visit r3.2 = r4 at *
    have l4 := len c4 r3.2
    rw [hr4] at l4
    obtain ⟨a5, b5⟩ := i5 r4.2
    generalize hr5 : c5.visit r4.2 = r5 at *
    have l5 := len c5 r4.2
    rw [hr5] at l5
    obtain ⟨a6, b6⟩ := i6 r5.2
    generalize hr6 : c6.visit r5.2 = r6 at *
    have l6 := len c6 r5.2
    rw [hr6] at l6
    obtain ⟨a7, b7⟩ := i7 r6.2
    generalize hr7 : c7.visit r6.2 = r7 at *
    refine ⟨by rw [a0, a1, a2, a3, a4, a5, a6, a7], ?_⟩
    have s1 := append _ _ _ (r0.2.length - pal.length) l0.1 b0
      (by rw [show pal.length + (r0.2.length - pal.length) = r0.2.length by omega]; exact b1)
    have s2 := append _ _ _ (r1.2.length - pal.length) (by rw [List.length_append]; omega) s1
      (by rw [show pal.length + (r1.2.length - pal.length) = r1.2.length by omega]; exact b2)
    have s3 := append _ _ _ (r2.2.length - pal.length) (by rw [List.length_append, List.length_append]; omega) s2
      (by rw [show pal.length + (r2.2.length - pal.length) = r2.2.length by omega]; exact b3)
    have s4 := append _ _ _ (r3.2.length - pal.length) (by simp only [List.length_append]; omega) s3
      (by rw [show pal.length + (r3.2.length - pal.length) = r3.2.length by omega]; exact b4)
    have s5 := append _ _ _ (r4.2.length - pal.length) (by simp only [List.length_append]; omega) s4
      (by rw [show pal.length + (r4.2.length - pal.length) = r4.2.length by omega]; exact b5)
    have s6 := append _ _ _ (r5.2.length - pal.length) (by simp only [List.length_append]; omega) s5
      (by rw [show pal.length + (r5.2.length - pal.length) = r5.2.length by omega]; exact b6)
    exact append _ _ _ (r6.2.length - pal.length) (by simp only [List.length_append]; omega) s6
      (by rw [show pal.length + (r6.2.length - pal.length) = r6.2.length by omega]; exact b7)

/-- The loop of CreatePalette is a run of calls of Reduce, the shortest that brings the leaf count to the bound (R640). -/
theorem Octree.reduceTo_build (cap : Nat) {m fuel : Nat} {t T : Octree} (h : t.reduceTo m fuel = .ok T) :
    ∃ k, Octree.build cap (List.replicate k .reduce) t = .ok T ∧ T.leafCount ≤ m ∧
      ∀ j, j < k → ∃ U, Octree.build cap (List.replicate j .reduce) t = .ok U ∧ m < U.leafCount := by
  induction fuel generalizing t with
  | zero =>
    rw [Octree.reduceTo] at h
    split at h
    · cases h
    · cases h
      exact ⟨0, rfl, by omega, fun j hj => absurd hj (Nat.not_lt_zero j)⟩
  | succ fuel ih =>
    rw [Octree.reduceTo] at h
    split at h
    · rename_i hlt
      split at h
      · cases h
      · rename_i l t' hr
        obtain ⟨k, k1, k2, k3⟩ := ih h
        have hstep : ∀ j, Octree.build cap (List.replicate (j + 1) .reduce) t =
            Octree.build cap (List.replicate j .reduce) t' := by
          intro j
          simp only [List.replicate_succ, Octree.build, hr]
        refine ⟨k + 1, (hstep k).trans k1, k2, ?_⟩
        rintro (_ | j) hj
        · exact ⟨t, rfl, hlt⟩
        · rw [hstep j]
          exact k3 j (by omega)
    · cases h
      exact ⟨0, rfl, by omega, fun j hj => absurd hj (Nat.not_lt_zero j)⟩

/-- The AddColor that descends appends the created nodes of levels 1 to 7 to their lists (R603, R620). -/
theorem Octree.descend_red (t : Octree) (c : Colour) {level : Nat} (h1 : 1 ≤ level) (h7 : level ≤ 7) :
    (t.descend c).red.get level =
      t.red.get level ++ (if 9 - t.root.need (pathOf c) ≤ level then [(pathOf c).take level] else []) := by
  show (t.red.register (pathOf c) (t.root.need (pathOf c))).get level = _
  rw [Reducible.get_register]
  by_cases h : 9 - t.root.need (pathOf c) ≤ level
  · rw [if_pos ⟨⟨h1, h7⟩, h⟩, if_pos h]
  · rw [if_neg (fun k => h k.2), if_neg h, List.append_nil]

/-- The visited child of a visited non-leaf node, numbered after the leaves of the slots before it. -/
theorem Node.visit_child_from {n : Node} (h : n.isBranch = true) (pal : List Colour) :
    ∃ start : Key → List Colour,
      (∀ k, (n.visit pal).1.child k = ((n.child k).visit (start k)).1) ∧ (∀ k, pal.length ≤ (start k).length) ∧
      (∀ k, ((n.child k).visit (start k)).2.length ≤ (n.visit pal).2.length) ∧
      ∀ k j : Key, k.number < j.number → ((n.child k).visit (start k)).2.length ≤ (start j).length := by
  obtain ⟨q, c0, c1, c2, c3, c4, c5, c6, c7, rfl⟩ := Node.exists_branch h
  let r0 := c0.visit pal
  let r1 := c1.visit r0.2
  let r2 := c2.visit r1.2
  let r3 := c3.visit r2.2
  let r4 := c4.visit r3.2
  let r5 := c5.visit r4.2
  let r6 := c6.visit r5.2
  refine ⟨fun k => match k with
    | .k0 => pal
    | .k1 => r0.2
    | .k2 => r1.2
    | .k3 => r2.2
    | .k4 => r3.2
    | .k5 => r4.2
    | .k6 => r5.2
    | .k7 => r6.2, ?_, ?_, ?_, ?_⟩
  · intro k
    cases k <;> rfl
  · intro k
    cases k <;> simp [r0, r1, r2, r3, r4, r5, r6, Node.visit_pal]
  · intro k
    cases k <;> simp [r0, r1, r2, r3, r4, r5, r6, Node.visit, Node.visit_pal, Node.child]
  · intro k j hkj
    cases k <;> cases j <;>
      first
        | exact absurd hkj (by decide)
        | (simp [r0, r1, r2, r3, r4, r5, r6, Node.visit_pal, Node.child]
           try omega)

/-- The leaf of a visited tree on a path has a number of the visit. -/
theorem Node.visit_leafAt_range (n : Node) (pal : List Colour) (ks : Path) (d : LeafData)
    (h : (n.visit pal).1.leafAt ks = some d) :
    ∃ i, pal.length ≤ i ∧ i < (n.visit pal).2.length ∧ d.palIdx = some (BitVec.ofNat 8 i) := by
  induction ks generalizing n pal with
  | nil =>
    cases n with
    | empty => cases h
    | leaf d' =>
      cases h
      exact ⟨pal.length, Nat.le_refl _, by simp [Node.visit], rfl⟩
    | branch => cases h
  | cons k ks ih =>
    cases hb : n.isBranch with
    | false =>
      cases n with
      | empty => cases h
      | leaf d' =>
        cases h
        exact ⟨pal.length, Nat.le_refl _, by simp [Node.visit], rfl⟩
      | branch => cases hb
    | true =>
      obtain ⟨start, h1, h2, h3, -⟩ := Node.visit_child_from hb pal
      rw [Node.leafAt_cons (by rw [(n.visit_measures pal).2.2.2]; exact hb), h1] at h
      obtain ⟨i, i1, i2, i3⟩ := ih _ _ h
      have := h2 k
      have := h3 k
      exact ⟨i, by omega, by omega, i3⟩

/-- The leaves of a visited tree are numbered in the lexicographic order of their paths (R644). -/
theorem Node.visit_order (n : Node) (pal : List Colour) (hlen : (n.visit pal).2.length ≤ 256) (ks js : Path)
    (d e : LeafData) (i j : Byte) (hd : (n.visit pal).1.leafAt ks = some d) (he : (n.visit pal).1.leafAt js = some e)
    (hi : d.palIdx = some i) (hj : e.palIdx = some j) (hne : i ≠ j) :
    i.toNat < j.toNat ↔ ks.map Key.number < js.map Key.number := by
  have same : n.isBranch = false → d = e := by
    intro hb
    cases n with
    | empty => cases ks <;> cases hd
    | leaf d' => cases ks <;> cases js <;> (cases hd; cases he; rfl)
    | branch => cases hb
  have differ : ¬ d = e := by
    rintro rfl
    rw [hi] at hj
    exact hne (Option.some.inj hj)
  induction ks generalizing n pal js with
  | nil =>
    cases n with
    | branch => cases hd
    | empty => exact absurd (same rfl) differ
    | leaf d' => exact absurd (same rfl) differ
  | cons k ks ih =>
    cases hb : n.isBranch with
    | false => exact absurd (same hb) differ
    | true =>
      have hvb : (n.visit pal).1.isBranch = true := by
        rw [(n.visit_measures pal).2.2.2]
        exact hb
      cases js with
      | nil =>
        obtain ⟨q, c0, c1, c2, c3, c4, c5, c6, c7, hN⟩ := Node.exists_branch hvb
        rw [hN] at he
        cases he
      | cons l js =>
        obtain ⟨start, h1, h2, h3, h4⟩ := Node.visit_child_from hb pal
        rw [Node.leafAt_cons hvb, h1] at hd he
        rw [List.map_cons, List.map_cons, List.cons_lt_cons_iff]
        by_cases hkl : k = l
        · subst hkl
          have hlen' := Nat.le_trans (h3 k) hlen
          have hsame : (n.child k).isBranch = false → d = e := by
            intro hb'
            cases hc : n.child k with
            | branch =>
              rw [hc] at hb'
              cases hb'
            | empty =>
              rw [hc] at hd
              cases ks <;> cases hd
            | leaf d' =>
              rw [hc] at hd he
              cases ks <;> cases js <;> (cases hd; cases he; rfl)
          refine (ih (n.child k) (start k) hlen' js hd he hsame).trans ?_
          constructor
          · exact fun h => .inr ⟨rfl, h⟩
          · rintro (h | ⟨-, h⟩)
            · omega
            · exact h
        · have hnum : k.number ≠ l.number := by
            revert hkl
            cases k <;> cases l <;> decide
          obtain ⟨a, a1, a2, a3⟩ := Node.visit_leafAt_range _ _ _ _ hd
          obtain ⟨b, b1, b2, b3⟩ := Node.visit_leafAt_range _ _ _ _ he
          rw [hi] at a3
          rw [hj] at b3
          cases a3
          cases b3
          have := h3 k
          have := h3 l
          rw [BitVec.toNat_ofNat, BitVec.toNat_ofNat, Nat.mod_eq_of_lt (by omega), Nat.mod_eq_of_lt (by omega)]
          constructor
          · intro hab
            by_contra hlt
            have := h4 l k (by omega)
            omega
          · rintro (h | ⟨h, -⟩)
            · have := h4 k l h
              omega
            · exact absurd h hnum

end Sys2Proof.Machine
end

