-- ==== Sys2Proof/Laws/PerInstr.lean ====
section
/-! SUPPORT. The family Encoding: for every command, where the fields of its word stand (R310, R311). -/

namespace Sys2Proof.Laws.Encoding

/-- The fields of the word of a well-formed command: OPCODE, FMT, RSVD = 0 (R310). -/
def Statement (i : Instr) : Prop :=
  i.wellFormed = true →
    opcodeField (encode i) = i.opcode ∧ (fmtField (encode i)).toNat = i.fmtCode ∧ rsvdField (encode i) = 0

theorem nop : Statement .nop := by
  unfold Statement
  decide

theorem reformat (fmt : Nat) : Statement (.reformat fmt) := by
  intro h
  have h8 : fmt < 8 := of_decide_eq_true h
  interval_cases fmt <;> decide

theorem getpixel : Statement .getpixel := by
  unfold Statement
  decide

theorem setpixel : Statement .setpixel := by
  unfold Statement
  decide

theorem palMatch : Statement .palMatch := by
  unfold Statement
  decide

theorem pack (fmt : Nat) : Statement (.pack fmt) := by
  intro h
  have h8 : fmt < 8 := of_decide_eq_true h
  interval_cases fmt <;> decide

theorem unpack (fmt : Nat) : Statement (.unpack fmt) := by
  intro h
  have h8 : fmt < 8 := of_decide_eq_true h
  interval_cases fmt <;> decide

theorem stride (fmt : Nat) : Statement (.stride fmt) := by
  intro h
  have h8 : fmt < 8 := of_decide_eq_true h
  interval_cases fmt <;> decide

theorem octReset : Statement .octReset := by
  unfold Statement
  decide

theorem octAdd : Statement .octAdd := by
  unfold Statement
  decide

theorem octReduce : Statement .octReduce := by
  unfold Statement
  decide

theorem octPalette : Statement .octPalette := by
  unfold Statement
  decide

theorem octIndex : Statement .octIndex := by
  unfold Statement
  decide

end Sys2Proof.Laws.Encoding
end

