-- ==== Sys2Proof/Laws/Reformat.lean ====
section
/-! SUPPORT. REFORMAT as a whole (R810, R880): what a run that succeeds has passed, the palette and the transparent index
it returns, and how the first bad pixel in row-major order ends a loop (R1021). -/

namespace Sys2Proof.Machine

/-- A REFORMAT that succeeds has passed every check, and commits what its routine returned. -/
theorem reformat_cases {s w : State} {n : Nat} (h : reformat s n = .ok w) :
    ∃ f g out, SourceLegal s f ∧ PixFmt.ofCode n = some g ∧ DestinationLegal s g ∧ routeTable f g ≠ .unsupported ∧
      runRoute s f g (routeTable f g) = .ok out ∧ w = commit s g out := by
  unfold reformat at h
  split at h
  · cases h
  · rename_i f g r hc
    obtain ⟨h1, rfl, h3, h4, h5⟩ := reformatChecks_ok_iff.1 hc
    split at h
    · cases h
    · rename_i out ho
      cases h
      exact ⟨f, g, out, h4, h1, h5, h3, ho, rfl⟩

theorem Config.one_le_capacity {c : Config} (h : c.valid = true) : 1 ≤ c.nodeCapacity := by
  unfold Config.valid at h
  simp at h
  omega

/-- The length of the palette a routine returns, and the transparent index (R880, R882). -/
theorem runRoute_palette {s : State} {f g : PixFmt} {out : Converted} (hv : s.cfg.valid = true) (hs : SourceLegal s f)
    (hd : DestinationLegal s g) (ho : runRoute s f g (routeTable f g) = .ok out) :
    (routeTable f g = .clone → out.pal.length = srcPalLen s) ∧
    (routeTable f g = .repack → out.pal.length = srcPalLen s ∧ (g = .indexed1 → srcPalLen s = 2)) ∧
    (routeTable f g = .expand → out.pal.length = 0) ∧ (routeTable f g = .convert → out.pal.length = 0) ∧
    (routeTable f g = .quantize → 1 ≤ out.pal.length ∧ out.pal.length ≤ 2 ^ g.bpp) ∧
    out.transp = (if f = g ∨ (f.isIndexed = true ∧ g.isIndexed = true) then s.src.transp else noTransparent) := by
  have hcap : 1 ≤ s.cfg.nodeCapacity := Config.one_le_capacity hv
  cases hr : routeTable f g <;> rw [hr] at ho <;> simp only [runRoute] at ho
  · cases ho
    refine ⟨fun _ => by simp [srcPalList], by simp, by simp, by simp, by simp, ?_⟩
    rw [if_pos]
    left
    revert hr
    cases f <;> cases g <;> simp [routeTable]
  · unfold repack at ho
    split at ho
    · cases ho
    · rename_i h1
      split at ho
      · cases ho
      · cases ho
        refine ⟨by simp, fun _ => ⟨by simp [srcPalList], ?_⟩, by simp, by simp, by simp, ?_⟩
        · intro e
          by_contra h2
          exact h1 ⟨e, h2⟩
        · rw [if_pos]
          right
          revert hr
          cases f <;> cases g <;> simp [routeTable, PixFmt.isIndexed]
  · unfold expand at ho
    split at ho
    · cases ho
    · cases ho
      refine ⟨by simp, by simp, fun _ => rfl, by simp, by simp, ?_⟩
      rw [if_neg]
      revert hr
      cases f <;> cases g <;> simp [routeTable, PixFmt.isIndexed]
  · unfold convertTrue at ho
    split at ho
    · cases ho
    · cases ho
      refine ⟨by simp, by simp, by simp, fun _ => rfl, by simp, ?_⟩
      rw [if_neg]
      revert hr
      cases f <;> cases g <;> simp [routeTable, PixFmt.isIndexed]
  · have h8 : 8 ≤ 2 ^ g.bpp := by
      revert hr
      cases f <;> cases g <;> simp [routeTable, PixFmt.bpp]
    rcases build_spec hs hcap with hb | ⟨T, hT, t1, t2, t3, t4⟩
    · unfold quantize at ho
      rw [hb] at ho
      cases ho
    · obtain ⟨frozen, pal, m, k1, k2, k3⟩ := quantize_spec hs hd hcap h8 hT
      rw [k2] at ho
      cases ho
      rcases Octree.createPalette_spec (m := 2 ^ g.bpp) t1 t2 with ⟨t', pal', e, b1, b2, b3, b4, b5, b6, b7, b8⟩ | ⟨_, e⟩
      · rw [e] at k1
        cases k1
        refine ⟨by simp, by simp, by simp, by simp, fun _ => ⟨?_, b4⟩, ?_⟩
        · obtain ⟨d, hd'⟩ := Option.isSome_iff_exists.1 (b7 _ (t4 0 0 hs.width hs.height))
          obtain ⟨i, i1, -⟩ := b8 _ _ hd'
          show 1 ≤ pal.length
          omega
        · rw [if_neg]
          revert hr
          cases f <;> cases g <;> simp [routeTable, PixFmt.isIndexed]
      · omega
  · cases ho

/-- The palette a routine returns is legal for the target and fits DST_PAL_LEN (R820, R880). -/
theorem runRoute_palette_legal {s : State} {f g : PixFmt} {out : Converted} (hv : s.cfg.valid = true)
    (hs : SourceLegal s f) (hd : DestinationLegal s g) (hr : routeTable f g ≠ .unsupported)
    (ho : runRoute s f g (routeTable f g) = .ok out) :
    out.pal.length ≤ 256 ∧ (g.isIndexed = true → 1 ≤ out.pal.length) ∧ (g = .indexed1 → out.pal.length = 2) ∧
      (g.isIndexed = false → out.pal.length = 0) := by
  obtain ⟨p1, p2, p3, p4, p5, -⟩ := runRoute_palette hv hs hd ho
  have s1 := hs.palette
  have s2 := hs.palette1
  have s3 := hs.noPalette
  clear ho hs hd
  cases f <;> cases g <;> simp_all [routeTable, PixFmt.isIndexed, PixFmt.bpp]
  all_goals omega

/-- Pass 1 is the building of an octree from the source's colours in row-major order (R870, R872). -/
theorem buildPixels_eq {s : State} {f : PixFmt} (hs : SourceLegal s f) (ps : List (Nat × Nat)) (T : Octree) :
    forPixels (buildPixel s f) ps T =
      Octree.build s.cfg.nodeCapacity ((ps.map fun p => sourceColour s f p.1 p.2).map .add) T := by
  induction ps generalizing T with
  | nil => rfl
  | cons p ps ih =>
    obtain ⟨x, y⟩ := p
    simp only [forPixels, List.map_cons, Octree.build, buildPixel_eq hs]
    cases T.addColour s.cfg.nodeCapacity (sourceColour s f x y) with
    | error e => rfl
    | ok T' => exact ih T'

/-- The pixels before (x, y) in row-major order come first. -/
theorem rowMajor_split {w h x y : Nat} (hx : x < w) (hy : y < h) :
    ∃ pre post, rowMajor w h = pre ++ (x, y) :: post ∧ ∀ p ∈ pre, p.1 < w ∧ p.2 < h ∧ Before p.1 p.2 x y := by
  have hrow : ∀ a b, List.range (a + b) = List.range a ++ (List.range b).map (a + ·) := fun a b => List.range_add
  refine ⟨(List.range y).flatMap (fun v => (List.range w).map fun u => (u, v)) ++ (List.range x).map (fun u => (u, y)),
    (List.range (w - x - 1)).map (fun u => (x + (1 + u), y)) ++
      (List.range (h - y - 1)).flatMap (fun v => (List.range w).map fun u => (u, y + (1 + v))), ?_, ?_⟩
  · have e1 : h = y + (1 + (h - y - 1)) := by omega
    have e2 : w = x + (1 + (w - x - 1)) := by omega
    conv_lhs => rw [rowMajor, e1, hrow, hrow 1, List.flatMap_append, List.map_append, List.flatMap_append]
    have e3 : (List.range w).map (fun u => (u, y)) =
        (List.range x).map (fun u => (u, y)) ++ (x, y) :: (List.range (w - x - 1)).map (fun u => (x + (1 + u), y)) := by
      conv_lhs => rw [e2, hrow, hrow 1, List.map_append, List.map_append]
      simp [List.map_map, Function.comp_def, List.range_succ]
    simp only [List.range_one, List.map_cons, List.map_nil, List.flatMap_cons, List.flatMap_nil, List.append_nil,
      Nat.add_zero]
    rw [e3]
    simp [List.flatMap_map, Nat.add_assoc]
  · intro p hp
    rcases List.mem_append.1 hp with hp | hp
    · obtain ⟨v, hv, hp⟩ := List.mem_flatMap.1 hp
      obtain ⟨u, hu, rfl⟩ := List.mem_map.1 hp
      have hv := List.mem_range.1 hv
      have hu := List.mem_range.1 hu
      exact ⟨hu, Nat.lt_trans hv hy, .inl hv⟩
    · obtain ⟨u, hu, rfl⟩ := List.mem_map.1 hp
      have hu := List.mem_range.1 hu
      exact ⟨Nat.lt_trans hu hx, hy, .inr ⟨rfl, hu⟩⟩

/-- A loop whose body fails at (x, y), and at no pixel before it, ends with that error (R1021). -/
theorem forPixels_error {σ : Type} {body : σ → Nat → Nat → Except CmdError σ} {w h x y : Nat} {a : σ} {e : CmdError}
    (P : σ → Prop) (h0 : P a) (hx : x < w) (hy : y < h)
    (hstep : ∀ b u v, P b → u < w → v < h → Before u v x y → ∃ b', body b u v = .ok b' ∧ P b')
    (herr : ∀ b, P b → body b x y = .error e) : forPixels body (rowMajor w h) a = .error e := by
  obtain ⟨pre, post, hsplit, hpre⟩ := rowMajor_split hx hy
  rw [hsplit, forPixels_append]
  obtain ⟨b, hb, hP⟩ := forPixels_induct (body := body) (ps := pre) (a := a) (fun _ b => P b) h0 (by
    intro done u v rest b e hb
    obtain ⟨k1, k2, k3⟩ := hpre (u, v) (by rw [e]; simp)
    exact hstep b u v hb k1 k2 k3)
  rw [hb]
  simp only [forPixels, herr b hP]

/-- The cleared destination agrees with FMEM outside the destination buffer. -/
theorem fillZero_out {s : State} {g : PixFmt} {c : Nat} (hc : ¬ InRange (dstBase s) (dstLen s g) c) :
    Memory.get? (fillZero s g s.fmem) c = Memory.get? s.fmem c := by
  rw [fillZero, get?_zeroBytes]
  exact if_neg hc

/-- A pixel write stays in the destination buffer. -/
theorem writeDst_out {s : State} {g : PixFmt} (m : List Host.Cell) {u v c : Nat} (r : Raw) (hu : u < srcW s)
    (hv : v < srcH s) (hc : ¬ InRange (dstBase s) (dstLen s g) c) :
    Memory.get? (writeDst s g m u v r) c = Memory.get? m c := by
  have h1 := base_le_pixelAddr g (dstBase s) (stride g (srcW s)) u v
  have h2 := pixelAddr_le (f := g) (base := dstBase s) hu hv
  unfold InRange dstLen at hc
  apply get?_writeRaw_out
  omega

/-- REFORMAT on legal frames reports the error of its routine. -/
theorem reformat_routine_error {s : State} {f g : PixFmt} {e : CmdError} (hs : SourceLegal s f)
    (hd : DestinationLegal s g) (hr : routeTable f g ≠ .unsupported)
    (he : runRoute s f g (routeTable f g) = .error e) : reformat s g.code = .error e := by
  unfold reformat
  rw [reformatChecks_ok_iff.2 ⟨PixFmt.ofCode_code g, rfl, hr, hs, hd⟩]
  simp only [he]

end Sys2Proof.Machine
end

