-- ==== Sys2Proof/Tests/Slice0.lean ====
section
/-! SUPPORT. Tests, each on one step. Expected values come from 30_encoding.md and from 95_test_vectors.md, whose vector is
named; `witness_<Obligation>` shows a state and operands that meet the hypotheses of that obligation. -/

namespace Sys2Proof.Tests

open Sys2Proof Sys2Proof.Machine

/-! ### Helpers -/

/-- The bytes of a list at consecutive addresses. -/
def cells (a : Nat) (bytes : List Byte) : List Host.Cell := bytes.zipIdx.map fun p => (a + p.2, p.1)

/-- A palette RAM that holds a list. -/
def entries (pal : List Colour) : List (Nat × Colour) := pal.zipIdx.map fun p => (p.2, p.1)

/-- An idle block with a source frame at 0, a palette, and the destination at 0x100, its mask at 0x200. -/
def frame (f : PixFmt) (w h : Nat) (bytes : List Byte) (pal : List Colour) : State :=
  { State.reset with
    src := { FrameDesc.reset with
      fmt := BitVec.ofNat 3 f.code
      width := BitVec.ofNat 16 w
      height := BitVec.ofNat 16 h
      stride := BitVec.ofNat 32 (stride f w)
      bufLen := BitVec.ofNat 32 (h * stride f w)
      palLen := BitVec.ofNat 9 pal.length }
    dst := { FrameDesc.reset with base := 0x100, maskBase := 0x200 }
    srcPal := entries pal
    fmem := cells 0 bytes }

/-- The operand registers loaded. -/
def args (a0 a1 a2 : Word) (s : State) : State := { s with arg0 := a0, arg1 := a1, arg2 := a2 }

/-- A source mask present at 0x40. -/
def masked (bytes : List Byte) (s : State) : State :=
  { s with src := { s.src with maskPresent := true, maskBase := 0x40 }, fmem := s.fmem ++ cells 0x40 bytes }

/-- Something read from the next state. -/
def after {α : Type} (o : Host.Outcome State Fault Refusal) (f : State → α) : Option α :=
  match o with
  | .next t => some (f t)
  | .fault _ => none
  | .refused _ => none

/-- The error code and subcode a command leaves. -/
def errOf (t : State) : ErrCode × Nat := (t.err, t.errInfo.toNat)

/-- The result registers as numbers. -/
def results (t : State) : Nat × Nat := (t.result0.toNat, t.result1.toNat)

/-- The bytes at `a .. a+n-1`, none of them without a value. -/
def bytesAt (a n : Nat) (t : State) : List (Option Nat) :=
  (List.range n).map fun i => (Memory.get? t.fmem (a + i)).map BitVec.toNat

/-- The first entries of DST_PAL. -/
def dstPalOf (n : Nat) (t : State) : List (Option Nat) :=
  (List.range n).map fun i => (Memory.get? t.dstPal i).map BitVec.toNat

/-- Colours added one after the other; the tree before the first error. -/
def grown (cap : Nat) : List Colour → Octree → Octree
  | [], t => t
  | c :: cs, t =>
    match t.addColour cap c with
    | .ok t' => grown cap cs t'
    | .error _ => t

theorem grown_sound {cap : Nat} (cs : List Colour) (t : Octree) (h : t.Sound cap) (hb : t.phase = .build) :
    (grown cap cs t).Sound cap ∧ (grown cap cs t).phase = .build := by
  induction cs generalizing t with
  | nil => exact ⟨h, hb⟩
  | cons c cs ih =>
    unfold grown
    split
    · obtain ⟨g1, g2, -⟩ := Octree.addColour_spec h hb ‹_›
      exact ih _ g1 g2
    · exact ⟨h, hb⟩

/-- An idle block whose octree unit has taken the colours. -/
def grownState (cs : List Colour) (a0 : Word) : State :=
  { State.reset with oct := grown State.reset.cfg.nodeCapacity cs Octree.empty, arg0 := a0 }

/-- The same with the unit frozen as CreatePalette freezes it. -/
def frozenState (cs : List Colour) (a0 : Word) : State :=
  { grownState cs a0 with oct := (grownState cs a0).oct.extract.1 }

theorem grownState_sound (cs : List Colour) (a0 : Word) :
    (grownState cs a0).oct.Sound (grownState cs a0).cfg.nodeCapacity ∧ (grownState cs a0).oct.phase = .build :=
  grown_sound cs _ (Octree.empty_sound (show 1 ≤ Config.standard.nodeCapacity by decide)) rfl

theorem frozenState_sound (cs : List Colour) (a0 : Word) :
    (frozenState cs a0).oct.Sound (frozenState cs a0).cfg.nodeCapacity ∧ (frozenState cs a0).oct.phase = .frozen :=
  ⟨Octree.extract_sound (grownState_sound cs a0).1, rfl⟩

/-! ### Frames of 95_test_vectors.md -/

/-- The 2 by 2 Rgb24 frame of P1: red, green, blue, black. -/
def p1 : State := frame .rgb24 2 2 [0, 0, 0xFF, 0, 0xFF, 0, 0, 0, 0xFF, 0, 0, 0, 0, 0, 0, 0] []

/-- Frame F4 of section 7: Indexed4, pixels 1, 2, 0. -/
def f4 : State := frame .indexed4 3 1 [0x12, 0, 0, 0] [0x000000, 0x000002, 0xFFFFFF]

/-- The Indexed1 frame of P2. -/
def p2 : State := frame .indexed1 8 1 [0xAA, 0, 0, 0] [0x000000, 0xFFFFFF]

/-- The Rgb555 frame of 6.10. -/
def w555 : State := frame .rgb555 2 1 [0x10, 0x42, 0xFF, 0xFF] []

/-- The Indexed8 frame of 6.36: index 5 in a palette of 3. -/
def bad11 : State := frame .indexed8 3 1 [0, 5, 2, 0] [0x000000, 0x111111, 0x222222]

/-- The Indexed8 frame of 6.37: index 16 in a palette of 17. -/
def bad12 : State := frame .indexed8 3 1 [0, 16, 2, 0] (List.replicate 17 0x333333)

/-- P1 with the mask of 6.14. -/
def p1m : State := masked [0x80, 0, 0, 0, 0x40, 0, 0, 0] p1

/-- A block with a command in flight. -/
def busyWith (w : Word) (s : State) : State := acceptCommand w s

/-! ### WellFormed: each check refuses an ill-formed term -/

theorem test_wf_reformat : (Instr.reformat 8).wellFormed = false ∧ (Instr.reformat 7).wellFormed = true := by decide
theorem test_wf_pack : (Instr.pack 8).wellFormed = false ∧ (Instr.pack 0).wellFormed = true := by decide
theorem test_wf_unpack : (Instr.unpack 8).wellFormed = false ∧ (Instr.unpack 7).wellFormed = true := by decide
theorem test_wf_stride : (Instr.stride 8).wellFormed = false ∧ (Instr.stride 6).wellFormed = true := by decide
theorem test_wf_plain : Instr.nop.wellFormed = true ∧ Instr.octIndex.wellFormed = true := by decide

/-! ### Decoding: words written out from R310 and R311 -/

/-- CONTROL: OPCODE 0x00, FMT 0. -/
theorem test_decode_nop : decode 0b00000000000000000000000000000000 = .ok .nop := by decide
/-- REFORMAT: OPCODE 0x01, FMT 2 (Indexed8). -/
theorem test_decode_reformat : decode 0b00000000000000000000001000000001 = .ok (.reformat 2) := by decide
theorem test_decode_getpixel : decode 0b00000000000000000000000000000010 = .ok .getpixel := by decide
theorem test_decode_setpixel : decode 0b00000000000000000000000000000011 = .ok .setpixel := by decide
theorem test_decode_pal_match : decode 0b00000000000000000000000000000100 = .ok .palMatch := by decide
/-- PACK: OPCODE 0x05, FMT 4 (Rgb565). -/
theorem test_decode_pack : decode 0b00000000000000000000010000000101 = .ok (.pack 4) := by decide
/-- UNPACK: OPCODE 0x06, FMT 3 (Rgb555). -/
theorem test_decode_unpack : decode 0b00000000000000000000001100000110 = .ok (.unpack 3) := by decide
/-- STRIDE: OPCODE 0x07, FMT 1 (Indexed4). -/
theorem test_decode_stride : decode 0b00000000000000000000000100000111 = .ok (.stride 1) := by decide
theorem test_decode_oct_reset : decode 0b00000000000000000000000000010000 = .ok .octReset := by decide
theorem test_decode_oct_add : decode 0b00000000000000000000000000010001 = .ok .octAdd := by decide
theorem test_decode_oct_reduce : decode 0b00000000000000000000000000010010 = .ok .octReduce := by decide
theorem test_decode_oct_palette : decode 0b00000000000000000000000000010011 = .ok .octPalette := by decide
theorem test_decode_oct_index : decode 0b00000000000000000000000000010100 = .ok .octIndex := by decide
/-- The illegal words of section 8. -/
theorem test_decode_illegal :
    decode 0x00000100 = .error .formatNotZero ∧ decode 0x00000008 = .error .reservedOpcode ∧
    decode 0x0000000F = .error .reservedOpcode ∧ decode 0x00000015 = .error .reservedOpcode ∧
    decode 0x000000FF = .error .reservedOpcode ∧ decode 0x80000000 = .error .reservedBits ∧
    decode 0x00000801 = .error .reservedBits ∧ decode 0x00000714 = .error .formatNotZero := by decide
/-- The legal words of section 8 with reserved formats. -/
theorem test_decode_reserved_format :
    decode 0x00000601 = .ok (.reformat 6) ∧ decode 0x00000605 = .ok (.pack 6) ∧ decode 0x00000706 = .ok (.unpack 7) := by
  decide
theorem test_decode_bytes : decodeBytes [0x01, 0x02, 0x00, 0x00, 0xEE] = .ok (.reformat 2, [0xEE]) := by decide
theorem test_decode_short : decodeBytes [0x01, 0x02, 0x00] = .error .shortWord := by decide
theorem test_encode : encode (.reformat 5) = 0x00000501 ∧ encode (.pack 2) = 0x00000205 ∧ encode .octIndex = 0x14 := by
  decide

/-! ### The commands -/

theorem test_nop : after (exec .nop (args 5 6 7 p1)) (fun t => (errOf t, results t, t.done)) =
    some ((.none, 0), (0, 0), true) := by decide

/-- R540's example. -/
theorem test_pack : after (exec (.pack 4) (args 0x00FF8040 0 0 .reset)) results = some (0xFC08, 0) := by decide
/-- 2.3: PACK of an indexed and of a reserved format. -/
theorem test_pack_errors :
    after (exec (.pack 2) .reset) errOf = some (.invalidArgument, 14) ∧
    after (exec (.pack 6) .reset) errOf = some (.invalidArgument, 15) := by decide
/-- R550's example; the high half of ARG0 is ignored (2.3). -/
theorem test_unpack : after (exec (.unpack 3) (args 0x12344210 0 0 .reset)) results = some (0x838383, 0) := by decide
theorem test_unpack24 : after (exec (.unpack 5) (args 0xFF123456 0 0 .reset)) results = some (0x123456, 0) := by decide
/-- 2.4: the high half of ARG0 is ignored. -/
theorem test_stride : after (exec (.stride 5) (args 0x00010011 0 0 .reset)) results = some (52, 4) := by decide
theorem test_stride_max : after (exec (.stride 5) (args 65535 0 0 .reset)) results = some (196608, 8192) := by decide

/-- 5: a tie goes to the lowest index. -/
theorem test_pal_match_tie : after (exec .palMatch (args 0x000001 0 0 f4)) results = some (0, 1) := by decide
/-- 5: ARG0 31:24 is ignored; the second entry is nearer by one step. -/
theorem test_pal_match : after (exec .palMatch (args 0xAB808080 0 0 p2)) results = some (1, 48387) := by decide

/-- 7.2 -/
theorem test_getpixel : after (exec .getpixel (args 1 0 0 f4)) results = some (0xFFFFFF, 2) := by decide
/-- 7.6: no wrap. -/
theorem test_getpixel_range : after (exec .getpixel (args 0xFFFFFFFF 0 0 f4)) errOf = some (.invalidArgument, 13) := by
  decide
/-- 7.7: only the low nibble of byte 0 changes. -/
theorem test_setpixel :
    after (exec .setpixel (args 1 0 0x000001 f4)) (fun t => (results t, bytesAt 0 2 t)) =
      some ((0, 1), [some 0x10, some 0]) := by decide
/-- 7: an Rgb24 pixel is stored B, G, R. -/
theorem test_setpixel24 :
    after (exec .setpixel (args 1 0 0x123456 p1)) (bytesAt 3 3) = some [some 0x56, some 0x34, some 0x12] := by decide

/-- 6.2: QUANTIZE. -/
theorem test_reformat_quantize :
    after (exec (.reformat 2) p1) (fun t => (bytesAt 0x100 8 t, dstPalOf 4 t)) =
      some ([some 3, some 2, some 0, some 0, some 1, some 0, some 0, some 0],
        [some 0, some 0xFF, some 0xFF00, some 0xFF0000]) := by decide
/-- P2: EXPAND, most significant bit first; no transparent index. -/
theorem test_reformat_expand :
    after (exec (.reformat 5) p2) (fun t => (bytesAt 0x100 6 t, t.dst.transp.toNat, t.dst.stride.toNat)) =
      some ([some 0xFF, some 0xFF, some 0xFF, some 0, some 0, some 0], 0xFFFFFFFF, 24) := by decide

/-- 4.1, step 1. -/
theorem test_oct_add :
    after (exec .octAdd (args 0 0 0 .reset)) (fun t => (t.result0.toNat, t.oct.leafCount, t.oct.live, t.oct.total)) =
      some (1, 1, 9, 1) := by decide
/-- 4.7: the tenth node does not fit. -/
theorem test_oct_add_capacity :
    after (exec .octAdd { grownState [0, 0] 1 with cfg := { Config.standard with nodeCapacity := 9 } }) errOf =
      some (.capacityExceeded, 0) := by decide
/-- 4.2, call 1: the single-child node registered last. -/
theorem test_oct_reduce :
    after (exec .octReduce (grownState [0, 1, 2] 0)) (fun t => (results t, t.oct.live)) = some ((3, 7), 11) := by decide
/-- 4.5 -/
theorem test_oct_reduce_empty : after (exec .octReduce .reset) errOf = some (.quantizerExhausted, 0) := by decide
/-- 4.1, step 6: the order is last in, first out, and means truncate. -/
theorem test_oct_palette :
    after (exec .octPalette (grownState [0, 1, 3, 3, 2] 3)) (fun t => (t.result0.toNat, dstPalOf 4 t, t.oct.live)) =
      some (3, [some 0, some 1, some 2, none], 11) := by decide
/-- 4.3: exhaustion changes nothing. -/
theorem test_oct_palette_exhausted :
    after (exec .octPalette (grownState [0, 0xFFFFFF, 0xFF0000] 2)) (fun t => (errOf t, t.oct.live, t.oct.phase)) =
      some ((.quantizerExhausted, 0), 25, .build) := by decide
/-- The lookups of 4.3 after its palette. -/
theorem test_oct_index :
    after (exec .octIndex (frozenState [0, 0xFFFFFF, 0xFF0000] 0xFF0000)) results = some (1, 0) ∧
    after (exec .octIndex (frozenState [0, 0xFFFFFF, 0xFF0000] 4)) errOf = some (.paletteLookupFailure, 0) := by decide
theorem test_oct_reset :
    after (exec .octReset (frozenState [0, 1] 0)) (fun t => (t.oct.live, t.oct.total, t.oct.phase)) =
      some (1, 0, .build) := by decide

/-! ### The host port and reset -/

theorem test_id : hostRead .reset 0x000 .b4 = .data 0x43510100 := by decide
/-- R222: a hole in the register map; R221: a byte access to a register. -/
theorem test_bus_error :
    hostRead .reset 0x028 .b4 = .busError ∧ hostRead .reset 0x010 .b1 = .busError ∧
    hostRead .reset 0x00100001 .b2 = .busError ∧ hostRead .reset 0x00200000 .b1 = .busError := by decide
theorem test_write_keeps_implemented_bits :
    readReg (hostWrite .reset 0x058 .b4 0xFFFFFFFF).1 .srcPalLen = 0x1FF := by decide
/-- R404: a write while BUSY is dropped and sets OVR. -/
theorem test_overrun :
    let t := (hostWrite (busyWith 0x201 p1) 0x014 .b4 7).1
    t.arg0 = 0 ∧ readReg t .status = 0x00000005 := by decide
/-- A step from reset with nothing to do stutters. -/
theorem test_step_idle : after (step .reset) (fun t => (t.inflight, t.done, t.draws)) = some (none, false, 1) := by decide
/-- The word of REFORMAT Rgb24 runs first after reset, where SRC_WIDTH is 0. -/
theorem test_step_fetch :
    decodeTableWord 32 0x501 = some (.reformat 5) ∧
    after (step (State.reset.withFetchWord 32 0x501)) errOf = some (.invalidArgument, 1) := by decide

/-! ### Witnesses: states and operands that meet the hypotheses of the obligations -/

theorem p1_source : SourceLegal p1 .rgb24 := by constructor <;> decide
theorem p1m_source : SourceLegal p1m .rgb24 := by constructor <;> decide
theorem f4_source : SourceLegal f4 .indexed4 := by constructor <;> decide
theorem p2_source : SourceLegal p2 .indexed1 := by constructor <;> decide
theorem w555_source : SourceLegal w555 .rgb555 := by constructor <;> decide
theorem bad11_source : SourceLegal bad11 .indexed8 := by constructor <;> decide
theorem bad12_source : SourceLegal bad12 .indexed8 := by constructor <;> decide
theorem p1_destination : DestinationLegal p1 .indexed8 ∧ DestinationLegal p1 .rgb24 ∧ DestinationLegal p1 .rgb565 := by
  refine ⟨?_, ?_, ?_⟩ <;> exact validateDestination_ok_iff.1 (by decide)
theorem p1m_destination : DestinationLegal p1m .rgb24 := validateDestination_ok_iff.1 (by decide)
theorem f4_destination : DestinationLegal f4 .indexed8 := validateDestination_ok_iff.1 (by decide)
theorem p2_destination : DestinationLegal p2 .rgb24 := validateDestination_ok_iff.1 (by decide)
theorem w555_destination : DestinationLegal w555 .indexed8 := validateDestination_ok_iff.1 (by decide)
theorem bad_destinations :
    DestinationLegal bad11 .indexed1 ∧ DestinationLegal bad11 .indexed4 ∧ DestinationLegal bad11 .rgb24 ∧
      DestinationLegal bad12 .indexed4 := by
  refine ⟨?_, ?_, ?_, ?_⟩ <;> exact validateDestination_ok_iff.1 (by decide)

theorem standard_valid : Config.standard.valid = true := by decide

theorem witness_DecodeOfEncode : (Instr.reformat 7).wellFormed = true ∧ (Instr.stride 0).wellFormed = true := by decide

theorem witness_EncodeOfDecode : decode 0x00000707 = .ok (.stride 7) := by decide

/-- Each clause at the ends of its range: RSVD 1 and with bit 31, OPCODE 0x08 and 0x15, FMT 1 and 7 without a format, the
legal words of OPCODE 0x07 and 0x14. -/
theorem witness_DecodeByFields :
    (0x00000800#32).toNat / 2048 ≠ 0 ∧ (0x80000000#32).toNat / 2048 ≠ 0 ∧
    ((0x00000008#32).toNat / 2048 = 0 ∧ ¬ ((0x00000008#32).toNat % 256 ≤ 0x07 ∨ (0x10 ≤ (0x00000008#32).toNat % 256 ∧
      (0x00000008#32).toNat % 256 ≤ 0x14))) ∧
    ((0x00000015#32).toNat / 2048 = 0 ∧ ¬ ((0x00000015#32).toNat % 256 ≤ 0x07 ∨ (0x10 ≤ (0x00000015#32).toNat % 256 ∧
      (0x00000015#32).toNat % 256 ≤ 0x14))) ∧
    ((0x00000714#32).toNat / 2048 = 0 ∧ (0x00000714#32).toNat % 256 = 0x14 ∧ (0x00000714#32).toNat / 256 % 8 ≠ 0) ∧
    ((0x00000707#32).toNat / 2048 = 0 ∧ (0x00000707#32).toNat % 256 = 0x07) ∧
    ((0x00000014#32).toNat / 2048 = 0 ∧ (0x00000014#32).toNat % 256 = 0x14 ∧ (0x00000014#32).toNat / 256 % 8 = 0) ∧
    decode 0x00000800 = .error .reservedBits ∧ State.reset.inflight = none := by decide

theorem witness_StepRunsDecodedCommand :
    (busyWith 0x201 p1).rstN = true ∧ (busyWith 0x201 p1).inflight = some 0x201 ∧
    (busyWith 0x201 p1).inputs.headD .engine = .engine ∧ decode 0x201 = .ok (.reformat 2) ∧
    decodeTableWord 32 0x201 = some (.reformat 2) ∧ decodeTableWord 8 0x14 = some .octIndex := by decide

theorem witness_CommandAcceptance : p1.inflight = none := by decide

theorem witness_FailedCommandChangesOnlyStatus :
    after (completeWord 0x101 { bad11 with cmd := 0x101 }) errOf = some (.invalidArgument, 11) ∧
    after (completeWord 0x601 { p1 with cmd := 0x601 }) errOf = some (.unsupportedConversion, 0) := by decide

/-- A command that succeeds and one that fails. -/
theorem witness_CommandsKeepTheirInputs :
    (∃ t, completeWord 0x003 (args 1 0 1 f4) = .next t) ∧ ∃ t, completeWord 0x100 f4 = .next t := ⟨⟨_, rfl⟩, ⟨_, rfl⟩⟩

theorem witness_FrameOfRegisterCommands :
    (∃ t, exec .getpixel (args 1 0 0 f4) = .next t) ∧ (∃ t, exec .palMatch (args 1 0 0 f4) = .next t) ∧
    (∃ t, exec (.pack 4) (args 1 0 0 f4) = .next t) ∧ (∃ t, exec (.unpack 4) (args 1 0 0 f4) = .next t) ∧
    (∃ t, exec (.stride 4) (args 1 0 0 f4) = .next t) ∧ ∃ t, exec .nop f4 = .next t :=
  ⟨⟨_, rfl⟩, ⟨_, rfl⟩, ⟨_, rfl⟩, ⟨_, rfl⟩, ⟨_, rfl⟩, ⟨_, rfl⟩⟩

theorem witness_FrameOfOctreeCommands :
    (∃ t, exec .octReset (grownState [0] 1) = .next t) ∧ (∃ t, exec .octAdd (grownState [0] 1) = .next t) ∧
    (∃ t, exec .octReduce (grownState [0] 1) = .next t) ∧ (∃ t, exec .octPalette (grownState [0] 1) = .next t) ∧
    ∃ t, exec .octIndex (frozenState [0] 0) = .next t := ⟨⟨_, rfl⟩, ⟨_, rfl⟩, ⟨_, rfl⟩, ⟨_, rfl⟩, ⟨_, rfl⟩⟩

/-- The bytes on both sides of the addressed pixel of P1. -/
theorem witness_FrameOfSetpixel :
    (∃ t, exec .setpixel (args 1 0 0x123456 p1) = .next t) ∧ PixFmt.ofCode (srcFmtCode p1) = some .rgb24 ∧
    ¬ InRange (pixelAddr .rgb24 (srcBase p1) (srcStride p1) 1 0) (pixelBytes .rgb24) 2 ∧
    ¬ InRange (pixelAddr .rgb24 (srcBase p1) (srcStride p1) 1 0) (pixelBytes .rgb24) 6 := by
  refine ⟨⟨_, rfl⟩, by decide, ?_, ?_⟩ <;> (unfold InRange; decide)

/-- The bytes next to the destination buffer and mask, and the first DST_PAL entry above the palette. -/
theorem witness_FrameOfReformat :
    p1m.cfg.valid = true ∧ (∃ t, exec (.reformat 5) p1m = .next t ∧ t.dst.palLen.toNat ≤ 0) ∧
    PixFmt.ofCode (srcFmtCode p1m) = some .rgb24 ∧ PixFmt.ofCode 5 = some .rgb24 ∧
    ¬ Footprint p1m .rgb24 0xFF ∧ ¬ Footprint p1m .rgb24 0x110 ∧ ¬ Footprint p1m .rgb24 0x1FF ∧
    ¬ Footprint p1m .rgb24 0x208 := by
  refine ⟨by decide, ⟨_, rfl, by decide⟩, by decide, by decide, ?_, ?_, ?_, ?_⟩ <;>
    (unfold Footprint InRange; decide)

theorem witness_OnlyOctCommandsUseTheOctreeUnit :
    ∃ t, exec (.reformat 2) p1 = .next t ∧ (grownState [0] 0).oct ≠ p1.oct := ⟨_, rfl, by decide⟩

theorem witness_NopDoesNothing :
    (0x00000100#32).toNat % 256 = 0 ∧ (0x00000100#32) ≠ 0 ∧ (busyWith 0 p1).inflight.isSome = true ∧ p1.ovr = false := by
  decide

theorem witness_PixelWritesAreLocal :
    pixelOffset .indexed4 7 + pixelBytes .indexed4 ≤ 4 ∧ (15#24).toNat < 2 ^ PixFmt.indexed4.bpp ∧
    pixelOffset .indexed4 6 + pixelBytes .indexed4 ≤ 4 ∧ (6, 0) ≠ (7, 0) ∧
    ¬ InRange (pixelAddr .indexed4 0 4 7 0) (pixelBytes .indexed4) 2 := by
  refine ⟨by decide, by decide, by decide, by decide, ?_⟩
  unfold InRange
  decide

/-- The ends of both ranges of SRC_PAL_LEN. -/
theorem witness_PalMatchFindsNearest :
    (1 ≤ (frame .indexed8 1 1 [] [0]).src.palLen.toNat) ∧ p1.src.palLen.toNat < 1 ∧
    ({ FrameDesc.reset with palLen := 256 } : FrameDesc).palLen.toNat ≤ 256 ∧
    256 < ({ FrameDesc.reset with palLen := 257 } : FrameDesc).palLen.toNat := by decide

/-- An index below the palette length, one at it, and a truecolor pixel. -/
theorem witness_GetpixelReadsColour :
    SourceLegal f4 .indexed4 ∧ SourceLegal bad11 .indexed8 ∧ SourceLegal p1 .rgb24 ∧
    ((args 1 0 0 f4).arg0.toNat < srcW f4 ∧ (args 1 0 0 f4).arg1.toNat < srcH f4) ∧
    (sourceRaw f4 .indexed4 1 0).toNat < srcPalLen f4 ∧ srcPalLen bad11 ≤ (sourceRaw bad11 .indexed8 1 0).toNat :=
  ⟨f4_source, bad11_source, p1_source, by decide, by decide, by decide⟩

theorem witness_SetpixelStoresNearest :
    SourceLegal f4 .indexed4 ∧ SourceLegal p1 .rgb24 ∧ (args 2 0 0 f4).arg0.toNat < srcW f4 ∧
    (args 2 0 0 f4).arg1.toNat < srcH f4 ∧ pixelOffset .indexed4 3 + pixelBytes .indexed4 ≤ srcStride f4 ∧
    (3, 0) ≠ (2, 0) := ⟨f4_source, p1_source, by decide, by decide, by decide, by decide⟩

theorem witness_GetpixelAfterSetpixel :
    SourceLegal f4 .indexed4 ∧ SourceLegal w555 .rgb555 ∧ (∃ t, exec .setpixel (args 1 0 1 f4) = .next t) ∧
    ∃ t, exec .setpixel (args 1 0 0x808080 w555) = .next t := ⟨f4_source, w555_source, ⟨_, rfl⟩, ⟨_, rfl⟩⟩

/-- A check of each list that fails, and both lists passing. -/
theorem witness_FrameChecksRunInOrder :
    PixFmt.ofCode (srcFmtCode p1) = some .rgb24 ∧
    firstFailure (sourceChecks (args 2 0 0 p1) .rgb24 ++ coordinateCheck (args 2 0 0 p1)) = some 13 ∧
    firstFailure (sourceChecks { p1 with src := { p1.src with width := 0 } } .rgb24) = some 1 ∧
    (routeTable .rgb24 .indexed8 ≠ .unsupported ∧ firstFailure
      (sourceChecks { p1 with dst := { p1.dst with base := 0x000F } } .rgb24 ++
        destinationChecks { p1 with dst := { p1.dst with base := 0x000F } } .indexed8) = some 8) ∧
    firstFailure (sourceChecks p1 .rgb24) = none ∧ firstFailure (destinationChecks p1 .indexed8) = none := by decide

/-- The ends of the ranges: reserved source 6, reserved target 6 and 7, truecolor to Indexed1, and pairs in the table. -/
theorem witness_UnsupportedPairsAreRefusedFirst :
    6 ≤ srcFmtCode { p1 with src := { p1.src with fmt := 6 } } ∧ 3 ≤ srcFmtCode w555 ∧
    ¬ (6 ≤ srcFmtCode w555 ∨ 6 ≤ 5 ∨ (3 ≤ srcFmtCode w555 ∧ 5 = 0)) ∧
    ¬ (6 ≤ srcFmtCode f4 ∨ 6 ≤ 0 ∨ (3 ≤ srcFmtCode f4 ∧ 0 = 0)) := by decide

theorem witness_ReformatClones :
    SourceLegal p1m .rgb24 ∧ DestinationLegal p1m .rgb24 ∧ 15 < srcBufLen p1m ∧ p1m.src.maskPresent = true ∧
    7 < srcH p1m * maskStride (srcW p1m) := ⟨p1m_source, p1m_destination, by decide, by decide, by decide⟩

theorem witness_ReformatRepacks :
    SourceLegal f4 .indexed4 ∧ DestinationLegal f4 .indexed8 ∧ PixFmt.indexed4 ≠ .indexed8 ∧
    ∀ x y, x < srcW f4 → y < srcH f4 →
      (sourceRaw f4 .indexed4 x y).toNat < srcPalLen f4 ∧ (sourceRaw f4 .indexed4 x y).toNat < 2 ^ PixFmt.indexed8.bpp := by
  have h : ∀ x < 3, ∀ y < 1,
      (sourceRaw f4 .indexed4 x y).toNat < srcPalLen f4 ∧ (sourceRaw f4 .indexed4 x y).toNat < 2 ^ PixFmt.indexed8.bpp := by
    decide
  exact ⟨f4_source, f4_destination, by decide, fun x y hx hy => h x hx y hy⟩

theorem witness_ReformatExpands :
    SourceLegal p2 .indexed1 ∧ DestinationLegal p2 .rgb24 ∧
    ∀ x y, x < srcW p2 → y < srcH p2 → (sourceRaw p2 .indexed1 x y).toNat < srcPalLen p2 := by
  have h : ∀ x < 8, ∀ y < 1, (sourceRaw p2 .indexed1 x y).toNat < srcPalLen p2 := by decide
  exact ⟨p2_source, p2_destination, fun x y hx hy => h x hx y hy⟩

theorem witness_ReformatConverts :
    SourceLegal p1 .rgb24 ∧ DestinationLegal p1 .rgb565 ∧ PixFmt.rgb24 ≠ .rgb565 :=
  ⟨p1_source, p1_destination.2.2, by decide⟩

/-- P1 with a node store of `cap` nodes. -/
def p1Capacity (cap : Nat) : State := { p1 with cfg := { Config.standard with nodeCapacity := cap } }

/-- The frames of P1 are legal for every node store. -/
theorem p1Capacity_legal (cap : Nat) : SourceLegal (p1Capacity cap) .rgb24 ∧ DestinationLegal (p1Capacity cap) .indexed8 :=
  ⟨⟨p1_source.fmt, p1_source.width, p1_source.height, p1_source.stride, p1_source.length, p1_source.buffer,
      p1_source.palette, p1_source.palette1, p1_source.noPalette, p1_source.mask⟩,
    validateDestination_ok_iff.1 (validateDestination_ok_iff (s := p1).2 p1_destination.1)⟩

/-- NODE_CAPACITY at the bound of the third clause, where the octree is built, and at the bound of R10, where it is not. -/
theorem witness_ReformatQuantizes :
    (SourceLegal (p1Capacity 33) .rgb24 ∧ DestinationLegal (p1Capacity 33) .indexed8) ∧
    1 + 8 * (srcH (p1Capacity 33) * srcW (p1Capacity 33)) ≤ (p1Capacity 33).cfg.nodeCapacity ∧
    (∃ T, Octree.build 33 ((sourceColours (p1Capacity 33) .rgb24).map .add) .empty = .ok T) ∧
    (SourceLegal (p1Capacity 9) .rgb24 ∧ DestinationLegal (p1Capacity 9) .indexed8) ∧
    ∃ e, Octree.build 9 ((sourceColours (p1Capacity 9) .rgb24).map .add) .empty = .error e :=
  ⟨p1Capacity_legal _, by decide, ⟨_, rfl⟩, p1Capacity_legal _, ⟨_, rfl⟩⟩

theorem witness_FewColoursAreReproducedExactly :
    p1.cfg.valid = true ∧ SourceLegal p1 .rgb24 ∧
    [0xFF0000#24, 0x00FF00#24, 0x0000FF#24, 0x000000#24].length ≤ 2 ^ PixFmt.indexed8.bpp ∧
    (∀ x y, x < srcW p1 → y < srcH p1 →
      sourceColour p1 .rgb24 x y ∈ [0xFF0000#24, 0x00FF00#24, 0x0000FF#24, 0x000000#24]) ∧
    after (exec (.reformat 2) p1) (fun t => t.err) = some .none := by
  have h : ∀ x < 2, ∀ y < 2,
      sourceColour p1 .rgb24 x y ∈ [0xFF0000#24, 0x00FF00#24, 0x0000FF#24, 0x000000#24] := by decide
  exact ⟨by decide, p1_source, by decide, fun x y hx hy => h x hx y hy, by decide⟩

/-- The first and the last padding byte of row 0 of the Indexed8 output of P1. -/
theorem witness_ConvertedPaddingIsZero :
    p1.cfg.valid = true ∧ PixFmt.ofCode (srcFmtCode p1) = some .rgb24 ∧
    after (exec (.reformat 2) p1) (fun t => t.err) = some .none ∧ pixelRowBytes .indexed8 (srcW p1) ≤ 2 ∧
    3 < stride .indexed8 (srcW p1) ∧ srcW p1 ≤ 2 ∧ pixelOffset .indexed8 3 + pixelBytes .indexed8 ≤
      stride .indexed8 (srcW p1) := by decide

theorem witness_MasksAreCopiedVerbatim :
    after (exec (.reformat 2) p1m) (fun t => t.err) = some .none ∧ p1m.src.maskPresent = true ∧
    7 < srcH p1m * maskStride (srcW p1m) := by decide

theorem witness_OutputIsALegalFrame :
    p1m.cfg.valid = true ∧ after (exec (.reformat 1) p1m) (fun t => t.err) = some .none := by decide

/-- Each clause: a palette of three for Indexed1, the bad index of 6.36 and the wide one of 6.37, each after a good pixel. -/
theorem witness_FirstBadPixelDecides :
    SourceLegal bad11 .indexed8 ∧ SourceLegal bad12 .indexed8 ∧
    (DestinationLegal bad11 .indexed1 ∧ srcPalLen bad11 ≠ 2) ∧
    (DestinationLegal bad11 .rgb24 ∧ srcPalLen bad11 ≤ (sourceRaw bad11 .indexed8 1 0).toNat) ∧
    (∀ u v, u < srcW bad11 → v < srcH bad11 → Before u v 1 0 →
      (sourceRaw bad11 .indexed8 u v).toNat < srcPalLen bad11 ∧ (sourceRaw bad11 .indexed8 u v).toNat < 2 ^ 4) ∧
    (DestinationLegal bad12 .indexed4 ∧ (sourceRaw bad12 .indexed8 1 0).toNat < srcPalLen bad12 ∧
      2 ^ PixFmt.indexed4.bpp ≤ (sourceRaw bad12 .indexed8 1 0).toNat) ∧
    (∀ u v, u < srcW bad12 → v < srcH bad12 → Before u v 1 0 →
      (sourceRaw bad12 .indexed8 u v).toNat < srcPalLen bad12 ∧ (sourceRaw bad12 .indexed8 u v).toNat < 2 ^ 4) := by
  refine ⟨bad11_source, bad12_source, ⟨bad_destinations.1, by decide⟩, ⟨bad_destinations.2.2.1, by decide⟩, ?_,
    ⟨bad_destinations.2.2.2, by decide, by decide⟩, ?_⟩
  · intro u v _ _ h
    unfold Before at h
    obtain ⟨rfl, rfl⟩ : u = 0 ∧ v = 0 := by omega
    decide
  · intro u v _ _ h
    unfold Before at h
    obtain ⟨rfl, rfl⟩ : u = 0 ∧ v = 0 := by omega
    decide

theorem witness_ReformatErrorsAreThoseListed :
    bad11.cfg.valid = true ∧ after (exec (.reformat 0) bad11) errOf = some (.invalidArgument, 18) ∧
    after (exec (.reformat 1) bad12) errOf = some (.invalidArgument, 12) := by decide

/-- A colour whose leaf is there, one that needs a node, and another leaf; NODE_CAPACITY is not used up. -/
theorem witness_OctAddAccumulates :
    let s := grownState [0, 0xFF0000] 0
    s.oct.Sound s.cfg.nodeCapacity ∧ s.oct.phase = .build ∧ s.oct.total + 1 ≤ 2 ^ 32 - 1 ∧
    s.oct.live + s.oct.root.need (pathOf 0) ≤ s.cfg.nodeCapacity ∧ (s.oct.root.leafAt (pathOf 0)).isSome = true ∧
    s.oct.live + s.oct.root.need (pathOf 1) ≤ s.cfg.nodeCapacity ∧ s.oct.root.leafAt (pathOf 1) = none ∧
    (s.oct.root.leafAt (pathOf 0xFF0000)).isSome = true ∧
    s.oct.root.leafPath (pathOf 0xFF0000) ≠ s.oct.root.leafPath (pathOf 0) :=
  ⟨(grownState_sound _ _).1, (grownState_sound _ _).2, by decide, by decide, by decide, by decide, by decide, by decide,
    by decide⟩

/-- Each clause, the limits of R622 and of R674 included. -/
theorem witness_OctreeCommandErrors :
    (frozenState [0] 0).oct.phase = .frozen ∧ (grownState [0] 0).oct.phase = .build ∧
    ({ Octree.empty with total := 2 ^ 32 - 1 } : Octree).total + 1 > 2 ^ 32 - 1 ∧
    (Octree.empty.Sound 8 ∧ Octree.empty.live + Octree.empty.root.need (pathOf 0) > 8) ∧
    (∀ level, 1 ≤ level → level ≤ 7 → Octree.empty.red.get level = []) ∧
    ((0x00000000#32).toNat < 1 ∧ 256 < (0x00000101#32).toNat) := by
  refine ⟨rfl, (grownState_sound _ _).2, by decide, ⟨Octree.empty_sound (by decide), by decide⟩, ?_, by decide⟩
  intro level h1 h7
  have h : level = 1 ∨ level = 2 ∨ level = 3 ∨ level = 4 ∨ level = 5 ∨ level = 6 ∨ level = 7 := by omega
  rcases h with rfl | rfl | rfl | rfl | rfl | rfl | rfl <;> rfl

theorem witness_InsertionCacheIsTransparent :
    (grownState [0, 3] 0).oct.Sound Config.standard.nodeCapacity ∧
    ((grownState [0, 3] 0).oct.cachedLeaf 3).isSome = true := ⟨(grownState_sound _ _).1, by decide⟩

theorem witness_LookupCacheIsTransparent :
    (frozenState [0, 3] 0).oct.Sound Config.standard.nodeCapacity ∧
    ∃ t' pal, (grownState [0, 3] 0).oct.createPalette 2 = .ok (t', pal) := ⟨(frozenState_sound _ _).1, _, _, rfl⟩

/-- The state after the three adds of 4.2: the newest node of level 7 is that of 0x000002. -/
theorem witness_OctReduceFoldsDeepestNewest :
    let s := grownState [0, 1, 2] 0
    s.oct.Sound s.cfg.nodeCapacity ∧ s.oct.phase = .build ∧
    (s.oct.red.get 7).getLast? = some ((pathOf 2).take 7) ∧ (∀ l, 7 < l → l ≤ 7 → s.oct.red.get l = []) ∧
    (∃ e, s.oct.root.leafAt (pathOf 0) = some e) ∧ ¬ (pathOf 2).take 7 <+: pathOf 0 :=
  ⟨(grownState_sound _ _).1, (grownState_sound _ _).2, by decide, fun l h1 h2 => absurd h2 (by omega), ⟨_, rfl⟩, by decide⟩

/-- R610, R644: the slots of a colour with R 0x80, G 0x01 and B 0x81, and a top bit of R that decides the order. -/
theorem test_keySlots : keySlots 0x800181 = [5, 0, 0, 0, 0, 0, 0, 3] ∧ keySlots 0x00FFFF < keySlots 0x800000 := by decide

/-- The bound at the root's children, one below them, and the largest bound; two colours with different entries. -/
theorem witness_OctPaletteExtractsLeaves :
    (∀ a0, (grownState [0, 0xFFFFFF, 0xFF0000] a0).oct.Sound Config.standard.nodeCapacity ∧
      (grownState [0, 0xFFFFFF, 0xFF0000] a0).oct.phase = .build) ∧
    (grownState [0, 0xFFFFFF, 0xFF0000] 3).oct.root.childCount ≤ (0x00000003#32).toNat ∧
    (0x00000002#32).toNat < (grownState [0, 0xFFFFFF, 0xFF0000] 2).oct.root.childCount ∧
    (0x00000100#32).toNat ≤ 256 ∧
    (let r := (grownState [0, 0xFFFFFF, 0xFF0000] 3).oct.extract.1.root
     (r.leafAt (pathOf 0)).bind LeafData.palIdx = some 0 ∧ (r.leafAt (pathOf 0xFF0000)).bind LeafData.palIdx = some 1) :=
  ⟨fun a0 => grownState_sound _ a0, by decide, by decide, by decide, by decide⟩

theorem witness_PaletteEntriesAreTruncatedMeans :
    ∃ d : LeafData, d.sound ∧ d.count.toNat = 2 ∧ d.sumR.toNat = d.count.toNat * (redOf 0xFF8001).toNat ∧
      d.sumG.toNat = d.count.toNat * (greenOf 0xFF8001).toNat ∧ d.sumB.toNat = d.count.toNat * (blueOf 0xFF8001).toNat :=
  ⟨{ seq := 1, count := 2, sumR := 510, sumG := 256, sumB := 2, palIdx := none },
    by unfold LeafData.sound; decide, by decide, by decide, by decide, by decide⟩

theorem witness_OctIndexFindsFirstLeaf :
    let s := frozenState [0, 3] 3
    s.oct.Sound s.cfg.nodeCapacity ∧ s.oct.phase = .frozen ∧ (∃ d, s.oct.root.leafAt (pathOf 3) = some d) ∧
    s.oct.root.leafAt (pathOf 4) = none := ⟨(frozenState_sound _ _).1, rfl, ⟨_, rfl⟩, by decide⟩

theorem witness_AddedColoursHaveAnIndex :
    ∃ T frozen pal, Octree.build 64 [.add 0, .add 1, .reduce] .empty = .ok T ∧
      BuildOp.add 1 ∈ [BuildOp.add 0, .add 1, .reduce] ∧ T.createPalette 256 = .ok (frozen, pal) :=
  ⟨_, _, _, rfl, by decide, rfl⟩

/-- Each edge of `rst_n`, at each level of `rst_n`, and an engine turn in reset. -/
theorem witness_PowerOnValues :
    ({ p1 with inputs := [.resetAssert] } : State).inputs = .resetAssert :: [] ∧
    (let s := { powerOn false p1 with inputs := [.resetRelease] }
     s.rstN = false ∧ s.inputs = .resetRelease :: []) ∧
    (let s := { p1 with inputs := [.resetRelease] }
     s.rstN = true ∧ s.inputs = .resetRelease :: []) ∧
    (let s := { powerOn false p1 with inputs := [.engine] }
     s.rstN = false ∧ s.inputs = .engine :: []) := by decide

/-- R1100: an edge down aborts the command in flight, and the edge up that follows leaves a block that is idle. -/
theorem test_resetAssert_aborts :
    after (step { busyWith 0x003 f4 with inputs := [.resetAssert] }) (fun t => (t.rstN, t.inflight, t.arg0)) =
      some (false, none, 0) := by decide

/-- A REFORMAT and a SETPIXEL in flight, and a byte of the range each may have started to write. -/
theorem witness_SoftResetKeepsMemories :
    (0x00000001#32).getLsbD 0 = true ∧ (0xFFFFFFFE#32).getLsbD 0 = false ∧ (busyWith 0x501 p1m).inflight = some (encode (.reformat 5)) ∧
    DestinationLegal (busyWith 0x501 p1m) .rgb24 ∧ Footprint (busyWith 0x501 p1m) .rgb24 0x207 ∧
    (busyWith 0x003 f4).inflight = some (encode .setpixel) := by
  refine ⟨by decide, by decide, by decide, validateDestination_ok_iff.1 (by decide), ?_, by decide⟩
  unfold Footprint InRange
  decide

/-- The last byte of the window, the first one past it, the last register and the first hole. -/
theorem witness_BusErrorsChangeNothing :
    (hostRead p1 0x001FFFFF .b1 ≠ .busError) ∧ hostRead p1 0x00200000 .b1 = .busError ∧
    (0x000000CC#32).toNat % 4 = 0 ∧ hostRead p1 0x000000D0 .b4 = .busError ∧ hostRead p1 0x00000C00 .b4 = .busError := by
  refine ⟨?_, by decide, by decide, by decide, by decide⟩
  intro h
  cases h

theorem witness_RegistersReadBack :
    p1.inflight = none ∧ Reg.srcPalLen ≠ .cmd ∧ Reg.srcPalLen.implemented ≠ 0 ∧ Reg.octPixels.implemented = 0 ∧
    Reg.id ≠ .srcPalLen ∧ (0x024, 0) ∈ p1.registerMap ∧ (0x0CC, 0) ∈ p1.registerMap ∧ f4.inflight = none ∧
    (Memory.get? f4.srcPal 0).isSome = true ∧
    (Memory.get? ({ f4 with dstPal := [(255, 0)] } : State).dstPal 255).isSome = true := by decide

/-- The last word of FMEM, and a byte that holds a value. -/
theorem witness_FmemIsLittleEndian :
    (Memory.get? p1.fmem 0).isSome = true ∧ p1.inflight = none ∧ p1.cfg.valid = true ∧
    0x000FFFFC % BusSize.b4.bytes = 0 ∧ 0x000FFFFC + BusSize.b4.bytes ≤ p1.cfg.fmemSize ∧
    ¬ InRange 0x000FFFFC 4 0x000FFFFB := by
  refine ⟨by decide, by decide, by decide, by decide, by decide, ?_⟩
  unfold InRange
  decide

theorem witness_BusyAccesses :
    (busyWith 0 p1).inflight.isSome = true ∧ Reg.dstMaskBase.implemented ≠ 0 ∧ Reg.result1.implemented = 0 ∧
    (busyWith 0 p1).cfg.valid = true := by decide

theorem witness_HostTransactionsAreSteps :
    (∃ s : State, s.rstN = true ∧ s.inputs = [.read 8 .b4]) ∧ (∃ s : State, s.rstN = true ∧ s.inputs = [.write 8 .b4 2]) ∧
    ∃ s : State, s.rstN = false ∧ s.inputs = [.read 8 .b4] :=
  ⟨⟨{ p1 with inputs := [.read 8 .b4] }, rfl, rfl⟩, ⟨{ p1 with inputs := [.write 8 .b4 2] }, rfl, rfl⟩,
    ⟨{ p1 with rstN := false, inputs := [.read 8 .b4] }, rfl, rfl⟩⟩

/-- The smallest and the largest parameters of R10. -/
theorem witness_SoundAtReset :
    Config.valid { fmemSize := 1, nodeCapacity := 9 } = true ∧
    Config.valid { fmemSize := 0x0FF00000, nodeCapacity := 9 } = true := by decide

/-- The invariant holds of a state with a command in flight and a tree that is not empty, and the engine completes the
command. -/
theorem witness_StepsKeepTheInvariant :
    (busyWith 0x012 (grownState [0, 1] 0)).Sound ∧
    after (step (busyWith 0x012 (grownState [0, 1] 0))) results = some (1, 7) := by
  refine ⟨⟨by decide, ⟨?_, ?_, ?_⟩, ⟨?_, ?_, ?_, ?_⟩, (grownState_sound [0, 1] 0).1⟩, by decide⟩
  · exact ⟨List.Pairwise.nil, by intro c hc; cases hc⟩
  · exact ⟨List.Pairwise.nil, by intro c hc; cases hc⟩
  · exact ⟨List.Pairwise.nil, by intro c hc; cases hc⟩
  · intro w hw
    cases hw
    rfl
  · exact fun _ => ⟨rfl, rfl⟩
  · intro h
    cases h
  · intro h
    cases h

theorem witness_CompletionIsGuaranteed :
    (busyWith 0 p1).rstN = true ∧ Input.resetAssert ∉ (busyWith 0 p1).inputs ∧ (busyWith 0 p1).inflight.isSome = true := by
  decide

end Sys2Proof.Tests
end

section
/-! PROOFS. The command word: a word that decodes is the word of its command (R310, R311, R316). -/

namespace Sys2Proof

theorem plainCommand_ok {fmt : BitVec 3} {i j : Instr} (h : plainCommand fmt j = .ok i) : i = j ∧ fmt.toNat = 0 := by
  unfold plainCommand at h
  split at h
  · rename_i h0
    exact ⟨(Except.ok.inj h).symm, by simp [h0]⟩
  · cases h

theorem decodeFields_ok {op : BitVec 8} {fmt : BitVec 3} {i : Instr} (h : decodeFields op fmt = .ok i) :
    i.opcode = op ∧ i.fmtCode = fmt.toNat := by
  unfold decodeFields at h
  split at h <;> rename_i hop
  case h_14 => cases h
  -- REFORMAT, PACK, UNPACK and STRIDE carry their format; the other nine need FMT = 0 (R314).
  case h_2 | h_6 | h_7 | h_8 =>
    cases h
    exact ⟨BitVec.eq_of_toNat_eq hop.symm, rfl⟩
  all_goals
    obtain ⟨rfl, h0⟩ := plainCommand_ok h
    exact ⟨BitVec.eq_of_toNat_eq hop.symm, h0.symm⟩

theorem word_of_fields (w : Word) (h : rsvdField w = 0) :
    (opcodeField w).setWidth 32 ||| ((fmtField w).setWidth 32 <<< 8) = w := by
  have hr : ∀ i, 11 ≤ i → i < 32 → w.getLsbD i = false := fun i h1 h2 => by
    simpa [rsvdField, show i - 11 < 21 by omega, show 11 + (i - 11) = i by omega] using
      congrArg (BitVec.getLsbD · (i - 11)) h
  ext i hi
  rw [← BitVec.getLsbD_eq_getElem, ← BitVec.getLsbD_eq_getElem]
  simp only [opcodeField, fmtField, BitVec.getLsbD_or, BitVec.getLsbD_setWidth, BitVec.getLsbD_shiftLeft,
    BitVec.getLsbD_extractLsb', hi, Nat.zero_add, decide_true, Bool.true_and]
  rcases show i < 8 ∨ (8 ≤ i ∧ i < 11) ∨ 11 ≤ i by omega with h8 | ⟨h8, h11⟩ | h11
  · simp [h8]
  · simp [show ¬ i < 8 by omega, show i - 8 < 3 by omega, show 8 + (i - 8) = i by omega, show i - 8 < 32 by omega]
  · simp [show ¬ i < 8 by omega, show ¬ i - 8 < 3 by omega, hr i h11 hi]

theorem encode_of_decode {w : Word} {i : Instr} (h : decode w = .ok i) : encode i = w := by
  unfold decode at h
  split at h
  · rename_i h0
    obtain ⟨hop, hfmt⟩ := decodeFields_ok h
    rw [encode, hop, hfmt, BitVec.ofNat_toNat, word_of_fields w h0]
  · cases h

end Sys2Proof
end

section
/-! PROOFS. What a command may write (R410, R411): one inversion of `exec`, and the frames of
commands that follow from it. -/

namespace Sys2Proof.Machine

/-- A command ends in the error entry on the old state, or in normal completion of its working copy (R410, R411). -/
theorem complete_cases {s t : State} {r : Except CmdError State} (h : complete s r = .next t) :
    (∃ e, r = .error e ∧ t = takeError e s) ∨ (∃ w, r = .ok w ∧ t = finish w) := by
  cases r with
  | error e => exact .inl ⟨e, rfl, (Host.Outcome.next.inj h).symm⟩
  | ok w => exact .inr ⟨w, rfl, (Host.Outcome.next.inj h).symm⟩

/-- The working copies that a command can commit in `s`: which parts of the state it writes, whatever the values. -/
inductive WorkingCopy (s : State) : Instr → State → Prop
  | nop : WorkingCopy s .nop s
  | reformat (n : Nat) (g : PixFmt) (out : Converted) : WorkingCopy s (.reformat n) (commit s g out)
  | getpixel (u v : Word) : WorkingCopy s .getpixel (setResult1 v (setResult0 u s))
  | setpixel (m : List Host.Cell) (u v : Word) : WorkingCopy s .setpixel (setResult1 v (setResult0 u (setFmem m s)))
  | palMatch (u v : Word) : WorkingCopy s .palMatch (setResult1 v (setResult0 u s))
  | pack (n : Nat) (u : Word) : WorkingCopy s (.pack n) (setResult0 u s)
  | unpack (n : Nat) (u : Word) : WorkingCopy s (.unpack n) (setResult0 u s)
  | stride (n : Nat) (u v : Word) : WorkingCopy s (.stride n) (setResult1 v (setResult0 u s))
  | octReset : WorkingCopy s .octReset (setOct .empty s)
  | octAdd (T : Octree) : WorkingCopy s .octAdd (setLeafResult T (setOct T s))
  | octReduce (T : Octree) (v : Word) : WorkingCopy s .octReduce (setResult1 v (setLeafResult T (setOct T s)))
  | octPalette (T : Octree) (pal : List Colour) : WorkingCopy s .octPalette
      (setResult0 (BitVec.ofNat 32 pal.length) (setDstPalLen pal.length (setDstPal pal (setOct T s))))
  | octIndex (T : Octree) (u : Word) : WorkingCopy s .octIndex (setResult0 u (setOct T s))

/-- A command that ends has taken an error in the old state, or has committed one of its working copies. -/
theorem exec_cases {i : Instr} {s t : State} (h : exec i s = .next t) :
    (∃ e, t = takeError e s) ∨ ∃ w, WorkingCopy s i w ∧ t = finish w := by
  suffices ∃ r, exec i s = complete s r ∧ ∀ w, r = .ok w → WorkingCopy s i w by
    obtain ⟨r, hr, hw⟩ := this
    obtain ⟨e, -, rfl⟩ | ⟨w, rfl, rfl⟩ := complete_cases (hr ▸ h)
    · exact .inl ⟨e, rfl⟩
    · exact .inr ⟨w, hw w rfl, rfl⟩
  cases i
  case nop => exact ⟨.ok s, rfl, fun _ hw => by cases hw; constructor⟩
  case octReset => exact ⟨.ok (setOct .empty s), rfl, fun _ hw => by cases hw; constructor⟩
  case reformat n =>
    refine ⟨reformat s n, rfl, fun w hw => ?_⟩
    obtain ⟨f, g, out, -, -, -, -, -, rfl⟩ := reformat_cases hw
    exact .reformat n g out
  -- In each branch of a command's rule: an error is no working copy, and a success names its own.
  all_goals
    refine ⟨_, rfl, fun w hw => ?_⟩
    dsimp -failIfUnchanged only at hw
    repeat' split at hw
    all_goals cases hw <;> constructor

theorem WorkingCopy.inputsKept {i : Instr} {s w : State} (h : WorkingCopy s i w) : InputsKept s w := by
  cases h <;> constructor <;> rfl

theorem inputsKept_finish {s w : State} (h : InputsKept s w) : InputsKept s (finish w) := { h with }

theorem inputsKept_takeError (e : CmdError) (s : State) : InputsKept s (takeError e s) := by
  constructor <;> rfl

theorem exec_inputsKept {i : Instr} {s t : State} (h : exec i s = .next t) : InputsKept s t := by
  obtain ⟨e, rfl⟩ | ⟨w, hw, rfl⟩ := exec_cases h
  · exact inputsKept_takeError e s
  · exact inputsKept_finish hw.inputsKept

/-- The word in flight ends as the command it decodes to, or with ILLEGAL_COMMAND (R312 to R316, R410). -/
theorem completeWord_cases {w : Word} {s t : State} (h : completeWord w s = .next t) :
    (∃ i, decode w = .ok i ∧ exec i s = .next t) ∨ t = takeError .illegalCommand s := by
  unfold completeWord at h
  split at h
  · exact .inl ⟨_, ‹_›, h⟩
  · exact .inr (Host.Outcome.next.inj h).symm

/-- Settles O9: neither the error entry nor any working copy of a command touches an input. -/
theorem commandsKeepTheirInputs : Obligations.CommandsKeepTheirInputs := by
  intro w s t h
  obtain ⟨i, -, hi⟩ | rfl := completeWord_cases h
  · exact exec_inputsKept hi
  · exact inputsKept_takeError _ s

/-- Settles O10: the working copies of these six commands differ from the state in result registers alone. -/
theorem frameOfRegisterCommands : Obligations.FrameOfRegisterCommands := by
  intro s t i n hi h
  refine ⟨exec_inputsKept h, ?_⟩
  obtain ⟨e, rfl⟩ | ⟨w, hw, rfl⟩ := exec_cases h
  · simp [SameByte]
  · rcases hi with rfl | rfl | rfl | rfl | rfl | rfl
    all_goals
      cases hw
      simp [SameByte]

end Sys2Proof.Machine
end

section
/-! PROOFS. The host port (R101, R102, R112, R150, R225): what a transaction reaches, what the registers show, and what a
write leaves. -/

namespace Sys2Proof.Machine

/-! ### STATUS (R112) -/

theorem ErrCode.bits_toNat (e : ErrCode) : e.bits.toNat = e.number := by cases e <;> rfl

theorem statusLayout_toNat : ∀ (e : BitVec 4) (o d b : Bool),
    (0#20 ++ e ++ 0#5 ++ BitVec.ofBool o ++ BitVec.ofBool d ++ BitVec.ofBool b).toNat =
      256 * e.toNat + 4 * o.toNat + 2 * d.toNat + b.toNat := by
  decide

theorem statusWord_toNat (s : State) :
    (statusWord s).toNat = 256 * s.err.number + 4 * s.ovr.toNat + 2 * s.done.toNat + s.inflight.isSome.toNat := by
  rw [← ErrCode.bits_toNat]
  exact statusLayout_toNat _ _ _ _

/-! ### Transactions by what they reach -/

theorem hostRead_of_access {s : State} {a : Word} {n : BusSize} {x : Target} (h : access s.cfg a.toNat n = some x)
    (hi : s.inflight = none) : hostRead s a n = .data (readTarget s n x) := by
  simp [hostRead, h, busy, hi]

theorem hostWrite_of_access {s : State} {a : Word} {n : BusSize} {x : Target} (h : access s.cfg a.toNat n = some x)
    (v : Word) : hostWrite s a n v = (writeAccess n v s x, .ok) := by
  simp [hostWrite, h]

theorem access_regWord (cfg : Config) (r : Reg) : access cfg (BitVec.ofNat 32 r.offset).toNat .b4 = some (.reg r) := by
  have := (Reg.offset_lt r).1
  rw [BitVec.toNat_ofNat, Nat.mod_eq_of_lt (by omega), access_reg]

theorem access_srcPalWord (cfg : Config) {i : Nat} (hi : i < 256) :
    access cfg (BitVec.ofNat 32 (0x400 + 4 * i)).toNat .b4 = some (.srcPal i) := by
  rw [BitVec.toNat_ofNat, Nat.mod_eq_of_lt (by omega), access_srcPal cfg hi]

theorem access_dstPalWord (cfg : Config) {i : Nat} (hi : i < 256) :
    access cfg (BitVec.ofNat 32 (0x800 + 4 * i)).toNat .b4 = some (.dstPal i) := by
  rw [BitVec.toNat_ofNat, Nat.mod_eq_of_lt (by omega), access_dstPal cfg hi]

theorem hostWrite_status (s : State) (v : Word) : hostWrite s 0x008 .b4 v = (writeStatus v s, .ok) :=
  hostWrite_of_access (x := .reg .status) (access_reg s.cfg .status) v

theorem hostWrite_ctrl (s : State) (v : Word) :
    hostWrite s 0x004 .b4 v = (if v.getLsbD 0 then softReset s else s, .ok) :=
  hostWrite_of_access (x := .reg .ctrl) (access_reg s.cfg .ctrl) v

/-- Settles O55: STATUS as a number is the sum of its fields, and a write clears DONE and OVR where bits 1 and 2 are set. -/
theorem statusFlags : Obligations.StatusFlags := by
  intro s v
  have flag (b : Bool) (n : Nat) : (if b then n else 0) = n * b.toNat := by cases b <;> simp
  have clear (b c : Bool) : (b && !c) = if c then false else b := by cases b <;> cases c <;> rfl
  constructor
  · simp only [readReg, statusWord_toNat, flag]
    cases s.err <;> simp only [ErrCode.number] <;> omega
  · rw [hostWrite_status, writeStatus, clear, clear]

/-! ### The register map (R102) -/

/-- The registers of R102, in the order of their offsets. -/
def Reg.all : List Reg :=
  [.id, .ctrl, .status, .errInfo, .cmd, .arg0, .arg1, .arg2, .result0, .result1,
   .srcFmt, .srcWidth, .srcHeight, .srcStride, .srcBase, .srcBufLen, .srcPalLen, .srcMaskCtrl, .srcMaskBase, .srcTransp,
   .dstFmt, .dstWidth, .dstHeight, .dstStride, .dstBase, .dstBufLen, .dstPalLen, .dstMaskCtrl, .dstMaskBase, .dstTransp,
   .octStatus, .octLeaves, .octNodes, .octPixels]

theorem Reg.mem_all (r : Reg) : r ∈ Reg.all := by cases r <;> decide

theorem errInfoWord_toNat (s : State) : (errInfoWord s).toNat = s.errInfo.toNat := by
  have h : (errInfoWord s).toNat = (0#24).toNat <<< 8 ||| s.errInfo.toNat := BitVec.toNat_append _ _
  simpa using h

theorem octStatusWord_toNat (t : Octree) : (octStatusWord t).toNat = if t.phase = .frozen then 1 else 0 := by
  unfold octStatusWord
  cases t.phase <;> rfl

theorem registerMap_eq (s : State) : s.registerMap = Reg.all.map fun r => (r.offset, (readReg s r).toNat) := by
  simp [State.registerMap, FrameDesc.rows, Reg.all, Reg.offset, readReg, idWord, statusWord_toNat, errInfoWord_toNat,
    octStatusWord_toNat, BitVec.toNat_setWidth_of_le, -BitVec.toNat_setWidth]

theorem hostRead_reg {s : State} (hi : s.inflight = none) (r : Reg) :
    hostRead s (BitVec.ofNat 32 r.offset) .b4 = .data (readReg s r) :=
  hostRead_of_access (access_regWord s.cfg r) hi

theorem hostRead_registerMap {s : State} (hi : s.inflight = none) {p : Nat × Nat} (hp : p ∈ s.registerMap) :
    hostRead s (BitVec.ofNat 32 p.1) .b4 = .data (BitVec.ofNat 32 p.2) := by
  rw [registerMap_eq] at hp
  obtain ⟨r, -, rfl⟩ := List.mem_map.1 hp
  rw [hostRead_reg hi, BitVec.ofNat_toNat, BitVec.setWidth_eq]

/-! ### Writes to registers (R101) -/

/-- The low `n` bits of a word, zero-extended, are the word under the mask of `n` ones. -/
theorem setWidth_extractLsb'_zero (v : Word) {n : Nat} (hn : n ≤ 32) :
    (v.extractLsb' 0 n).setWidth 32 = v &&& BitVec.ofNat 32 (2 ^ n - 1) := by
  have hle : (2 : Nat) ^ n ≤ 2 ^ 32 := Nat.pow_le_pow_right (by decide) hn
  have hmod : v.toNat % 2 ^ n < 2 ^ n := Nat.mod_lt _ (Nat.two_pow_pos n)
  apply BitVec.eq_of_toNat_eq
  calc ((v.extractLsb' 0 n).setWidth 32).toNat
      = v.toNat % 2 ^ n % 2 ^ 32 := by simp
    _ = v.toNat % 2 ^ n := Nat.mod_eq_of_lt (by omega)
    _ = v.toNat &&& (2 ^ n - 1) := (Nat.and_two_pow_sub_one_eq_mod _ _).symm
    _ = v.toNat &&& (2 ^ n - 1) % 2 ^ 32 := by rw [Nat.mod_eq_of_lt (show 2 ^ n - 1 < 2 ^ 32 by omega)]
    _ = (v &&& BitVec.ofNat 32 (2 ^ n - 1)).toNat := by simp

theorem writeReg_of_ignored {r : Reg} (h : r.writeKind = .ignored) (v : Word) (s : State) : writeReg v s r = s := by
  cases r <;> simp [Reg.writeKind] at h <;> rfl

theorem Reg.writeKind_of_implemented {r : Reg} (h : r.implemented ≠ 0) : r.writeKind = .stored := by
  cases r <;> simp [Reg.implemented] at h <;> rfl

theorem Reg.writeKind_of_not_implemented {r : Reg} (h : r.implemented = 0) (hc : r ≠ .ctrl) (hs : r ≠ .status) :
    r.writeKind = .ignored := by
  cases r <;> simp [Reg.implemented] at h hc hs <;> rfl

theorem hostWrite_reg {s : State} (hi : s.inflight = none) (r : Reg) (v : Word) :
    hostWrite s (BitVec.ofNat 32 r.offset) .b4 v = (writeReg v s r, .ok) := by
  rw [hostWrite_of_access (access_regWord s.cfg r)]
  cases hk : r.writeKind with
  | ignored => simp [writeAccess, Target.writeKind, hk, writeReg_of_ignored hk]
  | always => simp [writeAccess, Target.writeKind, hk, writeTarget]
  | stored => simp [writeAccess, Target.writeKind, hk, writeTarget, busy, hi]

theorem readReg_writeReg_self {r : Reg} (h : r.implemented ≠ 0) (v : Word) (s : State) :
    readReg (writeReg v s r) r = v &&& r.implemented := by
  have hones : v &&& 0xFFFFFFFF#32 = v := BitVec.and_allOnes
  cases r <;> simp [Reg.implemented] at h <;>
    simp [Reg.implemented, readReg, writeReg, setWidth_extractLsb'_zero, BitVec.and_one_eq_setWidth_ofBool_getLsbD,
      hones]

/-- Each stored register but CMD has a field of the state of its own, which no other register shows. -/
theorem readReg_writeReg_ne {q r : Reg} (hq : q ≠ r) (h : r.writeKind = .stored) (hc : r ≠ .cmd) (v : Word) (s : State) :
    readReg (writeReg v s r) q = readReg s q := by
  cases r <;> simp [Reg.writeKind] at h hc <;> cases q <;> simp at hq <;> rfl

theorem writeReg_inflight {r : Reg} (hc : r ≠ .ctrl) (hcmd : r ≠ .cmd) (v : Word) (s : State) :
    (writeReg v s r).inflight = s.inflight := by
  cases r <;> simp at hc hcmd <;> rfl

theorem writeReg_memories {r : Reg} (hc : r ≠ .ctrl) (v : Word) (s : State) :
    (writeReg v s r).fmem = s.fmem ∧ (writeReg v s r).srcPal = s.srcPal ∧ (writeReg v s r).dstPal = s.dstPal ∧
      (writeReg v s r).oct = s.oct := by
  cases r <;> simp at hc <;> exact ⟨rfl, rfl, rfl, rfl⟩

theorem writeReg_readBack {s : State} (hi : s.inflight = none) (v : Word) {r : Reg} (hcmd : r ≠ .cmd) (hc : r ≠ .ctrl)
    (hs : r ≠ .status) :
    (r.implemented = 0 → writeReg v s r = s) ∧
      (r.implemented ≠ 0 → hostRead (writeReg v s r) (BitVec.ofNat 32 r.offset) .b4 = .data (v &&& r.implemented)) ∧
      ∀ q : Reg, q ≠ r → readReg (writeReg v s r) q = readReg s q := by
  by_cases h : r.implemented = 0
  · have hw : writeReg v s r = s := writeReg_of_ignored (Reg.writeKind_of_not_implemented h hc hs) v s
    exact ⟨fun _ => hw, fun hn => absurd h hn, fun q _ => by rw [hw]⟩
  · refine ⟨fun h0 => absurd h0 h, fun _ => ?_, fun q hq => ?_⟩
    · rw [hostRead_reg (by rw [writeReg_inflight hc hcmd, hi]), readReg_writeReg_self h]
    · exact readReg_writeReg_ne hq (Reg.writeKind_of_implemented h) hcmd v s

/-! ### Palette entries (R150) -/

theorem srcPalAt_of_get? {s : State} {i : Nat} {e : Colour} (h : Memory.get? s.srcPal i = some e) : srcPalAt s i = e := by
  simp [srcPalAt, h]

theorem dstPalAt_of_get? {s : State} {i : Nat} {e : Colour} (h : Memory.get? s.dstPal i = some e) : dstPalAt s i = e := by
  simp [dstPalAt, h]

theorem hostRead_srcPal {s : State} (hi : s.inflight = none) {i : Nat} (h : i < 256) :
    hostRead s (BitVec.ofNat 32 (0x400 + 4 * i)) .b4 = .data ((srcPalAt s i).setWidth 32) :=
  hostRead_of_access (access_srcPalWord s.cfg h) hi

theorem hostRead_dstPal {s : State} (hi : s.inflight = none) {i : Nat} (h : i < 256) :
    hostRead s (BitVec.ofNat 32 (0x800 + 4 * i)) .b4 = .data ((dstPalAt s i).setWidth 32) :=
  hostRead_of_access (access_dstPalWord s.cfg h) hi

/-- `SRC_PAL[i] <- c` by a host write in an idle block (`hostWrite_srcPal`). -/
def setSrcPal (i : Nat) (c : Colour) (s : State) : State := { s with srcPal := Memory.set s.srcPal i c }

theorem readReg_setSrcPal (i : Nat) (c : Colour) (s : State) (q : Reg) : readReg (setSrcPal i c s) q = readReg s q := by
  cases q <;> rfl

theorem hostWrite_srcPal {s : State} (hi : s.inflight = none) {i : Nat} (h : i < 256) (v : Word) :
    hostWrite s (BitVec.ofNat 32 (0x400 + 4 * i)) .b4 v = (setSrcPal i (v.extractLsb' 0 24) s, .ok) := by
  rw [hostWrite_of_access (access_srcPalWord s.cfg h)]
  simp [writeAccess, Target.writeKind, busy, hi, writeTarget, setSrcPal]

theorem hostWrite_dstPal (s : State) {i : Nat} (h : i < 256) (v : Word) :
    hostWrite s (BitVec.ofNat 32 (0x800 + 4 * i)) .b4 v = (s, .ok) :=
  hostWrite_of_access (access_dstPalWord s.cfg h) v

/-- The host reads back the 24 bits it wrote to an entry of SRC_PAL. -/
theorem hostRead_setSrcPal {s : State} (hi : s.inflight = none) {i : Nat} (h : i < 256) (v : Word) :
    hostRead (setSrcPal i (v.extractLsb' 0 24) s) (BitVec.ofNat 32 (0x400 + 4 * i)) .b4 = .data (v &&& 0x00FFFFFF) := by
  rw [hostRead_srcPal (s := setSrcPal i _ s) hi h, srcPalAt_of_get? (Memory.get?_set_self s.srcPal i _),
    setWidth_extractLsb'_zero v (by decide)]
  rfl

/-- Settles O53: the map lists every register with the word it shows, and a write acts on one register or entry alone. -/
theorem registersReadBack : Obligations.RegistersReadBack := by
  intro s v
  have shown (r : Reg) : (r.offset, (readReg s r).toNat) ∈ s.registerMap := by
    rw [registerMap_eq]
    exact List.mem_map.2 ⟨r, r.mem_all, rfl⟩
  refine ⟨shown, fun hi => ⟨fun p hp => hostRead_registerMap hi hp, fun i h => ⟨?_, ?_⟩, fun r hcmd hc hs => ?_,
    fun i h => ?_⟩⟩
  · exact ⟨srcPalAt s i, hostRead_srcPal hi h, fun e he => srcPalAt_of_get? he⟩
  · exact ⟨dstPalAt s i, hostRead_dstPal hi h, fun e he => dstPalAt_of_get? he⟩
  · obtain ⟨hro, hself, hother⟩ := writeReg_readBack hi v hcmd hc hs
    exact ⟨_, hostWrite_reg hi r v, hro, hself, hother, writeReg_memories hc v s⟩
  · exact ⟨_, hostWrite_srcPal hi h v, hostRead_setSrcPal hi h v, fun j hj => Memory.get?_set_ne _ _ hj,
      readReg_setSrcPal i _ s, rfl, rfl, rfl, hostWrite_dstPal s h v⟩

end Sys2Proof.Machine
end

section
/-! PROOFS. Power-on reset and the soft reset (R180, R1100 to R1103). -/

namespace Sys2Proof.Machine

/-! ### Reset values of the registers (R180) -/

theorem readReg_reset (r : Reg) : readReg .reset r = r.resetWord := by cases r <;> decide

theorem readReg_powerOn (b : Bool) (s : State) (r : Reg) : readReg (powerOn b s) r = r.resetWord := by
  rw [← readReg_reset]
  cases r <;> rfl

theorem readReg_softReset (s : State) (r : Reg) : readReg (softReset s) r = r.resetWord := by
  rw [← readReg_reset]
  cases r <;> rfl

/-! ### Power-on reset (R1100) -/

theorem powerOn_atPowerOn (b : Bool) (s : State) : (powerOn b s).AtPowerOn where
  registers := readReg_powerOn b s
  idle := rfl
  octree := rfl
  fmem _ := rfl
  srcPal _ := rfl
  dstPal _ := rfl

theorem resetWith_atPowerOn (cfg : Config) : (State.resetWith cfg).AtPowerOn := powerOn_atPowerOn true (.resetWith cfg)

theorem step_of_inputs {s : State} {i : Input} {rest : List Input} (h : s.inputs = i :: rest) :
    step s = perform (nextTurn rest s) i := by
  simp [step, turnState, nextInput, h]

/-- Settles O50: either edge of `rst_n` that acts leaves `powerOn`, whose values are those of power-on. -/
theorem powerOnValues : Obligations.PowerOnValues := by
  refine ⟨fun s rest h => ?_, fun s rest hr h => ?_, fun s rest h => ?_, fun cfg => ⟨resetWith_atPowerOn cfg, rfl, rfl⟩,
    resetWith_atPowerOn _, rfl, rfl, rfl, rfl⟩
  · exact ⟨powerOn false (nextTurn rest s), step_of_inputs h, powerOn_atPowerOn false _, rfl, rfl, rfl⟩
  · refine ⟨powerOn true (nextTurn rest s), ?_, powerOn_atPowerOn true _, rfl, rfl, rfl⟩
    simp [step_of_inputs h, perform, releaseReset, hr]
  · obtain ⟨hr, h⟩ | ⟨hr, h⟩ := h
    · simp [step_of_inputs h, perform, releaseReset, hr, nextTurn]
    · simp [step_of_inputs h, perform, engineTurn, hr, nextTurn]

theorem resetWith_sound {cfg : Config} (h : cfg.valid = true) : (State.resetWith cfg).Sound where
  params := h
  memories := by constructor <;> exact ⟨.nil, fun _ hc => absurd hc List.not_mem_nil⟩
  engine := {
    cmd := fun _ hw => by cases hw
    flags := fun _ => ⟨rfl, rfl⟩
    errInfo := fun _ => ⟨fun _ => rfl, fun he => by cases he⟩
    reset := fun _ => rfl }
  octree := Octree.empty_sound (Config.one_le_capacity h)

/-- Settles O58: the memories are empty, the engine is idle, and the octree is the empty one, which is sound. -/
theorem soundAtReset : Obligations.SoundAtReset :=
  ⟨fun _ h => resetWith_sound h, resetWith_sound (by decide)⟩

/-! ### The soft reset (R1102, R1103) -/

theorem footprint_of_mem_reformatRanges {s : State} {n a : Nat} {r : Nat × Nat} (h : r ∈ reformatRanges s n)
    (ha : InRange r.1 r.2 a) :
    ∃ f g, PixFmt.ofCode n = some g ∧ routeTable f g ≠ .unsupported ∧ SourceLegal s f ∧ DestinationLegal s g ∧
      Footprint s g a := by
  unfold reformatRanges at h
  split at h
  · cases h
  · rename_i f g route e
    obtain ⟨hg, rfl, hr, hs, hd⟩ := reformatChecks_ok_iff.1 e
    refine ⟨f, g, hg, hr, hs, hd, ?_⟩
    split at h
    · rename_i hm
      obtain rfl | rfl : r = (dstBase s, dstLen s g) ∨ r = (dstMaskBase s, maskLen s) := by simpa using h
      · exact .inl ha
      · exact .inr ⟨hm, ha⟩
    · obtain rfl := List.mem_singleton.1 h
      exact .inl ha

theorem pixel_of_mem_setpixelRanges {s : State} {a : Nat} {r : Nat × Nat} (h : r ∈ setpixelRanges s)
    (ha : InRange r.1 r.2 a) :
    ∃ f, SourceLegal s f ∧ xOperand s < srcW s ∧ yOperand s < srcH s ∧
      InRange (addressedByte s f) (pixelBytes f) a := by
  unfold setpixelRanges at h
  split at h
  · cases h
  · rename_i f e
    obtain ⟨hs, hx, hy⟩ := validatePixelAccess_ok_iff.1 e
    obtain rfl := List.mem_singleton.1 h
    exact ⟨f, hs, hx, hy, ha⟩

theorem mem_abortedRanges {s : State} {r : Nat × Nat} (h : r ∈ abortedRanges s) :
    (∃ n, s.inflight = some (encode (.reformat n)) ∧ r ∈ reformatRanges s n) ∨
      s.inflight = some (encode .setpixel) ∧ r ∈ setpixelRanges s := by
  unfold abortedRanges at h
  split at h
  · cases h
  · rename_i w hw
    split at h
    · rename_i i hi
      rw [hw, ← encode_of_decode hi]
      cases i <;> simp only [writtenRanges, List.not_mem_nil] at h
      case reformat n => exact .inl ⟨n, rfl, h⟩
      case setpixel => exact .inr ⟨rfl, h⟩
    · cases h

/-- Settles O51: a byte that lies in no range of the aborted command stays, and a range comes from a REFORMAT or a
SETPIXEL that passed its checks. -/
theorem softResetKeepsMemories : Obligations.SoftResetKeepsMemories := by
  intro s v
  rw [hostWrite_ctrl]
  refine ⟨fun hv => by rw [hv]; rfl, fun hv => ⟨softReset s, by rw [hv]; rfl, readReg_softReset s, rfl, rfl, rfl, rfl,
    fun a => ?_⟩⟩
  by_cases hr : ∃ r ∈ abortedRanges s, InRange r.1 r.2 a
  · obtain ⟨r, hmem, ha⟩ := hr
    obtain ⟨n, hw, hrf⟩ | ⟨hw, hsp⟩ := mem_abortedRanges hmem
    · obtain ⟨f, g, h⟩ := footprint_of_mem_reformatRanges hrf ha
      exact .inr (.inl ⟨n, f, g, hw, h⟩)
    · obtain ⟨f, h⟩ := pixel_of_mem_setpixelRanges hsp ha
      exact .inr (.inr ⟨f, hw, h⟩)
  · exact .inl (get?_abortedFmem_out fun r hm ha => hr ⟨r, hm, ha⟩)

end Sys2Proof.Machine
end

section
/-! PROOFS. The host's address map, the FMEM window and host transactions (R200 to R226): which accesses are bus errors, the
bytes of the window, and what the step of a transaction leaves. -/

namespace Sys2Proof.Machine

/-! ### The address map (R221 to R223) -/

theorem hostRead_of_access_none {s : State} {a : Word} {n : BusSize} (h : access s.cfg a.toNat n = none) :
    hostRead s a n = .busError := by
  simp [hostRead, h]

theorem hostWrite_of_access_none {s : State} {a : Word} {n : BusSize} (h : access s.cfg a.toNat n = none) (v : Word) :
    hostWrite s a n v = (s, .busError) := by
  simp [hostWrite, h]

theorem hostRead_data_of_access {s : State} {a : Word} {n : BusSize} {x : Target}
    (h : access s.cfg a.toNat n = some x) : ∃ w, hostRead s a n = .data w := by
  simp only [hostRead, h]
  split <;> exact ⟨_, rfl⟩

/-- The registers of R102 stand at the multiples of 4 in four ranges. -/
theorem Reg.exists_offset_eq_iff (a : Nat) :
    (∃ r : Reg, r.offset = a) ↔ a % 4 = 0 ∧
      (a ≤ 0x24 ∨ (0x40 ≤ a ∧ a ≤ 0x64) ∨ (0x80 ≤ a ∧ a ≤ 0xA4) ∨ (0xC0 ≤ a ∧ a ≤ 0xCC)) := by
  constructor
  · rintro ⟨r, rfl⟩
    cases r <;> decide
  · rintro ⟨h4, hr⟩
    have listed : ∀ k < 52, (4 * k ≤ 0x24 ∨ (0x40 ≤ 4 * k ∧ 4 * k ≤ 0x64) ∨ (0x80 ≤ 4 * k ∧ 4 * k ≤ 0xA4) ∨
        (0xC0 ≤ 4 * k ∧ 4 * k ≤ 0xCC)) → (Reg.ofOffset (4 * k)).isSome = true := by decide
    obtain ⟨k, rfl⟩ : ∃ k, a = 4 * k := ⟨a / 4, by omega⟩
    obtain ⟨r, hr⟩ := Option.isSome_iff_exists.1 (listed k (by omega) hr)
    exact ⟨r, Reg.offset_of_ofOffset hr⟩

theorem fmemWindow_add_mod_bytes (off : Nat) (n : BusSize) : (fmemWindow + off) % n.bytes = off % n.bytes := by
  unfold fmemWindow
  cases n <;> simp only [BusSize.bytes] <;> omega

/-- Exactly the mapped offsets and the FMEM window are reached. -/
theorem exists_access_iff (cfg : Config) (a : Nat) (n : BusSize) :
    (∃ x, access cfg a n = some x) ↔
      (a < 0xC00 ∧ n = .b4 ∧ a % 4 = 0 ∧
        (a ≤ 0x24 ∨ (0x40 ≤ a ∧ a ≤ 0x64) ∨ (0x80 ≤ a ∧ a ≤ 0xA4) ∨ (0xC0 ≤ a ∧ a ≤ 0xCC) ∨ 0x400 ≤ a)) ∨
      (0x00100000 ≤ a ∧ a + n.bytes ≤ 0x00100000 + cfg.fmemSize ∧ a % n.bytes = 0) := by
  constructor
  · rintro ⟨x, hx⟩
    obtain ⟨hlt, hn, ht⟩ | ⟨off, -, rfl, hmod, hle⟩ := access_eq_some hx
    · obtain ⟨h4, ⟨r, -, hr⟩ | ⟨i, hi, -, rfl⟩ | ⟨i, hi, -, rfl⟩⟩ := targetAt_eq_some ht
      · have := (Reg.exists_offset_eq_iff a).1 ⟨r, hr⟩
        exact .inl ⟨hlt, hn, by omega⟩
      · exact .inl ⟨hlt, hn, by omega⟩
      · exact .inl ⟨hlt, hn, by omega⟩
    · exact .inr ⟨by unfold fmemWindow; omega, by unfold fmemWindow; omega, by rw [fmemWindow_add_mod_bytes, hmod]⟩
  · rintro (⟨hlt, rfl, h4, hr⟩ | ⟨hge, hle, hmod⟩)
    · obtain hreg | hsrc | hdst : a < 0x400 ∨ (0x400 ≤ a ∧ a < 0x800) ∨ 0x800 ≤ a := by omega
      · obtain ⟨r, rfl⟩ := (Reg.exists_offset_eq_iff a).2 ⟨h4, by omega⟩
        exact ⟨_, access_reg cfg r⟩
      · obtain ⟨i, rfl⟩ : ∃ i, a = 0x400 + 4 * i := ⟨(a - 0x400) / 4, by omega⟩
        exact ⟨_, access_srcPal cfg (by omega)⟩
      · obtain ⟨i, rfl⟩ : ∃ i, a = 0x800 + 4 * i := ⟨(a - 0x800) / 4, by omega⟩
        exact ⟨_, access_dstPal cfg (by omega)⟩
    · obtain ⟨off, rfl⟩ : ∃ off, a = fmemWindow + off := ⟨a - fmemWindow, by unfold fmemWindow; omega⟩
      exact ⟨_, access_fmem (by rw [← fmemWindow_add_mod_bytes, hmod]) (by unfold fmemWindow at hle; omega)⟩

/-- Settles O52: a transaction is a bus error exactly when its access reaches nothing, and then the state stays. -/
theorem busErrorsChangeNothing : Obligations.BusErrorsChangeNothing := by
  intro s a n v
  dsimp only
  rw [← exists_access_iff s.cfg a.toNat n]
  refine ⟨fun h => ?_, fun ⟨x, hx⟩ => ⟨hostRead_data_of_access hx, _, hostWrite_of_access hx v⟩⟩
  have hnone : access s.cfg a.toNat n = none := Option.eq_none_iff_forall_not_mem.2 fun x hx => h ⟨x, hx⟩
  exact ⟨hostRead_of_access_none hnone, hostWrite_of_access_none hnone v⟩

/-! ### The bytes of the FMEM window (R223, R224) -/

theorem access_fmemWord {cfg : Config} (hv : cfg.valid = true) {off : Nat} {n : BusSize} (hmod : off % n.bytes = 0)
    (hle : off + n.bytes ≤ cfg.fmemSize) :
    access cfg (BitVec.ofNat 32 (0x00100000 + off)).toNat n = some (.fmem off) := by
  have hsize : cfg.fmemSize ≤ 0x0FF00000 := by
    simp only [Config.valid, Bool.and_eq_true, decide_eq_true_eq] at hv
    exact hv.1.2
  rw [BitVec.toNat_ofNat, Nat.mod_eq_of_lt (by omega)]
  exact access_fmem hmod hle

/-- Below a lowest byte, each byte of a word stands one place higher (R224). -/
theorem extractLsb'_succ_append_byte {w : Nat} (x : BitVec w) (b : Byte) (i : Nat) :
    (x ++ b).extractLsb' (8 * (i + 1)) 8 = x.extractLsb' (8 * i) 8 := by
  rw [BitVec.extractLsb'_append_eq_of_le (by omega), show 8 * (i + 1) - 8 = 8 * i by omega]

/-- Byte `i` of a 2-byte read is the byte at offset `i` (R224). -/
theorem extractLsb'_read16 (d : Nat) (m : List Host.Cell) (a : Nat) {i : Nat} (hi : i < 2) :
    (read16 d m a).extractLsb' (8 * i) 8 = read8 d m (a + i) := by
  obtain rfl | rfl : i = 0 ∨ i = 1 := by omega
  · exact BitVec.extractLsb'_append_eq_right
  · exact BitVec.extractLsb'_append_eq_left

/-- Byte `i` of a 4-byte read is the byte at offset `i` (R224). -/
theorem extractLsb'_read32 (d : Nat) (m : List Host.Cell) (a : Nat) {i : Nat} (hi : i < 4) :
    (read32 d m a).extractLsb' (8 * i) 8 = read8 d m (a + i) := by
  obtain rfl | rfl | rfl | rfl : i = 0 ∨ i = 1 ∨ i = 2 ∨ i = 3 := by omega
  · exact BitVec.extractLsb'_append_eq_right
  · exact (extractLsb'_succ_append_byte _ _ 0).trans BitVec.extractLsb'_append_eq_right
  · exact (extractLsb'_succ_append_byte _ _ 1).trans
      ((extractLsb'_succ_append_byte _ _ 0).trans BitVec.extractLsb'_append_eq_right)
  · exact (extractLsb'_succ_append_byte _ _ 2).trans
      ((extractLsb'_succ_append_byte _ _ 1).trans BitVec.extractLsb'_append_eq_left)

theorem append_extract32 (v : BitVec 32) :
    v.extractLsb' 24 8 ++ v.extractLsb' 16 8 ++ v.extractLsb' 8 8 ++ v.extractLsb' 0 8 = v := by
  calc v.extractLsb' 24 8 ++ v.extractLsb' 16 8 ++ v.extractLsb' 8 8 ++ v.extractLsb' 0 8
      = v.extractLsb' 16 16 ++ v.extractLsb' 8 8 ++ v.extractLsb' 0 8 :=
        congrArg (· ++ v.extractLsb' 8 8 ++ v.extractLsb' 0 8) (BitVec.extractLsb'_append_extractLsb'_eq_extractLsb' rfl)
    _ = v.extractLsb' 8 24 ++ v.extractLsb' 0 8 :=
        congrArg (· ++ v.extractLsb' 0 8) (BitVec.extractLsb'_append_extractLsb'_eq_extractLsb' rfl)
    _ = v.extractLsb' 0 32 := BitVec.extractLsb'_append_extractLsb'_eq_extractLsb' rfl
    _ = v := BitVec.extractLsb'_eq_self

theorem get?_write8_self (m : List Host.Cell) (a : Nat) (v : Byte) : Memory.get? (write8 m a v) a = some v :=
  Memory.get?_set_self m a v

theorem get?_write16_in (m : List Host.Cell) (a : Nat) (v : BitVec 16) {i : Nat} (hi : i < 2) :
    Memory.get? (write16 m a v) (a + i) = some (v.extractLsb' (8 * i) 8) := by
  unfold write16 write8
  obtain rfl | rfl : i = 0 ∨ i = 1 := by omega
  all_goals simp [Memory.get?_set]

theorem get?_write32_in (m : List Host.Cell) (a : Nat) (v : BitVec 32) {i : Nat} (hi : i < 4) :
    Memory.get? (write32 m a v) (a + i) = some (v.extractLsb' (8 * i) 8) := by
  unfold write32 write8
  obtain rfl | rfl | rfl | rfl : i = 0 ∨ i = 1 ∨ i = 2 ∨ i = 3 := by omega
  all_goals simp [Memory.get?_set]

/-- A 4-byte read after a 4-byte write gives the value written. -/
@[simp] theorem read32_write32_self (d : Nat) (m : List Host.Cell) (a : Nat) (v : BitVec 32) :
    read32 d (write32 m a v) a = v := by
  have byte {i : Nat} (hi : i < 4) : read8 d (write32 m a v) (a + i) = v.extractLsb' (8 * i) 8 := by
    simp [read8, get?_write32_in m a v hi]
  have h0 : read8 d (write32 m a v) a = v.extractLsb' 0 8 := byte (i := 0) (by decide)
  rw [read32, h0, byte (by decide), byte (by decide), byte (by decide), append_extract32]

/-- Byte `i` of a host read of FMEM is the byte at offset `i`, for each size. -/
theorem extractLsb'_readFmem (s : State) (off : Nat) {n : BusSize} {i : Nat} (hi : i < n.bytes) :
    (readFmem s off n).extractLsb' (8 * i) 8 = read8 s.draws s.fmem (off + i) := by
  cases n with
  | b1 =>
    obtain rfl : i = 0 := Nat.lt_one_iff.1 hi
    rw [readFmem, BitVec.extractLsb'_setWidth_of_le (by decide), BitVec.extractLsb'_eq_self, Nat.add_zero]
  | b2 =>
    have hi : i < 2 := hi
    rw [readFmem, BitVec.extractLsb'_setWidth_of_le (by omega), extractLsb'_read16 _ _ _ hi]
  | b4 => exact extractLsb'_read32 _ _ _ hi

/-- Above its bytes a host read of FMEM is 0 (R223). -/
theorem readFmem_toNat_lt (s : State) (off : Nat) (n : BusSize) : (readFmem s off n).toNat < 2 ^ (8 * n.bytes) := by
  cases n with
  | b1 => exact (BitVec.toNat_setWidth_of_le (by decide)).trans_lt (BitVec.isLt _)
  | b2 => exact (BitVec.toNat_setWidth_of_le (by decide)).trans_lt (BitVec.isLt _)
  | b4 => exact BitVec.isLt _

/-- A host write of FMEM puts byte `i` of the value at offset `i`, for each size. -/
theorem get?_writeFmem_in (m : List Host.Cell) (off : Nat) {n : BusSize} (v : Word) {i : Nat} (hi : i < n.bytes) :
    Memory.get? (writeFmem m off n v) (off + i) = some (v.extractLsb' (8 * i) 8) := by
  cases n with
  | b1 =>
    obtain rfl : i = 0 := Nat.lt_one_iff.1 hi
    exact get?_write8_self _ _ _
  | b2 =>
    have hi : i < 2 := hi
    rw [writeFmem, get?_write16_in _ _ _ hi, BitVec.extractLsb'_extractLsb'_of_le (by omega)]
  | b4 => exact get?_write32_in _ _ _ hi

theorem readFmem_writeFmem_self (s : State) (off : Nat) (n : BusSize) (v : Word) :
    readFmem { s with fmem := writeFmem s.fmem off n v } off n = v &&& (0xFFFFFFFF >>> (32 - 8 * n.bytes)) := by
  cases n with
  | b1 =>
    rw [readFmem, writeFmem, read8_write8_self, setWidth_extractLsb'_zero v (by decide)]
    rfl
  | b2 =>
    rw [readFmem, writeFmem, read16_write16_self, setWidth_extractLsb'_zero v (by decide)]
    rfl
  | b4 =>
    rw [readFmem, writeFmem, read32_write32_self]
    exact BitVec.and_allOnes.symm

theorem hostWrite_fmem {s : State} (hi : s.inflight = none) {a : Word} {n : BusSize} {off : Nat}
    (h : access s.cfg a.toNat n = some (.fmem off)) (v : Word) :
    hostWrite s a n v = ({ s with fmem := writeFmem s.fmem off n v }, .ok) := by
  rw [hostWrite_of_access h]
  simp [writeAccess, Target.writeKind, busy, hi, writeTarget, setFmem]

/-- Settles O54: byte `i` of either transaction is the byte of FMEM at offset `i`. -/
theorem fmemIsLittleEndian : Obligations.FmemIsLittleEndian := by
  intro s off n v hi hv hmod hle
  have ha := access_fmemWord hv hmod hle
  refine ⟨⟨readFmem s off n, hostRead_of_access ha hi, readFmem_toNat_lt s off n, fun i b hb hget => ?_⟩,
    writeFmem s.fmem off n v, hostWrite_fmem hi ha v, fun i hb => get?_writeFmem_in s.fmem off v hb, fun a hout => ?_, ?_⟩
  · rw [extractLsb'_readFmem s off hb, read8, hget]
    rfl
  · refine get?_writeFmem_out s.fmem off n v ?_
    unfold InRange at hout
    omega
  · rw [← readFmem_writeFmem_self s off n v]
    exact hostRead_of_access (s := { s with fmem := writeFmem s.fmem off n v }) ha hi

/-! ### Host transactions as steps (R200, R225, R226) -/

theorem hostTransaction_of_rstN {s : State} (h : s.rstN = true) (t : State × BusResponse) :
    hostTransaction s t = .next (answer t.2 t.1) := if_pos h

theorem hostTransaction_in_reset {s : State} (h : s.rstN = false) (t : State × BusResponse) :
    hostTransaction s t = .fault .hostTransactionInReset := if_neg (by simp [h])

/-- Settles O57: the step takes the transaction off the inputs and performs it, and `rst_n` decides whether it takes
place. -/
theorem hostTransactionsAreSteps : Obligations.HostTransactionsAreSteps := by
  intro s a v n rest
  refine ⟨fun hr h => ?_, fun hr h => ?_, fun hr h => ?_⟩
  · rw [step_of_inputs h]
    exact hostTransaction_of_rstN hr _
  · rw [step_of_inputs h]
    exact hostTransaction_of_rstN hr _
  · obtain h | h := h <;> rw [step_of_inputs h] <;> exact hostTransaction_in_reset hr _

end Sys2Proof.Machine
end

section
/-! PROOFS. The command word as a code (R310, R311, R316): decoding undoes encoding, and every word decodes by its
fields. -/

namespace Sys2Proof

open Sys2Proof.Machine

/-! ### The fields as numbers (R310) -/

theorem opcodeField_toNat (w : Word) : (opcodeField w).toNat = w.toNat % 256 := by
  simp [opcodeField]

theorem fmtField_toNat (w : Word) : (fmtField w).toNat = w.toNat / 256 % 8 := by
  simp [fmtField, Nat.shiftRight_eq_div_pow]

theorem rsvdField_toNat (w : Word) : (rsvdField w).toNat = w.toNat / 2048 := by
  have := w.isLt
  simp only [rsvdField, BitVec.extractLsb'_toNat, Nat.shiftRight_eq_div_pow]
  omega

theorem fmtField_eq_zero_iff (w : Word) : fmtField w = 0 ↔ w.toNat / 256 % 8 = 0 := by
  rw [← fmtField_toNat, ← BitVec.toNat_inj]
  rfl

theorem rsvdField_eq_zero_iff (w : Word) : rsvdField w = 0 ↔ w.toNat / 2048 = 0 := by
  rw [← rsvdField_toNat, ← BitVec.toNat_inj]
  rfl

/-! ### RSVD first (R313, R316) -/

theorem decode_of_rsvd_zero {w : Word} (h : rsvdField w = 0) : decode w = decodeFields (opcodeField w) (fmtField w) :=
  if_pos h

theorem decode_of_rsvd_ne_zero {w : Word} (h : rsvdField w ≠ 0) : decode w = .error .reservedBits := if_neg h

/-- A word that decodes has the OPCODE and the FMT of its command. -/
theorem fields_of_decode {w : Word} {i : Instr} (h : decode w = .ok i) :
    i.opcode = opcodeField w ∧ i.fmtCode = (fmtField w).toNat := by
  by_cases hr : rsvdField w = 0
  · exact decodeFields_ok (decode_of_rsvd_zero hr ▸ h)
  · rw [decode_of_rsvd_ne_zero hr] at h
    cases h

/-! ### Decoding undoes encoding -/

theorem fields_of_encode {i : Instr} (h : i.wellFormed = true) :
    opcodeField (encode i) = i.opcode ∧ (fmtField (encode i)).toNat = i.fmtCode ∧ rsvdField (encode i) = 0 := by
  cases i with
  | nop => exact Laws.Encoding.nop h
  | reformat fmt => exact Laws.Encoding.reformat fmt h
  | getpixel => exact Laws.Encoding.getpixel h
  | setpixel => exact Laws.Encoding.setpixel h
  | palMatch => exact Laws.Encoding.palMatch h
  | pack fmt => exact Laws.Encoding.pack fmt h
  | unpack fmt => exact Laws.Encoding.unpack fmt h
  | stride fmt => exact Laws.Encoding.stride fmt h
  | octReset => exact Laws.Encoding.octReset h
  | octAdd => exact Laws.Encoding.octAdd h
  | octReduce => exact Laws.Encoding.octReduce h
  | octPalette => exact Laws.Encoding.octPalette h
  | octIndex => exact Laws.Encoding.octIndex h

/-- The converse of `decodeFields_ok`. -/
theorem decodeFields_of_opcode_fmtCode {i : Instr} {fmt : BitVec 3} (h : fmt.toNat = i.fmtCode) :
    decodeFields i.opcode fmt = .ok i := by
  cases i
  case reformat | pack | unpack | stride =>
    cases h
    rfl
  all_goals exact if_pos (BitVec.eq_of_toNat_eq h)

theorem decode_encode {i : Instr} (h : i.wellFormed = true) : decode (encode i) = .ok i := by
  obtain ⟨hop, hfmt, hr⟩ := fields_of_encode h
  rw [decode_of_rsvd_zero hr, hop, decodeFields_of_opcode_fmtCode hfmt]

theorem decodeBytes_wordBytes {w : Word} {i : Instr} (h : decode w = .ok i) (rest : List Byte) :
    decodeBytes (wordBytes w ++ rest) = .ok (i, rest) := by
  simp [decodeBytes, wordBytes, append_extract32, h]

/-- Settles O1: the fields of the word are the command's, and they select its arm of the opcode map. -/
theorem decodeOfEncode : Obligations.DecodeOfEncode :=
  fun _ hi => ⟨decode_encode hi, decodeBytes_wordBytes (decode_encode hi)⟩

/-- Settles O2: the FORMAT of the command is the 3-bit field FMT. -/
theorem encodeOfDecode : Obligations.EncodeOfDecode := by
  intro w i h
  obtain ⟨-, hfmt⟩ := fields_of_decode h
  have h8 : i.fmtCode < 8 := hfmt ▸ (fmtField w).isLt
  exact ⟨decide_eq_true h8, encode_of_decode h⟩

/-! ### Every word by its fields (R312 to R314) -/

/-- OPCODE is in the opcode map (R311). -/
def OpcodeDefined (op : Nat) : Prop := op ≤ 0x07 ∨ (0x10 ≤ op ∧ op ≤ 0x14)

/-- OPCODE is REFORMAT, PACK, UNPACK or STRIDE (R314). -/
def OpcodeTakesFormat (op : Nat) : Prop := op = 0x01 ∨ op = 0x05 ∨ op = 0x06 ∨ op = 0x07

theorem decodeFields_of_not_defined {op : BitVec 8} (h : ¬ OpcodeDefined op.toNat) (fmt : BitVec 3) :
    decodeFields op fmt = .error .reservedOpcode := by
  unfold OpcodeDefined at h
  unfold decodeFields
  split
  case h_14 => rfl
  all_goals omega

/-- Of a defined OPCODE that takes no format, FMT alone decides whether the word is legal. -/
theorem decodeFields_of_not_takesFormat {op : BitVec 8} (hop : OpcodeDefined op.toNat)
    (ht : ¬ OpcodeTakesFormat op.toNat) (fmt : BitVec 3) : ∃ i, decodeFields op fmt = plainCommand fmt i := by
  unfold OpcodeDefined at hop
  unfold OpcodeTakesFormat at ht
  unfold decodeFields
  split
  case h_2 | h_6 | h_7 | h_8 => omega
  -- The default arm is for an OPCODE outside the map (R312).
  case h_14 =>
    simp only [imp_false] at *
    omega
  all_goals exact ⟨_, rfl⟩

theorem decodeFields_of_takesFormat {op : BitVec 8} (h : OpcodeTakesFormat op.toNat) (fmt : BitVec 3) :
    ∃ i, decodeFields op fmt = .ok i := by
  obtain h | h | h | h := h <;> simp [decodeFields, h]

theorem decodeFields_of_legal {op : BitVec 8} {fmt : BitVec 3} (hop : OpcodeDefined op.toNat)
    (h : OpcodeTakesFormat op.toNat ∨ fmt = 0) : ∃ i, decodeFields op fmt = .ok i := by
  by_cases ht : OpcodeTakesFormat op.toNat
  · exact decodeFields_of_takesFormat ht fmt
  · obtain ⟨i, hi⟩ := decodeFields_of_not_takesFormat hop ht fmt
    exact ⟨i, hi.trans (if_pos (h.resolve_left ht))⟩

theorem completeWord_of_decode_error {w : Word} {e : DecodeError} (h : decode w = .error e) (s : State) :
    completeWord w s = .next (takeError .illegalCommand s) := by
  simp [completeWord, h]

/-- Settles O3: RSVD selects the branch of `decode`, and OPCODE and FMT the arm of the opcode map. -/
theorem decodeByFields : Obligations.DecodeByFields := by
  intro w
  dsimp only
  rw [← opcodeField_toNat]
  have hd (hr : w.toNat / 2048 = 0) : decode w = decodeFields (opcodeField w) (fmtField w) :=
    decode_of_rsvd_zero ((rsvdField_eq_zero_iff w).2 hr)
  refine ⟨fun hr => ?_, fun hr hop => ?_, fun hr hop ht hfmt => ?_, fun hr hop hfmt => ?_,
    fun e he s => ⟨fun hi => ?_, ?_⟩⟩
  · exact decode_of_rsvd_ne_zero (mt (rsvdField_eq_zero_iff w).1 hr)
  · exact (hd hr).trans (decodeFields_of_not_defined hop _)
  · obtain ⟨i, hi⟩ := decodeFields_of_not_takesFormat hop ht (fmtField w)
    rw [hd hr, hi]
    exact if_neg (mt (fmtField_eq_zero_iff w).1 hfmt)
  · obtain ⟨i, hi⟩ := decodeFields_of_legal hop (hfmt.imp_right (fmtField_eq_zero_iff w).2)
    obtain ⟨hiop, hifmt⟩ := decodeFields_ok hi
    exact ⟨i, (hd hr).trans hi, congrArg BitVec.toNat hiop, hifmt.trans (fmtField_toNat w)⟩
  · exact hostWrite_reg hi .cmd w
  · exact completeWord_of_decode_error he s

/-- Settles O4: each word is OPCODE + 256 FMT of its command, so `decode_encode` reads it back. -/
theorem opcodeMapWords : Obligations.OpcodeMapWords :=
  ⟨decode_encode (i := .nop) rfl, decode_encode (i := .reformat 2) rfl, decode_encode (i := .reformat 5) rfl,
    decode_encode (i := .getpixel) rfl, decode_encode (i := .setpixel) rfl, decode_encode (i := .palMatch) rfl,
    decode_encode (i := .pack 4) rfl, decode_encode (i := .unpack 3) rfl, decode_encode (i := .stride 1) rfl,
    decode_encode (i := .octReset) rfl, decode_encode (i := .octAdd) rfl, decode_encode (i := .octReduce) rfl,
    decode_encode (i := .octPalette) rfl, decode_encode (i := .octIndex) rfl⟩

end Sys2Proof
end

section
/-! PROOFS. Completion (R403, R410): every command ends in every state, and the command in flight ends once the inputs
are used up. -/

namespace Sys2Proof.Machine

/-! ### Every command completes (R410) -/

/-- Each command's rule ends in the `complete` of R410. -/
theorem exec_eq_complete (i : Instr) (s : State) : ∃ r, exec i s = complete s r := by
  cases i
  case nop => exact ⟨.ok s, rfl⟩
  case octReset => exact ⟨.ok (setOct .empty s), rfl⟩
  all_goals exact ⟨_, rfl⟩

theorem exec_completes (i : Instr) (s : State) : ∃ t, exec i s = .next t := by
  obtain ⟨r, hr⟩ := exec_eq_complete i s
  cases r with
  | error e => exact ⟨takeError e s, hr⟩
  | ok w => exact ⟨finish w, hr⟩

theorem completeWord_of_decode_ok {w : Word} {i : Instr} (h : decode w = .ok i) (s : State) :
    completeWord w s = exec i s := by
  simp [completeWord, h]

theorem completeWord_completes (w : Word) (s : State) : ∃ t, completeWord w s = .next t := by
  cases h : decode w with
  | error e => exact ⟨_, completeWord_of_decode_error h s⟩
  | ok i => exact completeWord_of_decode_ok h s ▸ exec_completes i s

/-- Whatever the word, its completion is the error entry on the old state or normal completion of a working copy. -/
theorem completeWord_end {w : Word} {s t : State} (h : completeWord w s = .next t) :
    (∃ e, t = takeError e s) ∨ ∃ u, t = finish u := by
  obtain ⟨i, -, hi⟩ | rfl := completeWord_cases h
  · exact (exec_cases hi).imp_right fun ⟨u, _, hu⟩ => ⟨u, hu⟩
  · exact .inl ⟨_, rfl⟩

theorem CmdError.subcode_of_code_ne {e : CmdError} (h : e.code ≠ .invalidArgument) : e.subcode = 0 := by
  cases e with
  | invalidArgument sub => exact absurd rfl h
  | _ => rfl

/-- Settles O7: the error entry and normal completion both end the command, and only INVALID_ARGUMENT has a subcode. -/
theorem everyCommandCompletes : Obligations.EveryCommandCompletes := by
  intro w s
  obtain ⟨t, ht⟩ := completeWord_completes w s
  refine ⟨t, ht, ?_⟩
  obtain ⟨e, rfl⟩ | ⟨u, rfl⟩ := completeWord_end ht
  · exact ⟨rfl, rfl, CmdError.subcode_of_code_ne⟩
  · exact ⟨rfl, rfl, fun _ => rfl⟩

/-! ### The engine's turn (R400, R401) -/

theorem engineTurn_of_inflight {s : State} {w : Word} (hr : s.rstN = true) (hw : s.inflight = some w) :
    engineTurn s = completeWord w s := by
  simp [engineTurn, hr, hw]

/-- Out of reset the engine's turn leaves nothing in flight, and `rst_n` and the inputs as they were. -/
theorem engineTurn_ends {s : State} (hr : s.rstN = true) :
    ∃ t, engineTurn s = .next t ∧ t.inflight = none ∧ t.rstN = true ∧ t.inputs = s.inputs := by
  cases hw : s.inflight with
  | none => exact ⟨s, by simp [engineTurn, hr, hw], hw, hr, rfl⟩
  | some w =>
    obtain ⟨t, ht, hidle, -, -⟩ := everyCommandCompletes w s
    have kept := commandsKeepTheirInputs w s t ht
    exact ⟨t, (engineTurn_of_inflight hr hw).trans ht, hidle, kept.rstN.trans hr, kept.inputs⟩

/-! ### Steps out of reset (R200, R1100) -/

/-- A write to a register, the soft reset of CTRL among them, reaches neither `rst_n` nor the inputs. -/
theorem writeReg_keeps_agents (v : Word) (s : State) (r : Reg) :
    (writeReg v s r).rstN = s.rstN ∧ (writeReg v s r).inputs = s.inputs := by
  cases r with
  | ctrl =>
    unfold writeReg
    cases v.getLsbD 0 <;> exact ⟨rfl, rfl⟩
  | _ => exact ⟨rfl, rfl⟩

theorem writeTarget_keeps_agents (n : BusSize) (v : Word) (s : State) (x : Target) :
    (writeTarget n v s x).rstN = s.rstN ∧ (writeTarget n v s x).inputs = s.inputs := by
  cases x with
  | reg r => exact writeReg_keeps_agents v s r
  | _ => exact ⟨rfl, rfl⟩

theorem writeAccess_keeps_agents (n : BusSize) (v : Word) (s : State) (x : Target) :
    (writeAccess n v s x).rstN = s.rstN ∧ (writeAccess n v s x).inputs = s.inputs := by
  unfold writeAccess
  cases x.writeKind with
  | ignored => exact ⟨rfl, rfl⟩
  | always => exact writeTarget_keeps_agents n v s x
  | stored =>
    cases busy s with
    | true => exact ⟨rfl, rfl⟩
    | false => exact writeTarget_keeps_agents n v s x

theorem hostWrite_keeps_agents (s : State) (a : Word) (n : BusSize) (v : Word) :
    (hostWrite s a n v).1.rstN = s.rstN ∧ (hostWrite s a n v).1.inputs = s.inputs := by
  cases h : access s.cfg a.toNat n with
  | none => simp [hostWrite_of_access_none h]
  | some x => simpa only [hostWrite_of_access h] using writeAccess_keeps_agents n v s x

/-- Out of reset every input but the falling edge of `rst_n` acts, and the block stays out of reset. -/
theorem perform_of_ne_resetAssert {s : State} {i : Input} (hr : s.rstN = true) (hi : i ≠ .resetAssert) :
    ∃ t, perform s i = .next t ∧ t.rstN = true ∧ t.inputs = s.inputs := by
  cases i with
  | read a n => exact ⟨_, hostTransaction_of_rstN hr _, hr, rfl⟩
  | write a n v =>
    obtain ⟨hrst, hin⟩ := hostWrite_keeps_agents s a n v
    exact ⟨_, hostTransaction_of_rstN hr _, hrst.trans hr, hin⟩
  | engine =>
    obtain ⟨t, ht, -, hrt, hit⟩ := engineTurn_ends hr
    exact ⟨t, ht, hrt, hit⟩
  | resetAssert => exact absurd rfl hi
  | resetRelease => exact ⟨s, by simp [perform, releaseReset, hr], hr, rfl⟩

theorem step_of_headD_engine {s : State} (h : s.inputs.headD .engine = .engine) :
    step s = engineTurn (nextTurn s.inputs.tail s) := by
  simp only [step, nextInput, h]
  rfl

theorem run_succ_of_step {k : Nat} {s t : State} (h : step s = .next t) :
    Host.Core.run Sys2Proof.core (k + 1) s = Host.Core.run Sys2Proof.core k t := by
  have hc : Sys2Proof.core.step s = .next t := h
  simp [Host.Core.run, hc]

/-- Settles O60: each step takes one input, and the step after the last is the engine's turn (log 5). -/
theorem completionIsGuaranteed : Obligations.CompletionIsGuaranteed := by
  intro s hr hin
  suffices ∃ t, Host.Core.run Sys2Proof.core (s.inputs.length + 1) s = .next t ∧ t.inflight = none by
    obtain ⟨t, ht, hidle⟩ := this
    exact ⟨_, t, le_rfl, ht, hidle⟩
  induction h : s.inputs generalizing s with
  | nil =>
    obtain ⟨t, ht, hidle, -, -⟩ := engineTurn_ends (s := nextTurn s.inputs.tail s) hr
    have hstep : step s = .next t := (step_of_headD_engine (by rw [h]; rfl)).trans ht
    exact ⟨t, run_succ_of_step hstep, hidle⟩
  | cons i rest ih =>
    rw [h, List.mem_cons, not_or] at hin
    obtain ⟨hi, hrest⟩ := hin
    obtain ⟨t, ht, hrt, hit⟩ := perform_of_ne_resetAssert (s := nextTurn rest s) hr (Ne.symm hi)
    have hit : t.inputs = rest := hit
    obtain ⟨u, hu, hidle⟩ := ih t hrt (hit ▸ hrest) hit
    exact ⟨u, (run_succ_of_step ((step_of_inputs h).trans ht)).trans hu, hidle⟩

/-! ### The step of a command (R170, R410) -/

/-- A table row's word decodes to what its four bytes decode to. -/
theorem decode_of_decodeTableWord {nbits w : Nat} {i : Instr} (h : decodeTableWord nbits w = some i) :
    decode (tableWord nbits w) = .ok i := by
  cases hd : decode (tableWord nbits w) with
  | error e => simp [decodeTableWord, decodeBytes, wordBytes, append_extract32, hd] at h
  | ok j => simpa [decodeTableWord, decodeBytes, wordBytes, append_extract32, hd] using h

theorem step_of_inflight {s : State} {w : Word} {i : Instr} (hr : s.rstN = true) (hw : s.inflight = some w)
    (he : s.inputs.headD .engine = .engine) (hd : decode w = .ok i) :
    step s = exec i (nextTurn s.inputs.tail s) := by
  rw [step_of_headD_engine he, engineTurn_of_inflight (s := nextTurn s.inputs.tail s) hr hw,
    completeWord_of_decode_ok hd]

/-- Settles O5: the engine's turn completes the word in flight, and `withFetchWord` puts that turn first. -/
theorem stepRunsDecodedCommand : Obligations.StepRunsDecodedCommand :=
  ⟨fun _ _ _ hr hw he hd => step_of_inflight hr hw he hd,
    fun s nbits w _ h => step_of_inflight (s := s.withFetchWord nbits w) rfl rfl rfl (decode_of_decodeTableWord h)⟩

end Sys2Proof.Machine
end

section
/-! PROOFS. The host and the command in flight (R402, R404, R420): acceptance in an idle block, accesses while BUSY, and
NOP. -/

namespace Sys2Proof.Machine

/-! ### Accesses while BUSY (R404) -/

theorem hostWrite_ignored {s : State} {a : Word} {n : BusSize} {x : Target} (h : access s.cfg a.toNat n = some x)
    (hk : x.writeKind = .ignored) (v : Word) : hostWrite s a n v = (s, .ok) := by
  simp [hostWrite_of_access h, writeAccess, hk]

theorem hostWrite_dropped {s : State} {a : Word} {n : BusSize} {x : Target} (hb : s.inflight.isSome = true)
    (h : access s.cfg a.toNat n = some x) (hk : x.writeKind = .stored) (v : Word) :
    hostWrite s a n v = ({ s with ovr := true }, .ok) := by
  simp [hostWrite_of_access h, writeAccess, hk, busy, hb, setOverrun]

theorem hostRead_of_not_output {s : State} {a : Word} {n : BusSize} {x : Target} (h : access s.cfg a.toNat n = some x)
    (hx : x.isOutput = false) : hostRead s a n = .data (readTarget s n x) := by
  simp [hostRead, h, hx]

theorem Reg.isOutput_of_implemented {r : Reg} (h : r.implemented ≠ 0) : r.isOutput = false := by
  cases r <;> simp [Reg.implemented] at h <;> rfl

theorem hostWrite_reg_dropped {s : State} (hb : s.inflight.isSome = true) {r : Reg} (h : r.implemented ≠ 0) (v : Word) :
    hostWrite s (BitVec.ofNat 32 r.offset) .b4 v = ({ s with ovr := true }, .ok) :=
  hostWrite_dropped hb (access_regWord s.cfg r) (Reg.writeKind_of_implemented h) v

/-- Settles O56: what an access reaches decides whether a write is dropped or ignored, and whether a read is of an
output. -/
theorem busyAccesses : Obligations.BusyAccesses := by
  intro s v hb
  refine ⟨fun r h => ⟨?_, ?_⟩, fun r h hc hs => ?_, fun r h => ?_, fun i hi => ⟨?_, ?_, ?_⟩, fun off n hv hmod hle => ?_⟩
  · exact hostWrite_reg_dropped hb h v
  · exact hostRead_of_not_output (access_regWord s.cfg r) (Reg.isOutput_of_implemented h)
  · exact hostWrite_ignored (access_regWord s.cfg r) (Reg.writeKind_of_not_implemented h hc hs) v
  · refine hostRead_of_not_output (access_regWord s.cfg r) ?_
    obtain rfl | rfl | rfl := h <;> rfl
  · exact hostWrite_dropped hb (access_srcPalWord s.cfg hi) rfl v
  · exact hostRead_of_not_output (access_srcPalWord s.cfg hi) rfl
  · exact hostWrite_dstPal s hi v
  · exact hostWrite_dropped hb (access_fmemWord hv hmod hle) rfl v

/-! ### Acceptance (R402) -/

/-- Settles O6: a write to CMD in an idle block is `acceptCommand`. -/
theorem commandAcceptance : Obligations.CommandAcceptance :=
  fun _ w hi => hostWrite_reg hi .cmd w

/-! ### NOP (R420) -/

theorem eq_nop_of_opcode {i : Instr} (h : i.opcode.toNat = 0) : i = .nop := by
  cases i with
  | nop => rfl
  | _ => cases h

/-- With OPCODE 0x00 the word 0 alone decodes. -/
theorem decode_error_of_opcode_zero {w : Word} (hop : w.toNat % 256 = 0) (hw : w ≠ 0) : ∃ e, decode w = .error e := by
  cases h : decode w with
  | error e => exact ⟨e, rfl⟩
  | ok i =>
    obtain ⟨hi, -⟩ := fields_of_decode h
    obtain rfl : i = .nop := eq_nop_of_opcode (by rw [hi, opcodeField_toNat, hop])
    exact absurd (encode_of_decode h).symm hw

/-- Settles O15: OPCODE 0x00 in a command that decodes is NOP's, whose word is 0, and NOP commits the state as it is. -/
theorem nopDoesNothing : Obligations.NopDoesNothing := by
  refine ⟨rfl, decode_encode (i := .nop) rfl, fun s => ⟨rfl, fun w hop hw => ?_, fun hb => ?_, fun ho => ?_⟩⟩
  · obtain ⟨e, he⟩ := decode_error_of_opcode_zero hop hw
    exact completeWord_of_decode_error he s
  · exact hostWrite_reg_dropped hb (r := .cmd) (by decide) 0
  · apply BitVec.eq_of_toNat_eq
    simp [readReg, statusWord_toNat, State.succeeded, ErrCode.number, ho]

end Sys2Proof.Machine
end

section
/-! PROOFS. The codec commands (R501 to R560): PACK, UNPACK and STRIDE in numbers, and the round trips of the truecolor
layouts. -/

namespace Sys2Proof

/-! ### Channel scaling (R510 to R512) -/

theorem promote_toNat {n : Nat} (v : BitVec n) : (promote v).toNat = v.toNat * 255 / (2 ^ n - 1) := by
  have hv : v.toNat * 255 ≤ 255 * (2 ^ n - 1) := by have := v.isLt; omega
  have hq : v.toNat * 255 / (2 ^ n - 1) ≤ 255 := Nat.div_le_of_le_mul (by omega)
  rw [promote, BitVec.toNat_ofNat, Nat.mod_eq_of_lt (by omega)]

/-- Where demotion undoes promotion, promotion undoes demotion exactly on its own image. -/
theorem promote_demote_iff {n : Nat} (h : ∀ v : BitVec n, demote n (promote v) = v) (b : Byte) :
    promote (demote n b) = b ↔ ∃ v : BitVec n, promote v = b := by
  refine ⟨fun hb => ⟨demote n b, hb⟩, ?_⟩
  rintro ⟨v, rfl⟩
  rw [h]

/-- Settles O19: demotion undoes promotion for each of the two widths. -/
theorem demotionUndoesPromotion : Obligations.DemotionUndoesPromotion :=
  ⟨demote_promote5, demote_promote6, promote_demote_iff demote_promote5, promote_demote_iff demote_promote6,
    rfl, rfl, rfl, rfl⟩

/-! ### Stored truecolor values as numbers (R520 to R525) -/

theorem packPixel_rgb555_toNat (c : Colour) : (packPixel .rgb555 c).toNat =
    (redOf c).toNat / 8 * 1024 + (greenOf c).toNat / 8 * 32 + (blueOf c).toNat / 8 :=
  (BitVec.toNat_setWidth_of_le (by decide)).trans (pack555_toNat c)

theorem packPixel_rgb565_toNat (c : Colour) : (packPixel .rgb565 c).toNat =
    (redOf c).toNat / 8 * 2048 + (greenOf c).toNat / 4 * 32 + (blueOf c).toNat / 8 :=
  (BitVec.toNat_setWidth_of_le (by decide)).trans (pack565_toNat c)

theorem packPixel_rgb24_toNat (c : Colour) : (packPixel .rgb24 c).toNat =
    (redOf c).toNat * 65536 + (greenOf c).toNat * 256 + (blueOf c).toNat := by
  rw [← rgb_toNat, rgb_channels]
  rfl

theorem unpack555_toNat (w : BitVec 16) : (unpack555 w).toNat =
    w.toNat / 1024 % 32 * 255 / 31 * 65536 + w.toNat / 32 % 32 * 255 / 31 * 256 + w.toNat % 32 * 255 / 31 := by
  simp [unpack555, rgb_toNat, promote_toNat, Nat.shiftRight_eq_div_pow]

theorem unpack565_toNat (w : BitVec 16) : (unpack565 w).toNat =
    w.toNat / 2048 % 32 * 255 / 31 * 65536 + w.toNat / 32 % 64 * 255 / 63 * 256 + w.toNat % 32 * 255 / 31 := by
  simp [unpack565, rgb_toNat, promote_toNat, Nat.shiftRight_eq_div_pow]

/-! ### Round trips (R526) -/

theorem extractLsb'_setWidth_raw (w : BitVec 16) : BitVec.extractLsb' 0 16 (w.setWidth 24) = w := by
  apply BitVec.eq_of_toNat_eq
  have := w.isLt
  simp only [BitVec.extractLsb'_toNat, BitVec.toNat_setWidth, Nat.shiftRight_zero]
  omega

@[simp] theorem unpackPixel_rgb555_setWidth (w : BitVec 16) : unpackPixel .rgb555 (w.setWidth 24) = unpack555 w :=
  congrArg unpack555 (extractLsb'_setWidth_raw w)

@[simp] theorem unpackPixel_rgb565_setWidth (w : BitVec 16) : unpackPixel .rgb565 (w.setWidth 24) = unpack565 w :=
  congrArg unpack565 (extractLsb'_setWidth_raw w)

/-- Settles O20: a 16-bit word survives as demotion undoes promotion field by field; the rest are fixed colours. -/
theorem packUnpackRoundTrips : Obligations.PackUnpackRoundTrips := by
  refine ⟨fun w => ?_, fun w => ?_, fun v => rfl, fun f hf => ?_, by decide, by decide⟩
  · rw [unpackPixel_rgb565_setWidth, packPixel, pack565_unpack565]
  · rw [unpackPixel_rgb555_setWidth, packPixel, pack555_unpack555]
    rfl
  · cases f with
    | rgb555 | rgb565 | rgb24 => decide
    | _ => cases hf

namespace Machine

/-! ### Operands (R340) -/

theorem redOf_colourOperand_toNat (w : Word) : (redOf (colourOperand w)).toNat = w.toNat / 65536 % 256 := by
  simp only [redOf, colourOperand, BitVec.extractLsb'_toNat, Nat.shiftRight_eq_div_pow]
  omega

theorem greenOf_colourOperand_toNat (w : Word) : (greenOf (colourOperand w)).toNat = w.toNat / 256 % 256 := by
  simp only [greenOf, colourOperand, BitVec.extractLsb'_toNat, Nat.shiftRight_eq_div_pow]
  omega

theorem blueOf_colourOperand_toNat (w : Word) : (blueOf (colourOperand w)).toNat = w.toNat % 256 := by
  simp only [blueOf, colourOperand, BitVec.extractLsb'_toNat, Nat.shiftRight_eq_div_pow]
  omega

theorem extractLsb'_low16_toNat (w : Word) : (w.extractLsb' 0 16).toNat = w.toNat % 65536 := by simp

theorem widthOperand_eq (w : Word) : widthOperand w = w.toNat % 65536 := extractLsb'_low16_toNat w

theorem formatOperand_code (f : PixFmt) : formatOperand f.code = .ok f := by
  simp [formatOperand, PixFmt.ofCode_code]

theorem formatOperand_of_reserved {n : Nat} (h : n = 6 ∨ n = 7) :
    formatOperand n = .error (.invalidArgument .fmtReserved) := by
  obtain rfl | rfl := h <;> rfl

theorem truecolorOperand_of_reserved {n : Nat} (h : n = 6 ∨ n = 7) :
    truecolorOperand n = .error (.invalidArgument .fmtReserved) := by
  rw [truecolorOperand, formatOperand_of_reserved h]

theorem truecolorOperand_of_indexed {n : Nat} (h : n < 3) :
    truecolorOperand n = .error (.invalidArgument .fmtNotTruecolor) := by
  obtain rfl | rfl | rfl : n = 0 ∨ n = 1 ∨ n = 2 := by omega
  all_goals rfl

/-! ### PACK (R540) -/

theorem exec_pack_of_ok {n : Nat} {f : PixFmt} (h : truecolorOperand n = .ok f) (s : State) :
    exec (.pack n) s =
      .next (finish (setResult0 (BitVec.ofNat 32 (packPixel f (colourOperand s.arg0)).toNat) s)) := by
  simp [exec, execPack, h, complete]

theorem exec_pack_of_error {n : Nat} {e : CmdError} (h : truecolorOperand n = .error e) (s : State) :
    exec (.pack n) s = .next (takeError e s) := by
  simp [exec, execPack, h, complete]

/-- Settles O16: the packed value as a number, of the channels of ARG0; the format check decides the errors. -/
theorem packPlacesChannels : Obligations.PackPlacesChannels := by
  intro s
  simp only [← redOf_colourOperand_toNat, ← greenOf_colourOperand_toNat, ← blueOf_colourOperand_toNat]
  refine ⟨?_, ?_, ?_, fun n hn => exec_pack_of_error (truecolorOperand_of_indexed hn) s,
    fun n hn => exec_pack_of_error (truecolorOperand_of_reserved hn) s⟩
  · rw [exec_pack_of_ok (f := .rgb555) rfl, packPixel_rgb555_toNat]
    rfl
  · rw [exec_pack_of_ok (f := .rgb565) rfl, packPixel_rgb565_toNat]
    rfl
  · rw [exec_pack_of_ok (f := .rgb24) rfl, packPixel_rgb24_toNat]
    rfl

/-! ### UNPACK (R550) -/

theorem exec_unpack_of_ok {n : Nat} {f : PixFmt} (h : truecolorOperand n = .ok f) (s : State) :
    exec (.unpack n) s =
      .next (finish (setResult0 (BitVec.ofNat 32 (unpackPixel f (rawOperand f s.arg0)).toNat) s)) := by
  simp [exec, execUnpack, h, complete]

theorem exec_unpack_of_error {n : Nat} {e : CmdError} (h : truecolorOperand n = .error e) (s : State) :
    exec (.unpack n) s = .next (takeError e s) := by
  simp [exec, execUnpack, h, complete]

theorem unpackPixel_rawOperand_rgb555 (w : Word) :
    unpackPixel .rgb555 (rawOperand .rgb555 w) = unpack555 (w.extractLsb' 0 16) :=
  unpackPixel_rgb555_setWidth _

theorem unpackPixel_rawOperand_rgb565 (w : Word) :
    unpackPixel .rgb565 (rawOperand .rgb565 w) = unpack565 (w.extractLsb' 0 16) :=
  unpackPixel_rgb565_setWidth _

/-- Bit 15 and the bits above it are ignored (R523). -/
theorem unpackPixel_rawOperand_rgb555_toNat (w : Word) : (unpackPixel .rgb555 (rawOperand .rgb555 w)).toNat =
    w.toNat / 1024 % 32 * 255 / 31 * 65536 + w.toNat / 32 % 32 * 255 / 31 * 256 + w.toNat % 32 * 255 / 31 := by
  rw [unpackPixel_rawOperand_rgb555, unpack555_toNat, extractLsb'_low16_toNat,
    show w.toNat % 65536 / 1024 % 32 = w.toNat / 1024 % 32 by omega,
    show w.toNat % 65536 / 32 % 32 = w.toNat / 32 % 32 by omega, show w.toNat % 65536 % 32 = w.toNat % 32 by omega]

theorem unpackPixel_rawOperand_rgb565_toNat (w : Word) : (unpackPixel .rgb565 (rawOperand .rgb565 w)).toNat =
    w.toNat / 2048 % 32 * 255 / 31 * 65536 + w.toNat / 32 % 64 * 255 / 63 * 256 + w.toNat % 32 * 255 / 31 := by
  rw [unpackPixel_rawOperand_rgb565, unpack565_toNat, extractLsb'_low16_toNat,
    show w.toNat % 65536 / 2048 % 32 = w.toNat / 2048 % 32 by omega,
    show w.toNat % 65536 / 32 % 64 = w.toNat / 32 % 64 by omega, show w.toNat % 65536 % 32 = w.toNat % 32 by omega]

theorem unpackPixel_rawOperand_rgb24_toNat (w : Word) :
    (unpackPixel .rgb24 (rawOperand .rgb24 w)).toNat = w.toNat % 16777216 := by
  simp [unpackPixel, rawOperand]

/-- Settles O17: the unpacked value as a number, of the fields of ARG0; the format check decides the errors. -/
theorem unpackScalesChannels : Obligations.UnpackScalesChannels := by
  intro s
  refine ⟨?_, ?_, ?_, fun n hn => exec_unpack_of_error (truecolorOperand_of_indexed hn) s,
    fun n hn => exec_unpack_of_error (truecolorOperand_of_reserved hn) s⟩
  · rw [exec_unpack_of_ok (f := .rgb555) rfl, unpackPixel_rawOperand_rgb555_toNat]
    rfl
  · rw [exec_unpack_of_ok (f := .rgb565) rfl, unpackPixel_rawOperand_rgb565_toNat]
    rfl
  · rw [exec_unpack_of_ok (f := .rgb24) rfl, unpackPixel_rawOperand_rgb24_toNat]
    rfl

/-! ### STRIDE (R560) -/

theorem exec_stride_of_ok {n : Nat} {f : PixFmt} (h : formatOperand n = .ok f) (s : State) :
    exec (.stride n) s =
      .next (finish (setResult1 (BitVec.ofNat 32 (maskStride (s.arg0.toNat % 65536)))
        (setResult0 (BitVec.ofNat 32 (stride f (s.arg0.toNat % 65536))) s))) := by
  simp [exec, execStride, h, complete, widthOperand_eq]

theorem exec_stride_of_error {n : Nat} {e : CmdError} (h : formatOperand n = .error e) (s : State) :
    exec (.stride n) s = .next (takeError e s) := by
  simp [exec, execStride, h, complete]

theorem maskStride_eq (w : Nat) : maskStride w = (w + 31) / 32 * 4 := by
  simp [maskStride, stride, PixFmt.bpp]

/-- The stride is the bytes of the row rounded up to a multiple of 4 (R501). -/
theorem stride_eq_rowBytes (f : PixFmt) (w : Nat) : stride f w = (pixelRowBytes f w + 3) / 4 * 4 := by
  unfold stride pixelRowBytes
  omega

/-- Settles O18: STRIDE by its format, and R501 in bits and in bytes. -/
theorem strideRoundsRowsUp : Obligations.StrideRoundsRowsUp := by
  refine ⟨fun s f => ?_, fun s n hn => exec_stride_of_error (formatOperand_of_reserved hn) s, fun f w h => ?_⟩
  · rw [exec_stride_of_ok (formatOperand_code f), maskStride_eq]
    rfl
  · have hb := stride_eq_rowBytes f w
    unfold pixelRowBytes at hb
    exact ⟨rfl, hb, by omega, by omega, by omega, by simp [stride], maskStride_eq w, rfl⟩

end Machine

end Sys2Proof
end

section
/-! PROOFS. Pixels in FMEM (R530 to R535): the stored value of a pixel in the bytes of its row, and a pixel write. -/

namespace Sys2Proof.Machine

/-! ### Fields and bytes as numbers -/

theorem append_byte_toNat {n : Nat} (a : BitVec n) (b : Byte) : (a ++ b).toNat = b.toNat + 256 * a.toNat := by
  rw [BitVec.toNat_append, ← Nat.shiftLeft_add_eq_or_of_lt b.isLt, Nat.shiftLeft_eq]
  omega

theorem nibbleOf_toNat (b : Byte) (x : Nat) :
    (nibbleOf b x).toNat = if x % 2 = 0 then b.toNat / 16 else b.toNat % 16 := by
  have := b.isLt
  unfold nibbleOf
  split
  · simp only [BitVec.extractLsb'_toNat, Nat.shiftRight_eq_div_pow]
    omega
  · simp

theorem bitOf_toNat (b : Byte) (x : Nat) : (bitOf b x).toNat = b.toNat / 2 ^ (7 - x % 8) % 2 := by
  simp [bitOf, Nat.shiftRight_eq_div_pow]

theorem read16_toNat (d : Nat) (m : List Host.Cell) (a : Nat) :
    (read16 d m a).toNat = (read8 d m a).toNat + 256 * (read8 d m (a + 1)).toNat :=
  append_byte_toNat _ _

theorem read24_toNat (d : Nat) (m : List Host.Cell) (a : Nat) : (read24 d m a).toNat =
    (read8 d m a).toNat + 256 * (read8 d m (a + 1)).toNat + 65536 * (read8 d m (a + 2)).toNat := by
  rw [read24, append_byte_toNat, append_byte_toNat]
  omega

/-- Settles O21: `readRaw` widens the field or the bytes of the pixel, each of which is a number of its bytes. -/
theorem pixelsStandInTheirBytes : Obligations.PixelsStandInTheirBytes := by
  intro d m base st x y
  have widen {n : Nat} (v : BitVec n) (hn : n ≤ 24) : (v.setWidth 24).toNat = v.toNat :=
    BitVec.toNat_setWidth_of_le hn
  refine ⟨widen _ (by decide), ?_, ?_, fun f hf => ?_, read24_toNat d m _⟩
  · exact (widen _ (by decide)).trans (nibbleOf_toNat _ x)
  · exact (widen _ (by decide)).trans (bitOf_toNat _ x)
  · obtain rfl | rfl := hf
    all_goals exact (widen _ (by decide)).trans (read16_toNat d m _)

/-- Settles O22: the value read back is trimmed to the format, which changes nothing of a value it can hold. -/
theorem pixelWritesAreLocal : Obligations.PixelWritesAreLocal := by
  intro d m f base st x y v hx hv
  refine ⟨?_, fun u z hu hne => readRaw_writeRaw_other d m f base v hx hu hne, fun a ha => ?_⟩
  · rw [readRaw_writeRaw_self, Raw.trim_of_lt hv]
  · apply get?_writeRaw_out
    unfold InRange at ha
    omega

end Sys2Proof.Machine
end

section
/-! PROOFS. What a REFORMAT between two formats leaves at DST_BASE: the pixels of CONVERT (R860), and the padding of
every routine but the clone (R536). -/

namespace Sys2Proof.Machine

/-! ### REFORMAT that succeeds (R410, R811) -/

theorem CmdError.code_ne_none (e : CmdError) : e.code ≠ .none := by cases e <;> simp [CmdError.code]

theorem exec_reformat_of_ok {s w : State} {n : Nat} (h : reformat s n = .ok w) :
    exec (.reformat n) s = .next (finish w) := by
  simp [exec, execReformat, h, complete]

/-- A REFORMAT that ends without error has finished the working copy of its rule. -/
theorem reformat_of_exec_ok {s t : State} {n : Nat} (h : exec (.reformat n) s = .next t) (ht : t.err = .none) :
    ∃ w, reformat s n = .ok w ∧ t = finish w := by
  obtain ⟨e, -, rfl⟩ | h := complete_cases (r := reformat s n) h
  · exact absurd ht e.code_ne_none
  · exact h

theorem destinationRaw_finish (s w : State) (t : PixFmt) (x y : Nat) :
    destinationRaw s (finish w) t x y = destinationRaw s w t x y := rfl

theorem routeTable_of_truecolor {f g : PixFmt} (hf : f.isIndexed = false) (hg : g.isIndexed = false) (hne : f ≠ g) :
    routeTable f g = .convert := by
  cases f <;> cases g <;> simp_all [PixFmt.isIndexed, routeTable]

theorem eq_of_routeTable_clone {f g : PixFmt} (h : routeTable f g = .clone) : f = g := by
  cases f <;> cases g <;> cases h <;> rfl

/-! ### CONVERT (R527, R860) -/

theorem packPixel_toNat_lt (f : PixFmt) (c : Colour) : (packPixel f c).toNat < 2 ^ f.bpp := by
  cases f with
  | rgb555 => exact (BitVec.toNat_setWidth_of_le (by decide)).trans_lt (pack555 c).isLt
  | rgb565 => exact (BitVec.toNat_setWidth_of_le (by decide)).trans_lt (pack565 c).isLt
  | rgb24 => exact c.isLt
  | _ => exact Nat.two_pow_pos _

/-- Settles O32: the loop of R860 cannot fail, and a packed value is stored whole. -/
theorem reformatConverts : Obligations.ReformatConverts := by
  intro s f g hs hd hf hg hne
  have hr := routeTable_of_truecolor hf hg hne
  obtain ⟨m, hm, hw⟩ := convertTrue_spec hs hd
  have ho : runRoute s f g (routeTable f g) = .ok { fmem := m, pal := [], transp := noTransparent } := by
    rw [hr]
    exact hm
  have hok := reformat_ok hs (PixFmt.ofCode_code g) (by simp [hr]) hd ho
  refine ⟨_, exec_reformat_of_ok hok, rfl, fun x y hx hy => ?_, rfl, rfl⟩
  rw [destinationRaw_finish, destinationRaw_commit hd _ (pixelOffset_lt_stride hx) hy, hw.pixels x y hx hy,
    convertPixel, Raw.trim_of_lt (packPixel_toNat_lt g _)]

/-! ### Padding of a frame written pixel by pixel (R536) -/

/-- The destination frame in `m` has padding 0: the bytes of a row after its pixel bytes, and the positions past the
row's width that its bytes hold. -/
structure PaddingZero (s : State) (t : PixFmt) (m : List Host.Cell) : Prop where
  bytes : ∀ y o, y < srcH s → pixelRowBytes t (srcW s) ≤ o → o < stride t (srcW s) →
    Memory.get? m (dstBase s + y * stride t (srcW s) + o) = some 0
  positions : ∀ x y, srcW s ≤ x → y < srcH s → pixelOffset t x + pixelBytes t ≤ stride t (srcW s) →
    readRaw s.draws m t (dstBase s) (stride t (srcW s)) x y = 0

theorem inRange_row {base st h y o : Nat} (hy : y < h) (ho : o < st) : InRange base (h * st) (base + y * st + o) := by
  have := Nat.mul_le_mul_right st (show y + 1 ≤ h from hy)
  rw [Nat.add_mul] at this
  exact ⟨by omega, by omega⟩

theorem paddingZero_fillZero (s : State) (t : PixFmt) : PaddingZero s t (fillZero s t s.fmem) where
  bytes := fun _ _ hy _ ho => (WrittenUpTo.start s t fun _ _ => 0).bytes _ (inRange_row hy ho) (by simp)
  positions := fun x y _ hy hx => (WrittenUpTo.start s t fun _ _ => 0).bits x y (by simp) hy hx

/-- The bytes of a pixel lie before the padding of its row, and those of another row on one side of the row. -/
theorem padding_outside_pixel {t : PixFmt} {base w x y v o : Nat} (hx : x < w) (h1 : pixelRowBytes t w ≤ o)
    (h2 : o < stride t w) : base + v * stride t w + o < pixelAddr t base (stride t w) x y ∨
      pixelAddr t base (stride t w) x y + pixelBytes t ≤ base + v * stride t w + o := by
  have hrow := pixelOffset_le_rowBytes (f := t) hx
  unfold pixelAddr
  rcases Nat.lt_trichotomy y v with hlt | rfl | hgt
  · have := Nat.mul_le_mul_right (stride t w) (show y + 1 ≤ v from hlt)
    rw [Nat.add_mul] at this
    omega
  · omega
  · have := Nat.mul_le_mul_right (stride t w) (show v + 1 ≤ y from hgt)
    rw [Nat.add_mul] at this
    omega

theorem paddingZero_writeDst {s : State} {t : PixFmt} {m : List Host.Cell} (h : PaddingZero s t m) {x : Nat}
    (hx : x < srcW s) (y : Nat) (v : Raw) : PaddingZero s t (writeDst s t m x y v) where
  bytes := fun u o hu h1 h2 => by
    rw [writeDst, get?_writeRaw_out _ _ _ _ _ _ _ _ (padding_outside_pixel hx h1 h2), h.bytes u o hu h1 h2]
  positions := fun z u hz hu hfit => by
    have hne : (z, u) ≠ (x, y) := fun e => by
      cases e
      omega
    rw [writeDst, readRaw_writeRaw_other _ _ _ _ _ (pixelOffset_lt_stride hx) hfit hne,
      h.positions z u hz hu hfit]

/-- A loop that clears the destination and then writes source pixels alone leaves its padding 0; `mem` is the FMEM of
the loop's state. -/
theorem paddingZero_of_forPixels {σ : Type} {s : State} {t : PixFmt} {body : σ → Nat → Nat → Except CmdError σ}
    (mem : σ → List Host.Cell) {a b : σ} (ha : mem a = fillZero s t s.fmem)
    (hbody : ∀ c c' x y, body c x y = .ok c' → ∃ v, mem c' = writeDst s t (mem c) x y v)
    (h : forPixels body (srcPixels s) a = .ok b) : PaddingZero s t (mem b) := by
  refine forPixels_keeps (fun c => PaddingZero s t (mem c)) (ha ▸ paddingZero_fillZero s t) ?_ h
  intro x y c c' hxy hc hc'
  obtain ⟨v, hv⟩ := hbody c c' x y hc'
  exact hv ▸ paddingZero_writeDst hc (mem_rowMajor.1 hxy).1 y v

/-! ### Each routine's loop body writes its pixel (R840 to R870) -/

theorem repackPixel_writes {s : State} {f t : PixFmt} {m m' : List Host.Cell} {x y : Nat}
    (h : repackPixel s f t m x y = .ok m') : ∃ v, m' = writeDst s t m x y v := by
  unfold repackPixel at h
  dsimp only at h
  split_ifs at h
  cases h
  exact ⟨_, rfl⟩

theorem expandPixel_writes {s : State} {f t : PixFmt} {m m' : List Host.Cell} {x y : Nat}
    (h : expandPixel s f t m x y = .ok m') : ∃ v, m' = writeDst s t m x y v := by
  unfold expandPixel at h
  split at h
  · cases h
  · cases h
    exact ⟨_, rfl⟩

theorem convertOne_writes {s : State} {f t : PixFmt} {m m' : List Host.Cell} {x y : Nat}
    (h : convertOne s f t m x y = .ok m') : ∃ v, m' = writeDst s t m x y v := by
  cases h
  exact ⟨_, rfl⟩

theorem indexPixel_writes {s : State} {f t : PixFmt} {w w' : Octree × List Host.Cell} {x y : Nat}
    (h : indexPixel s f t w x y = .ok w') : ∃ v, w'.2 = writeDst s t w.2 x y v := by
  unfold indexPixel at h
  split at h
  · cases h
  · cases h
    exact ⟨_, rfl⟩

theorem runRoute_paddingZero {s : State} {f t : PixFmt} {r : Route} {out : Converted} (hr : r ≠ .clone)
    (h : runRoute s f t r = .ok out) : PaddingZero s t out.fmem := by
  cases r with
  | clone => exact absurd rfl hr
  | repack =>
    simp only [runRoute, repack] at h
    split at h
    · cases h
    · split at h
      · cases h
      · rename_i hm
        cases h
        exact paddingZero_of_forPixels id rfl (fun _ _ _ _ => repackPixel_writes) hm
  | expand =>
    simp only [runRoute, expand] at h
    split at h
    · cases h
    · rename_i hm
      cases h
      exact paddingZero_of_forPixels id rfl (fun _ _ _ _ => expandPixel_writes) hm
  | convert =>
    simp only [runRoute, convertTrue] at h
    split at h
    · cases h
    · rename_i hm
      cases h
      exact paddingZero_of_forPixels id rfl (fun _ _ _ _ => convertOne_writes) hm
  | quantize =>
    simp only [runRoute, quantize] at h
    split at h
    · cases h
    · split at h
      · cases h
      · split at h
        · cases h
        · rename_i hm
          cases h
          exact paddingZero_of_forPixels Prod.snd rfl (fun _ _ _ _ => indexPixel_writes) hm
  | unsupported => cases h

/-! ### The commit keeps the destination buffer (R821, R880) -/

theorem get?_commit_buffer {s : State} {t : PixFmt} (hd : DestinationLegal s t) (out : Converted) {b : Nat}
    (hb : InRange (dstBase s) (srcH s * stride t (srcW s)) b) :
    Memory.get? (commit s t out).fmem b = Memory.get? out.fmem b :=
  get?_copyMask_out fun e hm => (hd.maskOffBuffer e).not_both hm hb

/-- Settles O35: the routine leaves the padding 0, and the mask that the commit copies lies apart from the buffer. -/
theorem convertedPaddingIsZero : Obligations.ConvertedPaddingIsZero := by
  intro s t f g _ hf hne h ht
  obtain ⟨w, hw, rfl⟩ := reformat_of_exec_ok h ht
  obtain ⟨f', g', out, hs, hg, hd, -, ho, rfl⟩ := reformat_cases hw
  obtain rfl : f = f' := Option.some.inj (hf.symm.trans hs.fmt)
  obtain rfl : g = g' := Option.some.inj ((PixFmt.ofCode_code g).symm.trans hg)
  have hp := runRoute_paddingZero (fun hc => hne (eq_of_routeTable_clone hc)) ho
  refine ⟨fun y o hy h1 h2 => ?_, fun x y hx hy hfit => ?_⟩
  · exact (get?_commit_buffer hd out (inRange_row hy h2)).trans (hp.bytes y o hy h1 h2)
  · rw [destinationRaw_finish, destinationRaw_commit hd out hfit hy, hp.positions x y hx hy hfit]

end Sys2Proof.Machine
end

section
/-! PROOFS. The octree unit's commands (R670 to R676): what each does, by what the octree operation behind it answers. -/

namespace Sys2Proof.Machine

/-! ### OCT_ADD (R671) -/

theorem exec_octAdd_of_ok {s : State} {T : Octree} (hb : s.oct.phase = .build)
    (h : s.oct.addColour s.cfg.nodeCapacity (colourOperand s.arg0) = .ok T) :
    exec .octAdd s = .next (finish (setLeafResult T (setOct T s))) := by
  simp [exec, execOctAdd, hb, h, complete]

theorem exec_octAdd_of_error {s : State} {e : CmdError} (hb : s.oct.phase = .build)
    (h : s.oct.addColour s.cfg.nodeCapacity (colourOperand s.arg0) = .error e) :
    exec .octAdd s = .next (takeError e s) := by
  simp [exec, execOctAdd, hb, h, complete]

theorem exec_octAdd_of_frozen {s : State} (hf : s.oct.phase = .frozen) :
    exec .octAdd s = .next (takeError .sequenceError s) := by
  simp [exec, execOctAdd, hf, complete]

/-- An OCT_ADD takes an error, or leaves the octree of its AddColor in phase BUILD. -/
theorem exec_octAdd_cases {s t : State} (h : exec .octAdd s = .next t) :
    (∃ e, t = takeError e s) ∨ ∃ T, s.oct.phase = .build ∧
      s.oct.addColour s.cfg.nodeCapacity (colourOperand s.arg0) = .ok T ∧ t.oct = T := by
  cases hp : s.oct.phase with
  | frozen =>
    rw [exec_octAdd_of_frozen hp] at h
    exact .inl ⟨_, (Host.Outcome.next.inj h).symm⟩
  | build =>
    cases hc : s.oct.addColour s.cfg.nodeCapacity (colourOperand s.arg0) with
    | error e =>
      rw [exec_octAdd_of_error hp hc] at h
      exact .inl ⟨_, (Host.Outcome.next.inj h).symm⟩
    | ok T =>
      rw [exec_octAdd_of_ok hp hc] at h
      cases h
      exact .inr ⟨T, rfl, rfl, rfl⟩

/-! ### OCT_REDUCE (R672) -/

theorem exec_octReduce_of_ok {s : State} {level : Nat} {T : Octree} (hb : s.oct.phase = .build)
    (h : s.oct.reduce = .ok (level, T)) :
    exec .octReduce s = .next (finish (setResult1 (BitVec.ofNat 32 level) (setLeafResult T (setOct T s)))) := by
  simp [exec, execOctReduce, hb, h, complete]

theorem exec_octReduce_of_error {s : State} {e : CmdError} (hb : s.oct.phase = .build) (h : s.oct.reduce = .error e) :
    exec .octReduce s = .next (takeError e s) := by
  simp [exec, execOctReduce, hb, h, complete]

theorem exec_octReduce_of_frozen {s : State} (hf : s.oct.phase = .frozen) :
    exec .octReduce s = .next (takeError .sequenceError s) := by
  simp [exec, execOctReduce, hf, complete]

/-- An OCT_REDUCE takes an error, or leaves the octree of its Reduce in phase BUILD. -/
theorem exec_octReduce_cases {s t : State} (h : exec .octReduce s = .next t) :
    (∃ e, t = takeError e s) ∨ ∃ level T, s.oct.phase = .build ∧ s.oct.reduce = .ok (level, T) ∧ t.oct = T := by
  cases hp : s.oct.phase with
  | frozen =>
    rw [exec_octReduce_of_frozen hp] at h
    exact .inl ⟨_, (Host.Outcome.next.inj h).symm⟩
  | build =>
    cases hc : s.oct.reduce with
    | error e =>
      rw [exec_octReduce_of_error hp hc] at h
      exact .inl ⟨_, (Host.Outcome.next.inj h).symm⟩
    | ok r =>
      obtain ⟨level, T⟩ := r
      rw [exec_octReduce_of_ok hp hc] at h
      cases h
      exact .inr ⟨level, T, rfl, rfl, rfl⟩

/-! ### OCT_PALETTE (R674) -/

/-- The working copy of an OCT_PALETTE whose CreatePalette left `T` and `pal`. -/
def octPaletteCopy (T : Octree) (pal : List Colour) (s : State) : State :=
  setResult0 (BitVec.ofNat 32 pal.length) (setDstPalLen pal.length (setDstPal pal (setOct T s)))

theorem exec_octPalette_of_ok {s : State} {T : Octree} {pal : List Colour} (hb : s.oct.phase = .build)
    (h1 : 1 ≤ s.arg0.toNat) (h256 : s.arg0.toNat ≤ 256) (h : s.oct.createPalette s.arg0.toNat = .ok (T, pal)) :
    exec .octPalette s = .next (finish (octPaletteCopy T pal s)) := by
  have hm : ¬ (s.arg0.toNat < 1 ∨ 256 < s.arg0.toNat) := by omega
  simp only [exec, execOctPalette, maxColorsOperand, hb, hm, h, if_false, reduceCtorEq]
  rfl

theorem exec_octPalette_of_error {s : State} {e : CmdError} (hb : s.oct.phase = .build)
    (h1 : 1 ≤ s.arg0.toNat) (h256 : s.arg0.toNat ≤ 256) (h : s.oct.createPalette s.arg0.toNat = .error e) :
    exec .octPalette s = .next (takeError e s) := by
  have hm : ¬ (s.arg0.toNat < 1 ∨ 256 < s.arg0.toNat) := by omega
  simp only [exec, execOctPalette, maxColorsOperand, hb, hm, h, if_false, reduceCtorEq]
  rfl

theorem exec_octPalette_of_bound {s : State} (hb : s.oct.phase = .build) (h : s.arg0.toNat < 1 ∨ 256 < s.arg0.toNat) :
    exec .octPalette s = .next (takeError (.invalidArgument .maxColorsRange) s) := by
  simp only [exec, execOctPalette, maxColorsOperand, hb, h, if_true, if_false, reduceCtorEq]
  rfl

theorem exec_octPalette_of_frozen {s : State} (hf : s.oct.phase = .frozen) :
    exec .octPalette s = .next (takeError .sequenceError s) := by
  simp [exec, execOctPalette, hf, complete]

/-- An OCT_PALETTE takes an error, or commits what its CreatePalette answers within the bounds of R674. -/
theorem exec_octPalette_cases {s t : State} (h : exec .octPalette s = .next t) :
    (∃ e, t = takeError e s) ∨ ∃ T pal, s.oct.phase = .build ∧ s.arg0.toNat ≤ 256 ∧
      s.oct.createPalette s.arg0.toNat = .ok (T, pal) ∧ t = finish (octPaletteCopy T pal s) := by
  cases hp : s.oct.phase with
  | frozen =>
    rw [exec_octPalette_of_frozen hp] at h
    exact .inl ⟨_, (Host.Outcome.next.inj h).symm⟩
  | build =>
    by_cases hm : s.arg0.toNat < 1 ∨ 256 < s.arg0.toNat
    · rw [exec_octPalette_of_bound hp hm] at h
      exact .inl ⟨_, (Host.Outcome.next.inj h).symm⟩
    · cases hc : s.oct.createPalette s.arg0.toNat with
      | error e =>
        rw [exec_octPalette_of_error hp (by omega) (by omega) hc] at h
        exact .inl ⟨_, (Host.Outcome.next.inj h).symm⟩
      | ok r =>
        obtain ⟨T, pal⟩ := r
        rw [exec_octPalette_of_ok hp (by omega) (by omega) hc] at h
        exact .inr ⟨T, pal, rfl, by omega, rfl, (Host.Outcome.next.inj h).symm⟩

/-! ### OCT_INDEX (R676) -/

theorem exec_octIndex_of_ok {s : State} {T : Octree} {i : Byte} (hf : s.oct.phase = .frozen)
    (h : s.oct.getPaletteIndex (colourOperand s.arg0) = .ok (T, i)) :
    exec .octIndex s = .next (finish (setResult0 (i.setWidth 32) (setOct T s))) := by
  simp [exec, execOctIndex, hf, h, complete]

theorem exec_octIndex_of_error {s : State} {e : CmdError} (hf : s.oct.phase = .frozen)
    (h : s.oct.getPaletteIndex (colourOperand s.arg0) = .error e) :
    exec .octIndex s = .next (takeError e s) := by
  simp [exec, execOctIndex, hf, h, complete]

theorem exec_octIndex_of_build {s : State} (hb : s.oct.phase = .build) :
    exec .octIndex s = .next (takeError .sequenceError s) := by
  simp [exec, execOctIndex, hb, complete]

/-- An OCT_INDEX takes an error, or leaves the octree of its lookup in phase FROZEN. -/
theorem exec_octIndex_cases {s t : State} (h : exec .octIndex s = .next t) :
    (∃ e, t = takeError e s) ∨ ∃ T i, s.oct.phase = .frozen ∧
      s.oct.getPaletteIndex (colourOperand s.arg0) = .ok (T, i) ∧ t.oct = T := by
  cases hp : s.oct.phase with
  | build =>
    rw [exec_octIndex_of_build hp] at h
    exact .inl ⟨_, (Host.Outcome.next.inj h).symm⟩
  | frozen =>
    cases hc : s.oct.getPaletteIndex (colourOperand s.arg0) with
    | error e =>
      rw [exec_octIndex_of_error hp hc] at h
      exact .inl ⟨_, (Host.Outcome.next.inj h).symm⟩
    | ok r =>
      obtain ⟨T, i⟩ := r
      rw [exec_octIndex_of_ok hp hc] at h
      cases h
      exact .inr ⟨T, i, rfl, rfl, rfl⟩

/-! ### OCT_RESET (R670) -/

/-- Settles O40: the word is the command's, and the registers of R161 show the measures of the empty octree. -/
theorem octResetEmptiesTheUnit : Obligations.OctResetEmptiesTheUnit :=
  ⟨decode_encode (i := .octReset) rfl, fun _ => ⟨rfl, rfl, rfl, rfl, rfl⟩⟩

end Sys2Proof.Machine
end

section
/-! PROOFS. The invariant of the block (R100, R112, R150, R210, R606): every command, every host write and both edges of
`rst_n` keep it. -/

namespace Sys2Proof.Machine

/-! ### The octree unit under a command (R606) -/

theorem WorkingCopy.oct_eq {i : Instr} {s w : State} (h : WorkingCopy s i w)
    (hi : i ≠ .octReset ∧ i ≠ .octAdd ∧ i ≠ .octReduce ∧ i ≠ .octPalette ∧ i ≠ .octIndex) : w.oct = s.oct := by
  cases h
  case octReset | octAdd | octReduce | octPalette | octIndex => simp at hi
  all_goals rfl

/-- CreatePalette keeps the invariants, and its palette has at most as many entries as asked for (R606, R640). -/
theorem Octree.createPalette_ok {cap m : Nat} {t T : Octree} {pal : List Colour} (h : t.Sound cap)
    (hb : t.phase = .build) (hc : t.createPalette m = .ok (T, pal)) : T.Sound cap ∧ pal.length ≤ m := by
  obtain ⟨T', pal', e, hT, -, -, hlen, -⟩ | ⟨e, -⟩ := Octree.createPalette_spec (m := m) h hb
  · rw [e] at hc
    cases hc
    exact ⟨hT, hlen⟩
  · rw [e] at hc
    cases hc

/-- Every command keeps the octree unit's invariants (R606). -/
theorem exec_octSound {i : Instr} {s t : State} (hv : s.cfg.valid = true) (ho : s.oct.Sound s.cfg.nodeCapacity)
    (h : exec i s = .next t) : t.oct.Sound s.cfg.nodeCapacity := by
  cases i
  case octReset =>
    cases h
    exact Octree.empty_sound (Config.one_le_capacity hv)
  case octAdd =>
    obtain ⟨e, rfl⟩ | ⟨T, hb, hT, rfl⟩ := exec_octAdd_cases h
    · exact ho
    · exact (Octree.addColour_spec ho hb hT).1
  case octReduce =>
    obtain ⟨e, rfl⟩ | ⟨level, T, hb, hT, rfl⟩ := exec_octReduce_cases h
    · exact ho
    · exact (Octree.reduce_spec ho hb hT).1
  case octPalette =>
    obtain ⟨e, rfl⟩ | ⟨T, pal, hb, -, hT, rfl⟩ := exec_octPalette_cases h
    · exact ho
    · exact (Octree.createPalette_ok ho hb hT).1
  case octIndex =>
    obtain ⟨e, rfl⟩ | ⟨T, j, hf, hT, rfl⟩ := exec_octIndex_cases h
    · exact ho
    · exact (Octree.getPaletteIndex_ok ho hf hT).1
  all_goals
    obtain ⟨e, rfl⟩ | ⟨w, hw, rfl⟩ := exec_cases h
    · exact ho
    · rw [finish_oct, hw.oct_eq (by simp)]
      exact ho

/-! ### The memories under a command (R150, R210) -/

theorem WorkingCopy.memories_eq {i : Instr} {s w : State} (h : WorkingCopy s i w)
    (hi : (∀ n, i ≠ .reformat n) ∧ i ≠ .setpixel ∧ i ≠ .octPalette) :
    w.fmem = s.fmem ∧ w.srcPal = s.srcPal ∧ w.dstPal = s.dstPal := by
  cases h
  case reformat | setpixel | octPalette => simp at hi
  all_goals exact ⟨rfl, rfl, rfl⟩

/-- REFORMAT writes inside its destination ranges, and a palette that fits DST_PAL (R821, R880, R883). -/
theorem reformat_memoriesSound {s w : State} {n : Nat} (hv : s.cfg.valid = true) (hm : s.MemoriesSound)
    (h : reformat s n = .ok w) : w.MemoriesSound := by
  obtain ⟨f, g, out, hs, -, hd, hr, ho, rfl⟩ := reformat_cases h
  obtain ⟨-, hf⟩ := runRoute_frame hs hd rfl ho
  obtain ⟨hpal, -⟩ := runRoute_palette_legal hv hs hd hr ho
  exact ⟨copyMask_wf hd (hf hm.fmem), hm.srcPal, Memory.setList_wf hm.dstPal (by simpa using hpal)⟩

/-- A SETPIXEL takes an error, or has passed the checks of R901 and written one pixel of FMEM (R920). -/
theorem exec_setpixel_cases {s t : State} (h : exec .setpixel s = .next t) :
    (∃ e, t = takeError e s) ∨ ∃ f v, validatePixelAccess s = .ok f ∧ t.srcPal = s.srcPal ∧ t.dstPal = s.dstPal ∧
      t.fmem = writeRaw s.draws s.fmem f (srcBase s) (srcStride s) (xOperand s) (yOperand s) v := by
  cases hf : validatePixelAccess s with
  | error e =>
    simp only [exec, execSetpixel, hf, complete] at h
    exact .inl ⟨e, (Host.Outcome.next.inj h).symm⟩
  | ok f =>
    simp only [exec, execSetpixel, hf, complete] at h
    cases h
    exact .inr ⟨f, _, rfl, rfl, rfl, rfl⟩

/-- The pixel that SETPIXEL writes lies in FMEM (R901). -/
theorem addressedByte_le {s : State} {f : PixFmt} (h : validatePixelAccess s = .ok f) :
    addressedByte s f + pixelBytes f ≤ s.cfg.fmemSize :=
  writtenRanges_le (i := .setpixel) (r := (addressedByte s f, pixelBytes f)) (by simp [writtenRanges, setpixelRanges, h])

/-- Every command keeps the memories' canonical form inside their sizes (R150, R210). -/
theorem exec_memoriesSound {i : Instr} {s t : State} (hs : s.Sound) (h : exec i s = .next t) : t.MemoriesSound := by
  have hm := hs.memories
  cases i
  case reformat n =>
    obtain ⟨e, -, rfl⟩ | ⟨w, hw, rfl⟩ := complete_cases (r := reformat s n) h
    · exact { hm with }
    · exact { reformat_memoriesSound hs.params hm hw with }
  case setpixel =>
    obtain ⟨e, rfl⟩ | ⟨f, v, hf, hsp, hdp, hmem⟩ := exec_setpixel_cases h
    · exact { hm with }
    · constructor
      · rw [hmem, (exec_inputsKept h).cfg]
        exact writeRaw_wf v hm.fmem (addressedByte_le hf)
      · exact hsp ▸ hm.srcPal
      · exact hdp ▸ hm.dstPal
  case octPalette =>
    obtain ⟨e, rfl⟩ | ⟨T, pal, hb, h256, hT, rfl⟩ := exec_octPalette_cases h
    · exact { hm with }
    · have hlen := (Octree.createPalette_ok hs.octree hb hT).2
      exact ⟨hm.fmem, hm.srcPal, Memory.setList_wf hm.dstPal (by simpa using hlen.trans h256)⟩
  all_goals
    obtain ⟨e, rfl⟩ | ⟨w, hw, rfl⟩ := exec_cases h
    · exact { hm with }
    · obtain ⟨h1, h2, h3⟩ := hw.memories_eq (by simp)
      exact ⟨by simpa [hw.inputsKept.cfg, h1] using hm.fmem, h2 ▸ hm.srcPal, h3 ▸ hm.dstPal⟩

/-! ### The flags at the end of a command (R112, R113, R410) -/

theorem Subcode.number_range (c : Subcode) : 1 ≤ c.number.toNat ∧ c.number.toNat ≤ 18 := by
  cases c <;> decide

theorem CmdError.subcode_range {e : CmdError} (h : e.code = .invalidArgument) :
    1 ≤ e.subcode.toNat ∧ e.subcode.toNat ≤ 18 := by
  cases e with
  | invalidArgument c => exact c.number_range
  | _ => cases h

theorem takeError_engineSound (e : CmdError) (s : State) : (takeError e s).EngineSound where
  cmd := by simp
  flags := by simp
  errInfo _ := ⟨CmdError.subcode_of_code_ne, CmdError.subcode_range⟩
  reset _ := rfl

theorem finish_engineSound (s : State) : (finish s).EngineSound where
  cmd := by simp
  flags := by simp
  errInfo _ := ⟨fun _ => rfl, fun h => by cases h⟩
  reset _ := rfl

theorem takeError_sound {s : State} (h : s.Sound) (e : CmdError) : (takeError e s).Sound :=
  ⟨h.params, { h.memories with }, takeError_engineSound e s, h.octree⟩

/-- Every command keeps the invariant of the block. -/
theorem exec_sound {i : Instr} {s t : State} (hs : s.Sound) (h : exec i s = .next t) : t.Sound := by
  have hc : t.cfg = s.cfg := (exec_inputsKept h).cfg
  refine ⟨hc ▸ hs.params, exec_memoriesSound hs h, ?_, hc ▸ exec_octSound hs.params hs.octree h⟩
  obtain ⟨e, rfl⟩ | ⟨w, -, rfl⟩ := exec_cases h
  · exact takeError_engineSound e s
  · exact finish_engineSound w

theorem completeWord_sound {w : Word} {s t : State} (hs : s.Sound) (h : completeWord w s = .next t) : t.Sound := by
  obtain ⟨i, -, hi⟩ | rfl := completeWord_cases h
  · exact exec_sound hs hi
  · exact takeError_sound hs _

theorem engineTurn_sound {s t : State} (hs : s.Sound) (h : engineTurn s = .next t) : t.Sound ∧ t.cfg = s.cfg := by
  unfold engineTurn at h
  split at h
  · split at h
    · cases h
      exact ⟨hs, rfl⟩
    · exact ⟨completeWord_sound hs h, (commandsKeepTheirInputs _ s t h).cfg⟩
  · cases h
    exact ⟨hs, rfl⟩

/-! ### Host writes (R101, R111, R112, R402) -/

theorem acceptCommand_sound {s : State} (h : s.Sound) (hr : s.rstN = true) (w : Word) : (acceptCommand w s).Sound where
  params := h.params
  memories := { h.memories with }
  engine := {
    cmd := fun _ hw => Option.some.inj hw
    flags := fun _ => ⟨rfl, rfl⟩
    errInfo := fun hi => by cases hi
    reset := fun h0 => by simp [hr] at h0 }
  octree := h.octree

theorem writeStatus_sound {s : State} (h : s.Sound) (v : Word) : (writeStatus v s).Sound where
  params := h.params
  memories := { h.memories with }
  engine := { h.engine with
    flags := fun hb => by
      obtain ⟨hd, he⟩ := h.engine.flags hb
      exact ⟨by simp [writeStatus, hd], he⟩ }
  octree := h.octree

theorem softReset_sound {s : State} (h : s.Sound) : (softReset s).Sound :=
  have hz := resetWith_sound h.params
  ⟨h.params, ⟨abortedFmem_wf (s := s) h.memories.fmem, h.memories.srcPal, h.memories.dstPal⟩,
    { hz.engine with reset := fun _ => rfl }, hz.octree⟩

theorem powerOn_sound {s : State} (h : s.Sound) (level : Bool) : (powerOn level s).Sound :=
  have hz := resetWith_sound h.params
  ⟨h.params, { hz.memories with }, { hz.engine with reset := fun _ => rfl }, hz.octree⟩

theorem writeReg_sound {s : State} (h : s.Sound) (hr : s.rstN = true) (v : Word) (r : Reg) : (writeReg v s r).Sound := by
  cases r
  case ctrl =>
    show (if v.getLsbD 0 then softReset s else s).Sound
    split
    · exact softReset_sound h
    · exact h
  case status => exact writeStatus_sound h v
  case cmd => exact acceptCommand_sound h hr v
  -- Every other register is read-only or stores an operand that the invariant does not speak of.
  all_goals exact ⟨h.params, { h.memories with }, { h.engine with }, h.octree⟩

/-- An access reaches SRC_PAL only at one of its entries (R102, R150). -/
theorem access_srcPal_lt {cfg : Config} {a i : Nat} {n : BusSize} (h : access cfg a n = some (.srcPal i)) :
    i < palEntries := by
  obtain ⟨-, -, ht⟩ | ⟨off, e, -⟩ := access_eq_some h
  · obtain ⟨-, ⟨r, e, -⟩ | ⟨j, hj, e, -⟩ | ⟨j, -, e, -⟩⟩ := targetAt_eq_some ht
    · cases e
    · cases e
      exact hj
    · cases e
  · cases e

/-- An access reaches FMEM only with all its bytes inside (R223). -/
theorem access_fmem_le {cfg : Config} {a off : Nat} {n : BusSize} (h : access cfg a n = some (.fmem off)) :
    off + n.bytes ≤ cfg.fmemSize := by
  obtain ⟨-, -, ht⟩ | ⟨o, e, -, -, ho⟩ := access_eq_some h
  · obtain ⟨-, ⟨r, e, -⟩ | ⟨j, -, e, -⟩ | ⟨j, -, e, -⟩⟩ := targetAt_eq_some ht <;> cases e
  · cases e
    exact ho

theorem writeTarget_sound {s : State} {a : Nat} {n : BusSize} {x : Target} (h : s.Sound) (hr : s.rstN = true)
    (hx : access s.cfg a n = some x) (v : Word) : (writeTarget n v s x).Sound := by
  have hm := h.memories
  cases x with
  | reg r => exact writeReg_sound h hr v r
  | dstPal i => exact h
  | srcPal i =>
    exact ⟨h.params, ⟨hm.fmem, Memory.set_wf _ hm.srcPal (access_srcPal_lt hx), hm.dstPal⟩, { h.engine with }, h.octree⟩
  | fmem off =>
    exact ⟨h.params, ⟨writeFmem_wf v hm.fmem (access_fmem_le hx), hm.srcPal, hm.dstPal⟩, { h.engine with }, h.octree⟩

theorem setOverrun_sound {s : State} (h : s.Sound) : (setOverrun s).Sound :=
  ⟨h.params, { h.memories with }, { h.engine with }, h.octree⟩

theorem writeAccess_sound {s : State} {a : Nat} {n : BusSize} {x : Target} (h : s.Sound) (hr : s.rstN = true)
    (hx : access s.cfg a n = some x) (v : Word) : (writeAccess n v s x).Sound := by
  unfold writeAccess
  cases x.writeKind with
  | ignored => exact h
  | always => exact writeTarget_sound h hr hx v
  | stored =>
    cases busy s with
    | true => exact setOverrun_sound h
    | false => exact writeTarget_sound h hr hx v

theorem hostWrite_sound {s : State} (h : s.Sound) (hr : s.rstN = true) (a : Word) (n : BusSize) (v : Word) :
    (hostWrite s a n v).1.Sound := by
  cases hx : access s.cfg a.toNat n with
  | none => simpa [hostWrite, hx] using h
  | some x => simpa only [hostWrite_of_access hx] using writeAccess_sound h hr hx v

/-! ### The parameters under a host write (R100) -/

theorem writeReg_cfg (v : Word) (s : State) (r : Reg) : (writeReg v s r).cfg = s.cfg := by
  cases r with
  | ctrl =>
    show (if v.getLsbD 0 then softReset s else s).cfg = s.cfg
    split <;> rfl
  | _ => rfl

theorem writeTarget_cfg (n : BusSize) (v : Word) (s : State) (x : Target) : (writeTarget n v s x).cfg = s.cfg := by
  cases x with
  | reg r => exact writeReg_cfg v s r
  | _ => rfl

theorem writeAccess_cfg (n : BusSize) (v : Word) (s : State) (x : Target) : (writeAccess n v s x).cfg = s.cfg := by
  unfold writeAccess
  cases x.writeKind with
  | ignored => rfl
  | always => exact writeTarget_cfg n v s x
  | stored =>
    cases busy s with
    | true => rfl
    | false => exact writeTarget_cfg n v s x

theorem hostWrite_cfg (s : State) (a : Word) (n : BusSize) (v : Word) : (hostWrite s a n v).1.cfg = s.cfg := by
  cases hx : access s.cfg a.toNat n with
  | none => simp [hostWrite, hx]
  | some x => simpa only [hostWrite_of_access hx] using writeAccess_cfg n v s x

/-! ### Every step (R400) -/

theorem nextTurn_sound {s : State} (h : s.Sound) (rest : List Input) : (nextTurn rest s).Sound :=
  ⟨h.params, { h.memories with }, { h.engine with }, h.octree⟩

theorem answer_sound {s : State} (h : s.Sound) (r : BusResponse) : (answer r s).Sound :=
  ⟨h.params, { h.memories with }, { h.engine with }, h.octree⟩

/-- A host transaction that takes place finds `rst_n` high and ends in its answer (R1100). -/
theorem hostTransaction_next {s s' : State} {t : State × BusResponse} (h : hostTransaction s t = .next s') :
    s.rstN = true ∧ s' = answer t.2 t.1 := by
  unfold hostTransaction at h
  split at h
  · exact ⟨‹_›, (Host.Outcome.next.inj h).symm⟩
  · cases h

theorem perform_sound {s t : State} {i : Input} (hs : s.Sound) (h : perform s i = .next t) :
    t.Sound ∧ t.cfg = s.cfg := by
  cases i with
  | read a n =>
    obtain ⟨-, rfl⟩ := hostTransaction_next h
    exact ⟨answer_sound hs _, rfl⟩
  | write a n v =>
    obtain ⟨hr, rfl⟩ := hostTransaction_next h
    exact ⟨answer_sound (hostWrite_sound hs hr a n v) _, hostWrite_cfg s a n v⟩
  | engine => exact engineTurn_sound hs h
  | resetAssert =>
    cases h
    exact ⟨powerOn_sound hs false, rfl⟩
  | resetRelease =>
    cases h
    unfold releaseReset
    split
    · exact ⟨hs, rfl⟩
    · exact ⟨powerOn_sound hs true, rfl⟩

/-- Settles O59: a step performs one input in the state of its turn, and every input keeps the invariant. -/
theorem stepsKeepTheInvariant : Obligations.StepsKeepTheInvariant :=
  fun s _ hs h => perform_sound (s := turnState s) (nextTurn_sound hs s.inputs.tail) h

end Sys2Proof.Machine
end

section
/-! PROOFS. AddColor and Reduce on the octree unit (R620 to R633, R671, R672): what each accumulates or folds, what it
leaves alone, and when it fails. -/

namespace Sys2Proof.Machine

/-! ### Leaves of a sound octree (R606) -/

/-- A leaf of a sound octree is sound, and holds no more pixels than the octree (I6, I7). -/
theorem Octree.Sound.leafAt_sound {cap : Nat} {t : Octree} (h : t.Sound cap) {ks : Path} {d : LeafData}
    (hd : t.root.leafAt ks = some d) : d.sound ∧ d.count.toNat ≤ t.total := by
  obtain ⟨-, hsub⟩ := Node.leafPath_spec ks t.root d hd
  have hsh := Node.sub_shaped h.shape (t.root.leafPath ks)
  have hpix := Node.sub_pixels_le t.root (t.root.leafPath ks)
  rw [hsub] at hsh hpix
  exact ⟨hsh.2, h.total ▸ hpix⟩

/-! ### AddColor (R620, R623) -/

theorem Octree.addColour_of_full {cap : Nat} {t : Octree} (h : maxTotal < t.total + 1) (c : Colour) :
    t.addColour cap c = .error .capacityExceeded := by
  rw [Octree.addColour, if_pos h]

theorem Octree.addColour_of_room {cap : Nat} {t : Octree} (h : t.Sound cap) {c : Colour} (htot : t.total + 1 ≤ maxTotal)
    (hcap : t.live + t.root.need (pathOf c) ≤ cap) : t.addColour cap c = .ok (t.descend c) := by
  rw [Octree.addColour_eq h, if_neg (by omega), if_neg (by omega)]

theorem Octree.addColour_of_no_room {cap : Nat} {t : Octree} (h : t.Sound cap) {c : Colour}
    (hcap : cap < t.live + t.root.need (pathOf c)) : t.addColour cap c = .error .capacityExceeded := by
  rw [Octree.addColour_eq h, if_pos hcap, ite_self]

theorem Octree.Sound.without_addCache {cap : Nat} {t : Octree} (h : t.Sound cap) :
    ({ t with addCache := none } : Octree).Sound cap :=
  { h with addCache := fun _ _ hc => by cases hc }

/-- Settles O43: with either cache AddColor is the capacity checks and the descent, which writes the cache anew. -/
theorem insertionCacheIsTransparent : Obligations.InsertionCacheIsTransparent := by
  intro cap t c h
  rw [Octree.addColour_eq h, Octree.addColour_eq h.without_addCache]
  rfl

/-- The leaf of `c` after the descent, where there was one: one more pixel, the channels added (R620). -/
theorem Octree.descend_leafAt_self {cap : Nat} {t : Octree} (h : t.Sound cap) {c : Colour} (htot : t.total + 1 ≤ maxTotal)
    {d : LeafData} (hd : t.root.leafAt (pathOf c) = some d) :
    t.root.need (pathOf c) = 0 ∧ ∃ d', (t.descend c).root.leafAt (pathOf c) = some d' ∧ d'.seq = d.seq ∧
      d'.count.toNat = d.count.toNat + 1 ∧ d'.sumR.toNat = d.sumR.toNat + (redOf c).toNat ∧
      d'.sumG.toNat = d.sumG.toNat + (greenOf c).toNat ∧ d'.sumB.toNat = d.sumB.toNat + (blueOf c).toNat := by
  obtain ⟨hself, hneed⟩ := (Node.leafAt_insert_self c t.nextSeq (pathOf c) t.root 0 h.shape rfl).2 d hd
  obtain ⟨⟨-, hsums⟩, hcount⟩ := h.leafAt_sound hd
  have hmax : maxTotal = 2 ^ 32 - 1 := rfl
  obtain ⟨-, hacc⟩ := LeafData.accumulate_spec c (by omega) hsums
  exact ⟨hneed, _, hself, rfl, hacc⟩

/-- The leaf of `c` after the descent, where there was none: it holds `c` once (R620). -/
theorem Octree.descend_leafAt_new {cap : Nat} {t : Octree} (h : t.Sound cap) {c : Colour}
    (hn : t.root.leafAt (pathOf c) = none) :
    t.root.need (pathOf c) ≠ 0 ∧ ∃ d', (t.descend c).root.leafAt (pathOf c) = some d' ∧ d'.count = 1 ∧
      d'.sumR.toNat = (redOf c).toNat ∧ d'.sumG.toNat = (greenOf c).toNat ∧ d'.sumB.toNat = (blueOf c).toNat := by
  obtain ⟨q, hq, hneed⟩ := (Node.leafAt_insert_self c t.nextSeq (pathOf c) t.root 0 h.shape rfl).1 hn
  obtain ⟨-, -, hr, hg, hb⟩ := LeafData.accumulate_spec (d := LeafData.fresh q) c (by simp [LeafData.fresh])
    (by simp [LeafData.fresh])
  refine ⟨hneed, _, hq, rfl, ?_, ?_, ?_⟩
  · simpa [LeafData.fresh] using hr
  · simpa [LeafData.fresh] using hg
  · simpa [LeafData.fresh] using hb

/-- Settles O41: with room AddColor is the descent, which changes the leaf of its path and appends to the lists. -/
theorem octAddAccumulates : Obligations.OctAddAccumulates := by
  intro s c need h hb htot hcap
  have hadd : s.oct.addColour s.cfg.nodeCapacity c = .ok (s.oct.descend c) := Octree.addColour_of_room h htot hcap
  refine ⟨s.oct.descend c, exec_octAdd_of_ok hb hadd, Octree.descend_sound h hb c htot hcap, hb, rfl, rfl,
    Octree.need_le_eight h c, rfl, fun level h1 h7 => Octree.descend_red s.oct c h1 h7, fun d hd => ?_, fun hn => ?_,
    fun e d he hne => Node.insert_leafAt_other c s.oct.nextSeq (pathOf c) (pathOf e) s.oct.root d he hne⟩
  · obtain ⟨hneed, hleaf⟩ := Octree.descend_leafAt_self h htot hd
    exact ⟨hneed, if_pos hneed, hleaf⟩
  · obtain ⟨hneed, hleaf⟩ := Octree.descend_leafAt_new h hn
    exact ⟨if_neg hneed, hleaf⟩

/-! ### Reduce (R630 to R633) -/

theorem Reducible.popFrom_of_empty {r : Reducible} (h : ∀ level, 1 ≤ level → level ≤ 7 → r.get level = []) :
    r.popFrom 7 = none := by
  cases hp : r.popFrom 7 with
  | none => rfl
  | some x =>
    obtain ⟨level, p, r'⟩ := x
    obtain ⟨h1, -, h7, hget, -⟩ := Reducible.popFrom_some hp
    simp [h level h1 h7] at hget

/-- The search of R630 stops at the deepest list that is not empty, and takes its newest node. -/
theorem Reducible.popFrom_of_deepest {r : Reducible} {level : Nat} {p : Path} (h1 : 1 ≤ level) (h7 : level ≤ 7)
    (hp : (r.get level).getLast? = some p) (hdeep : ∀ l, level < l → l ≤ 7 → r.get l = []) :
    ∃ r', r.popFrom 7 = some (level, p, r') ∧ r.get level = r'.get level ++ [p] ∧
      ∀ l, l ≠ level → r'.get l = r.get l := by
  cases hpop : r.popFrom 7 with
  | none => simp [Reducible.popFrom_none hpop level h1 h7] at hp
  | some x =>
    obtain ⟨l, q, r'⟩ := x
    obtain ⟨-, -, hl7, hget, hother, hempty, -⟩ := Reducible.popFrom_some hpop
    obtain rfl : l = level := by
      rcases Nat.lt_trichotomy l level with hlt | heq | hgt
      · simp [hempty level hlt h7] at hp
      · exact heq
      · simp [hdeep l hgt hl7] at hget
    obtain rfl : q = p := by simpa [hget] using hp
    exact ⟨r', rfl, hget, hother⟩

theorem Octree.reduce_of_empty {t : Octree} (h : ∀ level, 1 ≤ level → level ≤ 7 → t.red.get level = []) :
    t.reduce = .error .quantizerExhausted := by
  rw [Octree.reduce, Reducible.popFrom_of_empty h]

theorem Octree.reduce_of_popFrom {t : Octree} {level : Nat} {p : Path} {red : Reducible}
    (h : t.red.popFrom 7 = some (level, p, red)) : t.reduce = .ok (level, t.foldNode p red) := by
  rw [Octree.reduce, h]

/-- Settles O45: Reduce folds the node its search finds, whose children are all leaves (R631). -/
theorem octReduceFoldsDeepestNewest : Obligations.OctReduceFoldsDeepestNewest := by
  intro s level p h hb h1 h7 hp hdeep n
  obtain ⟨red, hpop, hget, hother⟩ := Reducible.popFrom_of_deepest h1 h7 hp hdeep
  obtain ⟨hsound, hphase, -, hk, hleaves, hlive, -⟩ := Octree.foldNode_spec h hb hpop
  obtain ⟨-, -, -, hbr, hsh, hflat⟩ := h.flat hpop
  have hne : n ≠ .empty := fun e => by simp [show s.oct.root.sub p = .empty from e] at hbr
  have hpix : n.pixels < 2 ^ 32 := (Node.sub_pixels_le _ _).trans_lt h.pixels_lt
  obtain ⟨d, hd, hidx, hcount, hred, hgreen, hblue⟩ := Node.fold_sums hbr hsh hflat hpix
  refine ⟨s.oct.foldNode p red, d, exec_octReduce_of_ok hb (Octree.reduce_of_popFrom hpop), hsound, hphase, rfl, rfl, ?_,
    hother, hk, ?_, hlive, hflat, ?_, hidx, hcount, hred, hgreen, hblue, fun c e he hout => ?_⟩
  · rw [hget, List.dropLast_concat]
    rfl
  · show (s.oct.foldNode p red).leafCount + ((s.oct.root.sub p).childCount - 1) = s.oct.leafCount
    omega
  · exact (Node.sub_modify_self Node.fold hne).trans hd
  · exact (Node.modify_leafAt_other Node.fold p (pathOf c) s.oct.root hout).trans he

/-! ### Errors (R622, R633, R671 to R676) -/

/-- Settles O42: the phase is checked first, then the operand, then what the octree operation answers. -/
theorem octreeCommandErrors : Obligations.OctreeCommandErrors := by
  intro s c
  refine ⟨fun hf => ⟨exec_octAdd_of_frozen hf, exec_octReduce_of_frozen hf, exec_octPalette_of_frozen hf⟩,
    exec_octIndex_of_build, fun hb h => ?_, fun hb hs h => ?_, fun hb h => ⟨?_, fun hs => ?_⟩, exec_octPalette_of_bound⟩
  · exact exec_octAdd_of_error hb (Octree.addColour_of_full h _)
  · exact exec_octAdd_of_error hb (Octree.addColour_of_no_room hs h)
  · exact exec_octReduce_of_error hb (Octree.reduce_of_empty h)
  · exact (Octree.reduce_error hs (Octree.reduce_of_empty h)).2

end Sys2Proof.Machine
end

section
/-! PROOFS. CreatePalette and GetPaletteIndex on the octree unit (R640 to R654, R674, R676): the leaves in order, the path
of a colour in its bits, and the index of every colour added. -/

namespace Sys2Proof.Machine

/-! ### The path of a colour (R610, R611) -/

theorem Key.number_ofBits (r g b : Bool) : (Key.ofBits r g b).number = 4 * r.toNat + 2 * g.toNat + b.toNat := by
  cases r <;> cases g <;> cases b <;> rfl

theorem keyAt_number (c : Colour) {level : Nat} (h : level < 8) : (keyAt c level).number = keySlot c level := by
  have hr : (redOf c).getLsbD (7 - level) = c.getLsbD (23 - level) := by
    simp [redOf, show 7 - level < 8 by omega, show 16 + (7 - level) = 23 - level by omega]
  have hg : (greenOf c).getLsbD (7 - level) = c.getLsbD (15 - level) := by
    simp [greenOf, show 7 - level < 8 by omega, show 8 + (7 - level) = 15 - level by omega]
  have hb : (blueOf c).getLsbD (7 - level) = c.getLsbD (7 - level) := by
    simp [blueOf, show 7 - level < 8 by omega]
  rw [keyAt, Key.number_ofBits, hr, hg, hb, keySlot]

theorem pathOf_eq_map (c : Colour) : pathOf c = (List.range 8).map (keyAt c) := rfl

theorem pathOf_map_number (c : Colour) : (pathOf c).map Key.number = keySlots c := by
  rw [pathOf_eq_map, keySlots, List.map_map]
  exact List.map_congr_left fun level h => keyAt_number c (List.mem_range.1 h)

theorem take_pathOf_eq_iff (c e : Colour) {level : Nat} (h : level ≤ 8) :
    (pathOf c).take level = (pathOf e).take level ↔ ∀ l, l < level → keyAt c l = keyAt e l := by
  rw [pathOf_eq_map, pathOf_eq_map, ← List.map_take, ← List.map_take, List.take_range, Nat.min_eq_left h, List.map_inj_left]
  simp only [List.mem_range]

theorem keyAt_eq_iff (c e : Colour) (l : Nat) :
    keyAt c l = keyAt e l ↔ (redOf c).getLsbD (7 - l) = (redOf e).getLsbD (7 - l) ∧
      (greenOf c).getLsbD (7 - l) = (greenOf e).getLsbD (7 - l) ∧
      (blueOf c).getLsbD (7 - l) = (blueOf e).getLsbD (7 - l) := by
  refine ⟨Key.ofBits_inj, ?_⟩
  rintro ⟨hr, hg, hb⟩
  rw [keyAt, keyAt, hr, hg, hb]

/-- Two bytes have the same top `level` bits exactly when they agree without the bits below. -/
theorem topBits_eq_iff (a b : Byte) {level : Nat} (h : level ≤ 8) :
    (∀ l, l < level → a.getLsbD (7 - l) = b.getLsbD (7 - l)) ↔
      a.toNat / 2 ^ (8 - level) = b.toNat / 2 ^ (8 - level) := by
  constructor
  · intro hbits
    apply Nat.eq_of_testBit_eq
    intro i
    rw [Nat.testBit_div_two_pow, Nat.testBit_div_two_pow, BitVec.testBit_toNat, BitVec.testBit_toNat]
    by_cases hi : i + (8 - level) < 8
    · have := hbits (7 - (i + (8 - level))) (by omega)
      rwa [show 7 - (7 - (i + (8 - level))) = i + (8 - level) by omega] at this
    · rw [BitVec.getLsbD_of_ge _ _ (by omega), BitVec.getLsbD_of_ge _ _ (by omega)]
  · intro hdiv l hl
    have := congrArg (Nat.testBit · (level - 1 - l)) hdiv
    simpa [Nat.testBit_div_two_pow, BitVec.testBit_toNat, show level - 1 - l + (8 - level) = 7 - l by omega] using this

theorem take_pathOf_eq_iff_topBits (c e : Colour) {level : Nat} (h : level ≤ 8) :
    (pathOf c).take level = (pathOf e).take level ↔
      (redOf c).toNat / 2 ^ (8 - level) = (redOf e).toNat / 2 ^ (8 - level) ∧
      (greenOf c).toNat / 2 ^ (8 - level) = (greenOf e).toNat / 2 ^ (8 - level) ∧
      (blueOf c).toNat / 2 ^ (8 - level) = (blueOf e).toNat / 2 ^ (8 - level) := by
  rw [take_pathOf_eq_iff c e h, ← topBits_eq_iff _ _ h, ← topBits_eq_iff _ _ h, ← topBits_eq_iff _ _ h]
  simp only [keyAt_eq_iff]
  exact ⟨fun hk => ⟨fun l hl => (hk l hl).1, fun l hl => (hk l hl).2.1, fun l hl => (hk l hl).2.2⟩,
    fun ⟨hr, hg, hb⟩ l hl => ⟨hr l hl, hg l hl, hb l hl⟩⟩

/-! ### Lookups (R650 to R652) -/

theorem Octree.Sound.without_idxCache {cap : Nat} {t : Octree} (h : t.Sound cap) :
    ({ t with idxCache := none } : Octree).Sound cap :=
  { h with idxCache := fun _ _ hc => by cases hc }

/-- With an index on the path, cached or not, the answer is that index, and the cache then holds it (R650, R652). -/
theorem Octree.getPaletteIndex_of_lookup {cap : Nat} {t : Octree} (h : t.Sound cap) {c : Colour} {i : Byte}
    (hi : t.root.lookup (pathOf c) = some i) :
    t.getPaletteIndex c = .ok ({ t with idxCache := some (c, i) }, i) := by
  cases hc : t.cachedIndex c with
  | none => simp [Octree.getPaletteIndex, hc, hi]
  | some j =>
    have hcache := Octree.cachedIndex_some hc
    obtain rfl : j = i := Option.some.inj ((h.idxCache c j hcache).2.symm.trans hi)
    rw [← hcache]
    simp [Octree.getPaletteIndex, hc]

theorem Octree.getPaletteIndex_of_no_lookup {cap : Nat} {t : Octree} (h : t.Sound cap) {c : Colour}
    (hn : t.root.lookup (pathOf c) = none) : t.getPaletteIndex c = .error .paletteLookupFailure :=
  (Octree.getPaletteIndex_spec h c).2 hn

theorem Octree.createPalette_cases {t T : Octree} {m : Nat} {pal : List Colour} (h : t.createPalette m = .ok (T, pal)) :
    ∃ t', t.reduceTo m t.red.size = .ok t' ∧ (T, pal) = t'.extract := by
  unfold Octree.createPalette at h
  split at h
  · cases h
  · rename_i t' ht
    exact ⟨t', ht, (Except.ok.inj h).symm⟩

/-- Settles O44: the cache holds what the descent answers, and the extraction clears it. -/
theorem lookupCacheIsTransparent : Obligations.LookupCacheIsTransparent := by
  refine ⟨fun cap t c h => ?_, fun t t' m pal h => ?_⟩
  · cases hl : t.root.lookup (pathOf c) with
    | none => rw [Octree.getPaletteIndex_of_no_lookup h hl, Octree.getPaletteIndex_of_no_lookup h.without_idxCache hl]
    | some i =>
      rw [Octree.getPaletteIndex_of_lookup h hl, Octree.getPaletteIndex_of_lookup h.without_idxCache hl]
  · obtain ⟨u, -, he⟩ := Octree.createPalette_cases h
    exact congrArg (fun r => r.1.idxCache) he

theorem Node.lookup_of_leafAt {n : Node} {ks : Path} {d : LeafData} (h : n.leafAt ks = some d) :
    n.lookup ks = d.palIdx := by
  rw [Node.lookup_eq, h, Option.bind_some]

theorem Node.lookup_of_leafAt_none {n : Node} {ks : Path} (h : n.leafAt ks = none) : n.lookup ks = none := by
  rw [Node.lookup_eq, h, Option.bind_none]

theorem Node.allLeaves_leafAt {P : LeafData → Prop} {n : Node} (h : n.allLeaves P) {ks : Path} {d : LeafData}
    (hd : n.leafAt ks = some d) : P d := by
  induction ks generalizing n with
  | nil =>
    cases n with
    | empty => cases hd
    | leaf e => cases hd; exact h
    | branch => cases hd
  | cons k ks ih =>
    cases n with
    | empty => cases hd
    | leaf e => cases hd; exact h
    | branch => exact ih (Node.child_allLeaves h k) hd

/-- A leaf of a frozen octree has its index, which a descent returns (R640, R650). -/
theorem Octree.Sound.lookup_of_leafAt {cap : Nat} {t : Octree} (h : t.Sound cap) (hf : t.phase = .frozen) {ks : Path}
    {d : LeafData} (hd : t.root.leafAt ks = some d) : ∃ i, d.palIdx = some i ∧ t.root.lookup ks = some i := by
  obtain ⟨i, hi⟩ := Option.isSome_iff_exists.1 (Node.allLeaves_leafAt (h.indexed hf) hd)
  exact ⟨i, hi, (Node.lookup_of_leafAt hd).trans hi⟩

/-- Settles O48: the path is that of the top bits, and a lookup in a frozen unit is the descent. -/
theorem octIndexFindsFirstLeaf : Obligations.OctIndexFindsFirstLeaf := by
  refine ⟨pathOf_map_number, fun c e _ hl => take_pathOf_eq_iff_topBits c e hl, fun s h hf => ⟨fun d hd => ?_, fun hn => ?_⟩⟩
  · obtain ⟨i, hi, hl⟩ := h.lookup_of_leafAt hf hd
    exact ⟨i, hi, exec_octIndex_of_ok hf (Octree.getPaletteIndex_of_lookup h hl)⟩
  · exact exec_octIndex_of_error hf (Octree.getPaletteIndex_of_no_lookup h (Node.lookup_of_leafAt_none hn))

/-! ### Added colours (R653) -/

/-- A run of adds and reduces keeps the invariants and every leaf's path, and leaves a leaf for each colour added. -/
theorem Octree.build_spec {cap : Nat} {ops : List BuildOp} {t T : Octree} (h : t.Sound cap) (hb : t.phase = .build)
    (hT : Octree.build cap ops t = .ok T) :
    T.Sound cap ∧ T.phase = .build ∧ (∀ ks, (t.root.leafAt ks).isSome = true → (T.root.leafAt ks).isSome = true) ∧
      ∀ c, BuildOp.add c ∈ ops → (T.root.leafAt (pathOf c)).isSome = true := by
  induction ops generalizing t with
  | nil =>
    cases hT
    exact ⟨h, hb, fun _ hk => hk, fun _ hc => absurd hc List.not_mem_nil⟩
  | cons op ops ih =>
    cases op with
    | add e =>
      rw [Octree.build] at hT
      split at hT
      · cases hT
      · rename_i t' ht
        obtain ⟨hs, hp, rfl, -, -⟩ := Octree.addColour_spec h hb ht
        obtain ⟨hsT, hpT, hkeep, hadded⟩ := ih hs hp hT
        refine ⟨hsT, hpT, fun ks hk => hkeep ks (Octree.descend_leafAt_mono t e ks hk), fun c hc => ?_⟩
        obtain hce | hc := List.mem_cons.1 hc
        · rw [BuildOp.add.inj hce]
          exact hkeep _ (Octree.descend_leafAt h e)
        · exact hadded c hc
    | reduce =>
      rw [Octree.build] at hT
      split at hT
      · cases hT
      · rename_i level t' ht
        obtain ⟨hs, hp, -⟩ := Octree.reduce_spec h hb ht
        obtain ⟨hsT, hpT, hkeep, hadded⟩ := ih hs hp hT
        refine ⟨hsT, hpT, fun ks hk => hkeep ks (Octree.reduce_leafAt ht ks hk), fun c hc => ?_⟩
        exact hadded c (by simpa using hc)

/-- Settles O49: the leaf on the path of an added colour outlives the reductions, and the visit numbers it. -/
theorem addedColoursHaveAnIndex : Obligations.AddedColoursHaveAnIndex := by
  intro cap m ops c T frozen pal hcap hm hT hc hpal
  obtain ⟨hs, hb, -, hadded⟩ := Octree.build_spec (Octree.empty_sound hcap) rfl hT
  obtain ⟨F, pal', e, hF, -, -, hlen, -, -, hkeep, hidx⟩ | ⟨e, -⟩ := Octree.createPalette_spec (m := m) hs hb
  · cases e.symm.trans hpal
    obtain ⟨d, hd⟩ := Option.isSome_iff_exists.1 (hkeep _ (hadded c hc))
    obtain ⟨i, hi, hdi, -⟩ := hidx _ d hd
    refine ⟨_, _, Octree.getPaletteIndex_of_lookup hF ((Node.lookup_of_leafAt hd).trans hdi), ?_⟩
    rwa [BitVec.toNat_ofNat, Nat.mod_eq_of_lt (by omega)]
  · cases e.symm.trans hpal

/-! ### Palette entries (R643) -/

theorem meanOf_toNat {sum : BitVec 40} {count : BitVec 32} (h : sum.toNat ≤ 255 * count.toNat) :
    (meanOf sum count).toNat = sum.toNat / count.toNat := by
  have hle : sum.toNat / count.toNat ≤ 255 := Nat.div_le_of_le_mul (by rwa [Nat.mul_comm])
  rw [meanOf, BitVec.toNat_ofNat, Nat.mod_eq_of_lt (by omega)]

theorem meanOf_of_eq_mul {sum : BitVec 40} {count : BitVec 32} {v : Byte} (hc : 1 ≤ count.toNat)
    (h : sum.toNat = count.toNat * v.toNat) : meanOf sum count = v := by
  rw [meanOf, h, Nat.mul_div_cancel_left _ (by omega), BitVec.ofNat_toNat, BitVec.setWidth_eq]

/-- Settles O47: each sum is at most 255 times the count (I6), so the mean fits its byte. -/
theorem paletteEntriesAreTruncatedMeans : Obligations.PaletteEntriesAreTruncatedMeans := by
  intro d ⟨hc, hr, hg, hb⟩
  refine ⟨?_, ?_, ?_, fun c er eg eb => ?_⟩
  · rw [LeafData.colour, redOf_rgb, meanOf_toNat hr]
  · rw [LeafData.colour, greenOf_rgb, meanOf_toNat hg]
  · rw [LeafData.colour, blueOf_rgb, meanOf_toNat hb]
  · rw [LeafData.colour, meanOf_of_eq_mul hc er, meanOf_of_eq_mul hc eg, meanOf_of_eq_mul hc eb, rgb_channels]

/-! ### CreatePalette (R640 to R644) -/

theorem Octree.createPalette_exhausted {cap m : Nat} {t : Octree} (h : t.Sound cap) (hb : t.phase = .build)
    (hm : m < t.root.childCount) : t.createPalette m = .error .quantizerExhausted := by
  rw [Octree.createPalette, (Octree.reduceTo_iff h hb (Nat.le_refl _)).1 hm]

/-- With a bound that the root's children meet, CreatePalette extracts the octree `T` its loop leaves (R640, R642). -/
theorem Octree.createPalette_extracts {cap m : Nat} {t : Octree} (h : t.Sound cap) (hb : t.phase = .build)
    (hm : t.root.childCount ≤ m) :
    ∃ T, t.reduceTo m t.red.size = .ok T ∧ t.createPalette m = .ok T.extract ∧ T.Sound cap ∧ T.leafCount ≤ m ∧
      T.total = t.total ∧ T.leafCount ≤ t.leafCount := by
  obtain ⟨T, hT⟩ := (Octree.reduceTo_iff h hb (Nat.le_refl _)).2 hm
  obtain ⟨T', e, hs, -, hle, htot, hless, -⟩ | ⟨e, -⟩ := Octree.reduceTo_spec (m := m) h hb (Nat.le_refl _)
  · cases e.symm.trans hT
    exact ⟨T, hT, by rw [Octree.createPalette, hT], hs, hle, htot, hless⟩
  · cases e.symm.trans hT

theorem Octree.extract_palette (T : Octree) : T.extract.2 = T.root.leafList.map LeafData.colour := by
  show (T.root.visit []).2 = _
  rw [Node.visit_pal, List.nil_append]

theorem Octree.extract_palette_length {cap : Nat} {T : Octree} (h : T.Sound cap) : T.extract.2.length = T.leafCount := by
  rw [Octree.extract_palette, List.length_map, Node.leafList_length, h.leafCount]

/-- The visit numbers the leaves and keeps their colours (R640). -/
theorem Node.visit_colours (n : Node) (pal : List Colour) :
    (n.visit pal).1.leafList.map LeafData.colour = n.leafList.map LeafData.colour := by
  have h := congrArg (List.map LeafData.colour) (n.visit_leafList pal).1
  rw [List.map_map, List.map_map] at h
  exact h

/-- The leaves of an extracted octree are numbered in the order of their colours' slots (R644). -/
theorem Octree.extract_order {T : Octree} (hlen : T.extract.2.length ≤ 256) {c e : Colour} {d f : LeafData} {i j : Byte}
    (hd : T.extract.1.root.leafAt (pathOf c) = some d) (hf : T.extract.1.root.leafAt (pathOf e) = some f)
    (hi : d.palIdx = some i) (hj : f.palIdx = some j) (hne : i ≠ j) : i.toNat < j.toNat ↔ keySlots c < keySlots e := by
  rw [← pathOf_map_number, ← pathOf_map_number]
  exact Node.visit_order T.root [] hlen (pathOf c) (pathOf e) d f i j hd hf hi hj hne

/-- Settles O46: the loop of Reduce decides between the error and the extraction, whose visit numbers the leaves. -/
theorem octPaletteExtractsLeaves : Obligations.OctPaletteExtractsLeaves := by
  intro s h hb h1 h256
  refine ⟨fun hlt => exec_octPalette_of_error hb h1 h256 (Octree.createPalette_exhausted h hb hlt), fun hle => ?_⟩
  obtain ⟨T, hloop, hpal, hs, hbound, htotal, hfewer⟩ := Octree.createPalette_extracts h hb hle
  have hlen := Octree.extract_palette_length hs
  have hlen256 : T.extract.2.length ≤ 256 := by omega
  refine ⟨finish (octPaletteCopy T.extract.1 T.extract.2 s), T.extract.2, exec_octPalette_of_ok hb h1 h256 hpal, rfl,
    Octree.extract_sound hs, rfl, htotal, ?_, hlen, hlen.trans_le hbound, hfewer, fun i hi => ?_, fun i hi => ?_, ?_, ?_,
    fun i d hd => ?_, fun c e d f i j => Octree.extract_order hlen256, fun hfit => ?_, ?_⟩
  · exact (Octree.extract_palette T).trans (Node.visit_colours T.root []).symm
  · exact (Memory.get?_setList s.dstPal 0 _ i).trans (if_pos (by omega))
  · exact (Memory.get?_setList s.dstPal 0 _ i).trans (if_neg (by omega))
  · exact (BitVec.toNat_ofNat _ _).trans (Nat.mod_eq_of_lt (by omega))
  · exact (BitVec.toNat_ofNat _ _).trans (Nat.mod_eq_of_lt (by omega))
  · simpa using (Node.visit_leafList T.root []).2 i d hd
  · obtain rfl : s.oct = T := Except.ok.inj ((Octree.reduceTo_of_le hfit).symm.trans hloop)
    exact ⟨Octree.extract_palette s.oct, rfl⟩
  · obtain ⟨k, hk, hkle, hfirst⟩ := Octree.reduceTo_build s.cfg.nodeCapacity hloop
    exact ⟨k, T, hk, hkle, hfirst, rfl⟩

end Sys2Proof.Machine
end

section
/-! PROOFS. PAL_MATCH (R700 to R710): the matcher's distance as the squared distance over the integers, and the command by
its check of SRC_PAL_LEN. -/

namespace Sys2Proof.Machine

/-! ### Squared distances (R701) -/

theorem dist2_eq_squaredDistance (c p : Colour) : (dist2 c p : Int) = squaredDistance c p := by
  simp only [dist2, squaredDistance, Nat.cast_add, sqDiff_eq]

@[simp] theorem squaredDistance_self (c : Colour) : squaredDistance c c = 0 := by simp [squaredDistance]

/-- The matcher's answer in integer distances (R701 to R703); an exact match has distance 0. -/
theorem matchPalette_nearest (c : Colour) (pal : Nat → Colour) {m : Nat} (hm : 1 ≤ m) :
    (matchPalette c pal m).1 < m ∧ (matchPalette c pal m).2 ≤ 195075 ∧
      ((matchPalette c pal m).2 : Int) = squaredDistance c (pal (matchPalette c pal m).1) ∧
      (∀ j, j < m → ((matchPalette c pal m).2 : Int) ≤ squaredDistance c (pal j)) ∧
      (∀ j, j < (matchPalette c pal m).1 → ((matchPalette c pal m).2 : Int) < squaredDistance c (pal j)) ∧
      ∀ j, j < m → pal j = c → (matchPalette c pal m).2 = 0 := by
  obtain ⟨hidx, hdist, hleast, hfirst⟩ := matchPalette_spec c pal hm
  have hle : ∀ j, j < m → ((matchPalette c pal m).2 : Int) ≤ squaredDistance c (pal j) := fun j hj => by
    rw [← dist2_eq_squaredDistance]
    exact Int.ofNat_le.2 (hleast j hj)
  refine ⟨hidx, hdist.trans_le (dist2_le _ _), ?_, hle, fun j hj => ?_, fun j hj hc => ?_⟩
  · rw [hdist, dist2_eq_squaredDistance]
  · rw [← dist2_eq_squaredDistance]
    exact Int.ofNat_lt.2 (hfirst j hj)
  · have hzero := hle j hj
    rw [hc, squaredDistance_self] at hzero
    omega

/-! ### PAL_MATCH (R710) -/

theorem exec_palMatch_of_length {s : State} (h1 : 1 ≤ srcPalLen s) (h256 : srcPalLen s ≤ 256) :
    exec .palMatch s =
      .next (finish (setResult1 (BitVec.ofNat 32 (matchPalette (colourOperand s.arg0) (srcPalAt s) (srcPalLen s)).2)
        (setResult0 (BitVec.ofNat 32 (matchPalette (colourOperand s.arg0) (srcPalAt s) (srcPalLen s)).1) s))) := by
  have hlen : ¬ (srcPalLen s < 1 ∨ 256 < srcPalLen s) := by omega
  simp only [exec, execPalMatch, if_neg hlen, complete]

theorem exec_palMatch_of_bad_length {s : State} (h : srcPalLen s < 1 ∨ 256 < srcPalLen s) :
    exec .palMatch s = .next (takeError (.invalidArgument .paletteEmpty) s) := by
  simp only [exec, execPalMatch, if_pos h, complete]

/-- Settles O23: the check of SRC_PAL_LEN decides between the error and the matcher's answer. -/
theorem palMatchFindsNearest : Obligations.PalMatchFindsNearest := by
  intro s c n
  refine ⟨fun h1 h256 => ?_, fun h => exec_palMatch_of_bad_length h⟩
  exact ⟨_, _, exec_palMatch_of_length h1 h256, matchPalette_nearest c (srcPalAt s) h1⟩

end Sys2Proof.Machine
end

section
/-! PROOFS. What a REFORMAT that succeeds commits (R880 to R883): pixels, palette, mask, the bytes it leaves alone and the
descriptor of the new frame; the clone, REPACK and EXPAND (R830 to R850). -/

namespace Sys2Proof.Machine

/-! ### The conversion table (R811) -/

theorem routeTable_self (f : PixFmt) : routeTable f f = .clone := by cases f <;> rfl

theorem routeTable_of_indexed {f g : PixFmt} (hf : f.isIndexed = true) (hg : g.isIndexed = true) (hne : f ≠ g) :
    routeTable f g = .repack := by
  cases f <;> cases g <;> simp_all [PixFmt.isIndexed, routeTable]

theorem routeTable_of_indexed_truecolor {f g : PixFmt} (hf : f.isIndexed = true) (hg : g.isIndexed = false) :
    routeTable f g = .expand := by
  cases f <;> cases g <;> simp_all [PixFmt.isIndexed, routeTable]

/-! ### The commit (R880) -/

/-- On legal frames REFORMAT ends with the commit of what its routine returns (R810, R880). -/
theorem exec_reformat_commit {s : State} {f g : PixFmt} {r : Route} {out : Converted} (hs : SourceLegal s f)
    (hd : DestinationLegal s g) (hr : routeTable f g = r) (ho : runRoute s f g r = .ok out) :
    exec (.reformat g.code) s = .next (finish (commit s g out)) := by
  subst hr
  have hne : routeTable f g ≠ .unsupported := fun e => by
    rw [e] at ho
    cases ho
  exact exec_reformat_of_ok (reformat_ok hs (PixFmt.ofCode_code g) hne hd ho)

/-- A REFORMAT that ends without error has passed every check and finished the commit of its routine (R810, R880). -/
theorem exec_reformat_succeeds {s t : State} {n : Nat} (h : exec (.reformat n) s = .next t) (ht : t.err = .none) :
    ∃ f g out, SourceLegal s f ∧ PixFmt.ofCode n = some g ∧ DestinationLegal s g ∧ routeTable f g ≠ .unsupported ∧
      runRoute s f g (routeTable f g) = .ok out ∧ t = finish (commit s g out) := by
  obtain ⟨w, hw, rfl⟩ := reformat_of_exec_ok h ht
  obtain ⟨f, g, out, hs, hg, hd, hr, ho, rfl⟩ := reformat_cases hw
  exact ⟨f, g, out, hs, hg, hd, hr, ho, rfl⟩

/-- The pixels that a routine wrote are those of the new frame (R535, R880). -/
theorem destinationRaw_of_written {s : State} {g : PixFmt} {val : Nat → Nat → Raw} {out : Converted}
    (hd : DestinationLegal s g) (hw : Written s g val out.fmem) {x y : Nat} (hx : x < srcW s) (hy : y < srcH s)
    (hv : (val x y).toNat < 2 ^ g.bpp) : destinationRaw s (finish (commit s g out)) g x y = val x y := by
  rw [destinationRaw_finish, destinationRaw_commit hd out (pixelOffset_lt_stride hx) hy, hw.pixels x y hx hy,
    Raw.trim_of_lt hv]

theorem get?_commit_dstPal (s : State) (g : PixFmt) (out : Converted) (i : Nat) :
    Memory.get? (commit s g out).dstPal i = if i < out.pal.length then out.pal[i]? else Memory.get? s.dstPal i := by
  simp [commit, Memory.get?_setList]

theorem srcPalList_getElem? (s : State) {n i : Nat} (h : i < n) : (srcPalList s n)[i]? = some (srcPalAt s i) := by
  simp [srcPalList, h]

/-- A routine that copies the palette leaves SRC_PAL's entries in DST_PAL and SRC_PAL_LEN in DST_PAL_LEN (R830, R840). -/
theorem commit_copied_palette {s : State} {g : PixFmt} {out : Converted} (h : out.pal = srcPalList s (srcPalLen s)) :
    (∀ i, i < srcPalLen s → Memory.get? (commit s g out).dstPal i = some (srcPalAt s i)) ∧
      (commit s g out).dst.palLen = s.src.palLen := by
  have hlen : out.pal.length = srcPalLen s := by simp [h, srcPalList]
  refine ⟨fun i hi => ?_, ?_⟩
  · rw [get?_commit_dstPal, if_pos (hlen ▸ hi), h, srcPalList_getElem? s hi]
  · show BitVec.ofNat 9 out.pal.length = s.src.palLen
    rw [hlen, srcPalLen, BitVec.ofNat_toNat, BitVec.setWidth_eq]

/-- The commit copies the mask as the source has it: the routine leaves the source mask alone, which lies apart from the
destination buffer (R821, R881). -/
theorem get?_commit_mask {s : State} {f g : PixFmt} {out : Converted} (hs : SourceLegal s f) (hd : DestinationLegal s g)
    (ho : runRoute s f g (routeTable f g) = .ok out) (hm : s.src.maskPresent = true) {i : Nat}
    (hi : i < srcH s * maskStride (srcW s)) :
    Memory.get? (commit s g out).fmem (dstMaskBase s + i) = some (read8 s.draws s.fmem (srcMaskBase s + i)) := by
  refine get?_copyMask_in hd hm out.fmem hi ((runRoute_frame hs hd rfl ho).1 _ fun hin => ?_)
  exact (hd.offMask hm).not_both hin ⟨Nat.le_add_right _ _, Nat.add_lt_add_left hi _⟩

/-- The commit changes no byte outside the destination buffer and mask (R883). -/
theorem get?_commit_out {s : State} {f g : PixFmt} {out : Converted} (hs : SourceLegal s f) (hd : DestinationLegal s g)
    (ho : runRoute s f g (routeTable f g) = .ok out) {a : Nat} (ha : ¬ Footprint s g a) :
    Memory.get? (commit s g out).fmem a = Memory.get? s.fmem a := by
  obtain ⟨hbuf, hmask⟩ := not_or.1 ha
  exact (get?_copyMask_out fun hm hin => hmask ⟨hm, hin⟩).trans ((runRoute_frame hs hd rfl ho).1 a hbuf)

/-! ### The clone (R830) -/

/-- The clone copies the buffer byte for byte: source and destination buffer lie apart (R821, R830). -/
theorem get?_commit_clone {s : State} {f : PixFmt} {out : Converted} (hs : SourceLegal s f) (hd : DestinationLegal s f)
    (ho : cloneFrame s = .ok out) {i : Nat} (hi : i < srcBufLen s) :
    Memory.get? (commit s f out).fmem (dstBase s + i) = some (read8 s.draws s.fmem (srcBase s + i)) := by
  cases ho
  have hlen : srcBufLen s = srcH s * stride f (srcW s) := by rw [hs.length, hs.stride]
  have happart := hd.offSource
  rw [← hlen] at happart
  rw [get?_commit_buffer hd _ ⟨by omega, by omega⟩]
  exact get?_copyBytes_in s.draws s.fmem happart hi

/-- Settles O29: equal formats take the clone, whose buffer, palette and mask the commit stores. -/
theorem reformatClones : Obligations.ReformatClones := by
  intro s f hs hd
  obtain ⟨out, ho⟩ : ∃ out, cloneFrame s = .ok out := ⟨_, rfl⟩
  have hr := routeTable_self f
  obtain ⟨hpal, hlen⟩ := commit_copied_palette (s := s) (g := f) (out := out) (by cases ho; rfl)
  refine ⟨_, exec_reformat_commit hs hd hr ho, rfl, fun i hi => get?_commit_clone hs hd ho hi, hpal, hlen, ?_, ?_, ?_⟩
  · intro hf
    have h0 := hs.noPalette hf
    refine ⟨hlen.trans (BitVec.eq_of_toNat_eq h0), ?_⟩
    cases ho
    simp [commit, srcPalList, h0, Memory.setList]
  · cases ho
    rfl
  · exact fun hm i hi => get?_commit_mask hs hd (hr ▸ ho) hm hi

/-! ### REPACK and EXPAND (R840, R850) -/

/-- Settles O30: no pixel fails the checks of R840, and an index that fits the target is stored whole. -/
theorem reformatRepacks : Obligations.ReformatRepacks := by
  intro s f g hs hd hf hg hne h1 hi
  obtain ⟨m, ho, hw⟩ := repack_spec hs hd h1 hi
  obtain ⟨hpal, hlen⟩ :=
    commit_copied_palette (s := s) (g := g) (out := ⟨m, srcPalList s (srcPalLen s), s.src.transp⟩) rfl
  exact ⟨_, exec_reformat_commit hs hd (routeTable_of_indexed hf hg hne) ho, rfl,
    fun x y hx hy => destinationRaw_of_written hd hw hx hy (hi x y hx hy).2, hpal, hlen, rfl⟩

/-- Settles O31: no pixel fails the check of R850, and a packed value is stored whole. -/
theorem reformatExpands : Obligations.ReformatExpands := by
  intro s f g hs hd hf hg hi
  obtain ⟨m, ho, hw⟩ := expand_spec hs hd hf hi
  exact ⟨_, exec_reformat_commit hs hd (routeTable_of_indexed_truecolor hf hg) ho, rfl,
    fun x y hx hy => destinationRaw_of_written (out := ⟨m, [], noTransparent⟩) hd hw hx hy (packPixel_toNat_lt g _),
    rfl, rfl⟩

/-! ### The mask and the frame of REFORMAT (R881, R883) -/

/-- Settles O36: every routine leaves the source mask alone, and the commit copies it. -/
theorem masksAreCopiedVerbatim : Obligations.MasksAreCopiedVerbatim := by
  intro s t n h ht
  obtain ⟨f, g, out, hs, -, hd, -, ho, rfl⟩ := exec_reformat_succeeds h ht
  exact ⟨rfl, fun hm i hi => get?_commit_mask hs hd ho hm hi⟩

/-- DST_PAL_LEN holds the length of a palette that DST_PAL can hold (R880). -/
theorem commit_palLen_toNat (s : State) (g : PixFmt) {out : Converted} (h : out.pal.length ≤ 256) :
    (commit s g out).dst.palLen.toNat = out.pal.length := by
  show (BitVec.ofNat 9 out.pal.length).toNat = _
  rw [BitVec.toNat_ofNat, Nat.mod_eq_of_lt (by omega)]

/-- Settles O13: a REFORMAT that fails changes the status alone; one that succeeds commits its routine's result, which
agrees with FMEM outside the destination ranges. -/
theorem frameOfReformat : Obligations.FrameOfReformat := by
  intro s t n hv h
  refine ⟨exec_inputsKept h, ?_⟩
  obtain ⟨e, -, rfl⟩ | ⟨w, hw, rfl⟩ := complete_cases (r := reformat s n) h
  · exact ⟨rfl, rfl, rfl, fun _ _ _ _ _ _ => rfl, fun _ _ => rfl⟩
  · obtain ⟨f, g, out, hs, hg, hd, hr, ho, rfl⟩ := reformat_cases hw
    refine ⟨rfl, rfl, rfl, fun f' g' _ hg' a ha => ?_, fun j hj => ?_⟩
    · obtain rfl : g = g' := Option.some.inj (hg.symm.trans hg')
      exact get?_commit_out hs hd ho ha
    · have hlen := commit_palLen_toNat s g (runRoute_palette_legal hv hs hd hr ho).1
      have hj' : out.pal.length ≤ j := hlen ▸ hj.resolve_right fun hne => hne rfl
      exact (get?_commit_dstPal s g out j).trans (if_neg (Nat.not_lt.2 hj'))

/-! ### The new frame (R880, R882) -/

theorem stride_lt {g : PixFmt} {w : Nat} (h : w < 2 ^ 16) : stride g w < 2 ^ 32 := by
  cases g <;> simp only [stride, PixFmt.bpp] <;> omega

theorem Config.fmemSize_le {c : Config} (h : c.valid = true) : c.fmemSize ≤ 0x0FF00000 := by
  simp only [Config.valid, Bool.and_eq_true, decide_eq_true_eq] at h
  exact h.1.2

theorem PixFmt.code_lt (f : PixFmt) : f.code < 8 := by cases f <;> decide

/-- The destination descriptor describes a legal frame of the target format: the destination ranges that R821 checked, and
a palette that R820 allows. -/
theorem sourceLegal_commit {s : State} {f g : PixFmt} {out : Converted} (hv : s.cfg.valid = true) (hs : SourceLegal s f)
    (hd : DestinationLegal s g) (hr : routeTable f g ≠ .unsupported) (ho : runRoute s f g (routeTable f g) = .ok out)
    {t : State} (ht : t = finish (commit s g out)) :
    t.dst.stride.toNat = stride g (srcW s) ∧ t.dst.bufLen.toNat = srcH s * stride g (srcW s) ∧
      t.dst.fmt.toNat = g.code ∧ SourceLegal { t with src := t.dst } g := by
  have hstride : t.dst.stride.toNat = stride g (srcW s) := by
    rw [ht]
    exact (BitVec.toNat_ofNat _ _).trans (Nat.mod_eq_of_lt (stride_lt s.src.width.isLt))
  have hbuf : t.dst.bufLen.toNat = srcH s * stride g (srcW s) := by
    have hsize := Config.fmemSize_le hv
    have hfits := hd.buffer
    rw [ht]
    exact (BitVec.toNat_ofNat _ _).trans (Nat.mod_eq_of_lt (by unfold dstLen; omega))
  have hfmt : t.dst.fmt.toNat = g.code := by
    rw [ht]
    exact (BitVec.toNat_ofNat _ _).trans (Nat.mod_eq_of_lt (PixFmt.code_lt g))
  obtain ⟨hpal, hpos, htwo, hzero⟩ := runRoute_palette_legal hv hs hd hr ho
  have hlen : t.dst.palLen.toNat = out.pal.length := ht ▸ commit_palLen_toNat s g hpal
  refine ⟨hstride, hbuf, hfmt, ?_⟩
  subst ht
  exact
    { fmt := (congrArg PixFmt.ofCode hfmt).trans (PixFmt.ofCode_code g)
      width := hs.width
      height := hs.height
      stride := hstride
      length := hbuf.trans (congrArg (srcH s * ·) hstride.symm)
      buffer := (congrArg (dstBase s + ·) hbuf).le.trans hd.buffer
      palette := fun hg => ⟨(hpos hg).trans hlen.ge, hlen.le.trans hpal⟩
      palette1 := fun hg => hlen.trans (htwo hg)
      noPalette := fun hg => hlen.trans (hzero hg)
      mask := hd.mask }

/-- Settles O37: the descriptor of the commit is that of a frame that passed R821, with the routine's palette. -/
theorem outputIsALegalFrame : Obligations.OutputIsALegalFrame := by
  intro s t n hv h ht
  obtain ⟨f, g, out, hs, hg, hd, hr, ho, hcommit⟩ := exec_reformat_succeeds h ht
  obtain ⟨hstride, hbuf, hfmt, hlegal⟩ := sourceLegal_commit hv hs hd hr ho hcommit
  obtain ⟨-, -, -, -, -, htransp⟩ := runRoute_palette hv hs hd ho
  refine ⟨f, g, hs.fmt, hg, hfmt.trans (PixFmt.code_of_ofCode hg).symm, ?_⟩
  subst hcommit
  exact ⟨rfl, rfl, hstride, hbuf, rfl, rfl, rfl, fun hg => BitVec.eq_of_toNat_eq (hlegal.noPalette hg), htransp, hlegal⟩

end Sys2Proof.Machine
end

section
/-! PROOFS. The errors that pixels decide (R840, R850, R1021), and QUANTIZE (R870 to R873, R884). -/

namespace Sys2Proof.Machine

/-- On legal frames REFORMAT ends with the error of its routine, as the error entry (R810, R1030). -/
theorem exec_reformat_routine_error {s : State} {f g : PixFmt} {r : Route} {e : CmdError} (hs : SourceLegal s f)
    (hd : DestinationLegal s g) (hr : routeTable f g = r) (hne : r ≠ .unsupported) (he : runRoute s f g r = .error e) :
    exec (.reformat g.code) s = .next (takeError e s) := by
  subst hr
  simp only [exec, execReformat, reformat_routine_error hs hd hne he, complete]

/-! ### The first bad pixel (R1021) -/

/-- A working copy of FMEM that agrees with FMEM outside the destination buffer. -/
def AgreesOutside (s : State) (t : PixFmt) (m : List Host.Cell) : Prop :=
  ∀ b, ¬ InRange (dstBase s) (dstLen s t) b → Memory.get? m b = Memory.get? s.fmem b

/-- A loop over a cleared destination that writes each pixel before (x, y), and fails there, ends with that error. -/
theorem forPixels_first_error {s : State} {g : PixFmt}
    {body : List Host.Cell → Nat → Nat → Except CmdError (List Host.Cell)} {x y : Nat} {e : CmdError}
    (hx : x < srcW s) (hy : y < srcH s)
    (hgood : ∀ m u v, AgreesOutside s g m → u < srcW s → v < srcH s → Before u v x y →
      ∃ r, body m u v = .ok (writeDst s g m u v r))
    (hbad : ∀ m, AgreesOutside s g m → body m x y = .error e) :
    forPixels body (srcPixels s) (fillZero s g s.fmem) = .error e := by
  refine forPixels_error (AgreesOutside s g) (fun b => fillZero_out) hx hy (fun m u v hm hu hv hb => ?_) hbad
  obtain ⟨r, hr⟩ := hgood m u v hm hu hv hb
  exact ⟨_, hr, fun b hout => (writeDst_out m r hu hv hout).trans (hm b hout)⟩

/-- The loop body of R840 by the index of the source pixel. -/
theorem repackPixel_eq {s : State} {f g : PixFmt} {m : List Host.Cell} {x y : Nat} (hs : SourceLegal s f)
    (hd : DestinationLegal s g) (hm : AgreesOutside s g m) (hx : x < srcW s) (hy : y < srcH s) :
    repackPixel s f g m x y =
      if srcPalLen s ≤ (sourceRaw s f x y).toNat then .error (.invalidArgument .indexNotInPalette)
      else if 2 ^ g.bpp ≤ (sourceRaw s f x y).toNat then .error (.invalidArgument .indexTooWide)
      else .ok (writeDst s g m x y (sourceRaw s f x y)) := by
  rw [repackPixel, readSrc_eq hs hd hm hx hy]

/-- The loop body of R850 by the index of the source pixel. -/
theorem expandPixel_eq {s : State} {f g : PixFmt} {m : List Host.Cell} {x y : Nat} (hs : SourceLegal s f)
    (hd : DestinationLegal s g) (hf : f.isIndexed = true) (hm : AgreesOutside s g m) (hx : x < srcW s)
    (hy : y < srcH s) :
    expandPixel s f g m x y =
      if srcPalLen s ≤ (sourceRaw s f x y).toNat then .error (.invalidArgument .indexNotInPalette)
      else .ok (writeDst s g m x y (packPixel g (srcPalAt s (sourceRaw s f x y).toNat))) := by
  rw [expandPixel, readSrc_eq hs hd hm hx hy, colourOfRaw, if_pos hf]
  by_cases h : srcPalLen s ≤ (sourceRaw s f x y).toNat
  · simp only [if_pos h]
  · simp only [if_neg h]

theorem repack_of_bad_palette {s : State} {f g : PixFmt} (hg : g = .indexed1) (h : srcPalLen s ≠ 2) :
    repack s f g = .error (.invalidArgument .dstPal1bpp) := by
  rw [repack, if_pos ⟨hg, h⟩]

theorem repack_of_bad_pixel {s : State} {f g : PixFmt} {e : CmdError} (h1 : g = .indexed1 → srcPalLen s = 2)
    (h : forPixels (repackPixel s f g) (srcPixels s) (fillZero s g s.fmem) = .error e) : repack s f g = .error e := by
  rw [repack, if_neg fun hb => hb.2 (h1 hb.1), h]

theorem expand_of_bad_pixel {s : State} {f g : PixFmt} {e : CmdError}
    (h : forPixels (expandPixel s f g) (srcPixels s) (fillZero s g s.fmem) = .error e) : expand s f g = .error e := by
  rw [expand, h]

/-- Settles O38: the loop of each routine writes every good pixel and ends at the first bad one. -/
theorem firstBadPixelDecides : Obligations.FirstBadPixelDecides := by
  intro s f g hs hd hf
  refine ⟨fun hg hne hpal => ?_, fun x y hx hy hg hgood hbad => ?_, fun x y hx hy hg hne h1 hgood => ?_⟩
  · have hr := routeTable_of_indexed hf (by rw [hg]; rfl) hne
    exact exec_reformat_routine_error hs hd hr (by simp) (repack_of_bad_palette hg hpal)
  · have hr := routeTable_of_indexed_truecolor hf hg
    refine exec_reformat_routine_error (e := .invalidArgument .indexNotInPalette) hs hd hr (by simp)
      (expand_of_bad_pixel (forPixels_first_error hx hy (fun m u v hm hu hv hb => ?_) fun m hm => ?_))
    · exact ⟨_, by rw [expandPixel_eq hs hd hf hm hu hv, if_neg (Nat.not_le.2 (hgood u v hu hv hb))]⟩
    · rw [expandPixel_eq hs hd hf hm hx hy, if_pos hbad]
  · have hr := routeTable_of_indexed hf hg hne
    have hfail : ∀ e, (∀ m, AgreesOutside s g m → repackPixel s f g m x y = .error e) →
        exec (.reformat g.code) s = .next (takeError e s) := fun e hbad => by
      refine exec_reformat_routine_error hs hd hr (by simp)
        (repack_of_bad_pixel h1 (forPixels_first_error hx hy (fun m u v hm hu hv hb => ?_) hbad))
      obtain ⟨hin, hfits⟩ := hgood u v hu hv hb
      exact ⟨_, by rw [repackPixel_eq hs hd hm hu hv, if_neg (Nat.not_le.2 hin), if_neg (Nat.not_le.2 hfits)]⟩
    refine ⟨fun hbad => hfail (.invalidArgument .indexNotInPalette) fun m hm => ?_,
      fun hin hbad => hfail (.invalidArgument .indexTooWide) fun m hm => ?_⟩
    · rw [repackPixel_eq hs hd hm hx hy, if_pos hbad]
    · rw [repackPixel_eq hs hd hm hx hy, if_neg (Nat.not_le.2 hin), if_pos hbad]

/-! ### QUANTIZE (R870 to R873) -/

theorem routeTable_of_truecolor_indexed {f g : PixFmt} (hf : f.isIndexed = false) (hg : g = .indexed4 ∨ g = .indexed8) :
    routeTable f g = .quantize := by
  rcases hg with rfl | rfl <;> cases f <;> simp_all [PixFmt.isIndexed, routeTable]

theorem two_pow_bpp_range {g : PixFmt} (hg : g = .indexed4 ∨ g = .indexed8) : 8 ≤ 2 ^ g.bpp ∧ 2 ^ g.bpp ≤ 256 := by
  rcases hg with rfl | rfl <;> decide

/-- The root alone is more than a store of no nodes (R622). -/
theorem Octree.addColour_empty_of_no_capacity (c : Colour) :
    Octree.empty.addColour 0 c = .error .capacityExceeded := by
  have hroom : 0 < Octree.empty.live + Octree.empty.root.need (pathOf c) := Nat.add_pos_left Nat.one_pos _
  rw [Octree.addColour, if_neg (by decide)]
  exact if_pos hroom

/-- Pass 1 builds the octree, in a store that holds the root at least, or is CAPACITY_EXCEEDED (R870, R871). -/
theorem build_ok_or_capacityExceeded {s : State} {f : PixFmt} (hs : SourceLegal s f) :
    forPixels (buildPixel s f) (srcPixels s) Octree.empty = .error .capacityExceeded ∨
      1 ≤ s.cfg.nodeCapacity ∧ ∃ T, forPixels (buildPixel s f) (srcPixels s) Octree.empty = .ok T := by
  rcases Nat.eq_zero_or_pos s.cfg.nodeCapacity with h0 | hpos
  · refine .inl (forPixels_error (· = Octree.empty) rfl hs.width hs.height (fun T u v _ _ _ hb => ?_) fun T hT => ?_)
    · obtain h | ⟨-, h⟩ := hb <;> exact absurd h (Nat.not_lt_zero _)
    · rw [hT, buildPixel_eq hs, h0, Octree.addColour_empty_of_no_capacity]
  · exact (build_spec hs hpos).imp_right fun ⟨T, hT, _⟩ => ⟨hpos, T, hT⟩

theorem quantize_of_build_error {s : State} {f g : PixFmt} {e : CmdError}
    (h : forPixels (buildPixel s f) (srcPixels s) Octree.empty = .error e) : quantize s f g = .error e := by
  rw [quantize, h]

/-- The index that pass 2 stores for a colour is the one its lookup answers (R650, R870). -/
theorem indexValue_toNat {T : Octree} {c : Colour} {i : Nat} (h : T.root.lookup (pathOf c) = some (BitVec.ofNat 8 i))
    (hi : i < 256) : (indexValue T c).toNat = i := by
  rw [indexValue, h, Option.getD_some, BitVec.toNat_setWidth, BitVec.toNat_ofNat]
  omega

/-- Settles O33: pass 1 decides between CAPACITY_EXCEEDED and the palette of CreatePalette, and pass 2 stores the index
that a lookup of the pixel's colour answers. -/
theorem reformatQuantizes : Obligations.ReformatQuantizes := by
  intro s f g hs hd hf hg built
  have hr := routeTable_of_truecolor_indexed hf hg
  obtain ⟨h8, h256⟩ := two_pow_bpp_range hg
  have hbuilt : forPixels (buildPixel s f) (srcPixels s) Octree.empty = built := buildPixels_eq hs (srcPixels s) .empty
  refine ⟨fun e he => ?_, fun T hT => ?_, fun hcap => hbuilt ▸ build_ok hs hcap⟩
  · obtain h | ⟨-, T, h⟩ := build_ok_or_capacityExceeded hs
    · exact exec_reformat_routine_error hs hd hr (by simp) (quantize_of_build_error h)
    · rw [h, he] at hbuilt
      cases hbuilt
  · rw [hT] at hbuilt
    obtain h | ⟨hcap, -⟩ := build_ok_or_capacityExceeded hs
    · rw [h] at hbuilt
      cases hbuilt
    obtain ⟨frozen, pal, m, hpal, ho, hlen, hw, hleaf⟩ := quantize_spec hs hd hcap h8 hbuilt
    refine ⟨_, frozen, pal, exec_reformat_commit hs hd hr ho, rfl, hpal, ?_, hlen,
      commit_palLen_toNat s g (hlen.trans h256), fun i hi => ?_, rfl, fun x y hx hy => ?_⟩
    · obtain ⟨d, i, -, hi, -⟩ := hleaf 0 0 hs.width hs.height
      exact Nat.one_le_of_lt hi
    · exact (get?_commit_dstPal s g ⟨m, pal, noTransparent⟩ i).trans (if_pos hi)
    · obtain ⟨d, i, hd', hi, hidx, -⟩ := hleaf x y hx hy
      have hi256 : i < 256 := (hi.trans_le hlen).trans_le h256
      have hval := indexValue_toNat ((Node.lookup_of_leafAt hd').trans hidx) hi256
      have hnat : (BitVec.ofNat 8 i).toNat = i := (BitVec.toNat_ofNat _ _).trans (Nat.mod_eq_of_lt hi256)
      refine ⟨d, _, hd', hidx, ?_, hnat.symm ▸ hi⟩
      rw [destinationRaw_of_written (out := ⟨m, pal, noTransparent⟩) hd hw hx hy (hval.symm ▸ hi.trans_le hlen), hval,
        hnat]

/-! ### Exact reproduction (R884) -/

/-- When the store holds a source of at most 2^bpp colours, nothing is reduced, and every colour is in the palette at the
index of its lookup (R643, R884). -/
theorem quantize_exact {s : State} {f : PixFmt} {m : Nat} {colours : List Colour} {T frozen : Octree} {pal : List Colour}
    (hs : SourceLegal s f) (hcap : 1 ≤ s.cfg.nodeCapacity)
    (hT : forPixels (buildPixel s f) (srcPixels s) Octree.empty = .ok T) (hpal : T.createPalette m = .ok (frozen, pal))
    (hm : colours.length ≤ m) (hc : ∀ x y, x < srcW s → y < srcH s → sourceColour s f x y ∈ colours)
    {x y : Nat} (hx : x < srcW s) (hy : y < srcH s) :
    ∃ i, i < pal.length ∧ frozen.root.lookup (pathOf (sourceColour s f x y)) = some (BitVec.ofNat 8 i) ∧
      pal[i]? = some (sourceColour s f x y) := by
  obtain ⟨seen, hexact, hsource⟩ := build_exact hs hcap hT
  have hsub : seen ⊆ colours := fun c hcs => by
    obtain ⟨u, v, hu, hv, rfl⟩ := hsource c hcs
    exact hc u v hu hv
  have hseen : sourceColour s f x y ∈ seen := by
    obtain h | ⟨T', hT', -, -, -, hleaf⟩ := build_spec hs hcap
    · rw [h] at hT
      cases hT
    · rw [hT'] at hT
      cases hT
      exact (hexact.mem _).1 (hleaf x y hx hy)
  exact Octree.extract_exact hexact ((List.subperm_of_subset hexact.nodup hsub).length_le.trans hm) hpal hseen

/-- Settles O34: no leaf is reduced, so the index of a pixel's colour is that of the entry made from it alone. -/
theorem fewColoursAreReproducedExactly : Obligations.FewColoursAreReproducedExactly := by
  intro s t f g colours hv hs hf hg hm hc h ht x y hx hy
  obtain ⟨h8, h256⟩ := two_pow_bpp_range hg
  obtain ⟨f', g', out, hs', hg', hd, -, ho, rfl⟩ := exec_reformat_succeeds h ht
  obtain rfl : f = f' := Option.some.inj (hs.fmt.symm.trans hs'.fmt)
  obtain rfl : g = g' := Option.some.inj ((PixFmt.ofCode_code g).symm.trans hg')
  rw [routeTable_of_truecolor_indexed hf hg] at ho
  obtain hT | ⟨hcap, T, hT⟩ := build_ok_or_capacityExceeded hs
  · cases (quantize_of_build_error hT).symm.trans ho
  obtain ⟨frozen, pal, m, hpal, ho', hlen, hw, -⟩ := quantize_spec hs hd hcap h8 hT
  cases ho'.symm.trans ho
  obtain ⟨i, hi, hlook, hentry⟩ := quantize_exact hs hcap hT hpal hm hc hx hy
  have hval := indexValue_toNat hlook ((hi.trans_le hlen).trans_le h256)
  have hpix := destinationRaw_of_written (out := ⟨m, pal, noTransparent⟩) hd hw hx hy (hval.symm ▸ hi.trans_le hlen)
  rw [hpix, hval]
  refine ⟨hi.trans_eq (commit_palLen_toNat s g (out := ⟨m, pal, noTransparent⟩) (hlen.trans h256)).symm, ?_⟩
  exact ((get?_commit_dstPal s g ⟨m, pal, noTransparent⟩ i).trans (if_pos hi)).trans hentry

end Sys2Proof.Machine
end

section
/-! PROOFS. The checks of frames and of the conversion table, in order (R811, R812, R820, R821, R901), and the errors that
REFORMAT can report (R810, R1003). -/

namespace Sys2Proof.Machine

/-! ### The first check that fails (R1020) -/

theorem firstFailure_append (l k : List (Bool × Byte)) :
    firstFailure (l ++ k) = (firstFailure l).or (firstFailure k) := by
  induction l with
  | nil => rfl
  | cons c l ih =>
    obtain ⟨bad, sub⟩ := c
    cases bad with
    | false => exact ih
    | true => rfl

theorem firstFailure_mem {l : List (Bool × Byte)} {sub : Byte} (h : firstFailure l = some sub) :
    sub ∈ l.map Prod.snd := by
  induction l with
  | nil => cases h
  | cons c l ih =>
    obtain ⟨bad, sub'⟩ := c
    cases bad with
    | false => exact List.mem_cons_of_mem _ (ih h)
    | true =>
      cases h
      exact List.mem_cons_self

/-- `r` runs the checks of a list in order: it passes when none fails, and otherwise raises the subcode of the first that
does. -/
def RaisesFirst {α : Type} (r : Except CmdError α) (checks : List (Bool × Byte)) : Prop :=
  match r with
  | .ok _ => firstFailure checks = none
  | .error e => ∃ c, e = .invalidArgument c ∧ firstFailure checks = some c.number

section
variable {α : Type} {r : Except CmdError α} {checks rest : List (Bool × Byte)}

theorem RaisesFirst.check {p : Prop} [Decidable p] {bad : Bool} {c : Subcode} (hp : p ↔ bad = true)
    (h : RaisesFirst r rest) :
    RaisesFirst (if p then .error (.invalidArgument c) else r) ((bad, c.number) :: rest) := by
  by_cases hpos : p
  · rw [if_pos hpos, hp.1 hpos]
    exact ⟨c, rfl, rfl⟩
  · rw [if_neg hpos, Bool.eq_false_iff.2 fun hb => hpos (hp.2 hb)]
    exact h

theorem RaisesFirst.append_left (h0 : firstFailure checks = none) (h : RaisesFirst r rest) :
    RaisesFirst r (checks ++ rest) := by
  unfold RaisesFirst at h ⊢
  rwa [firstFailure_append, h0, Option.none_or]

theorem RaisesFirst.append_error {e : CmdError} (h : RaisesFirst (.error e : Except CmdError α) checks) {β : Type} :
    RaisesFirst (.error e : Except CmdError β) (checks ++ rest) := by
  obtain ⟨c, rfl, hc⟩ := h
  exact ⟨c, rfl, by rw [firstFailure_append, hc, Option.some_or]⟩

theorem RaisesFirst.error (h : RaisesFirst r checks) {sub : Byte} (hsub : firstFailure checks = some sub) :
    ∃ c, r = .error (.invalidArgument c) ∧ c.number = sub := by
  cases r with
  | ok a => cases hsub.symm.trans h
  | error e =>
    obtain ⟨c, rfl, hc⟩ := h
    exact ⟨c, rfl, Option.some.inj (hc.symm.trans hsub)⟩

theorem RaisesFirst.none_iff {r : Except CmdError Unit} (h : RaisesFirst r checks) :
    firstFailure checks = none ↔ r = .ok () := by
  cases r with
  | ok a => exact ⟨fun _ => rfl, fun _ => h⟩
  | error e =>
    obtain ⟨c, rfl, hc⟩ := h
    simp [hc]

end

/-! ### The checks of R820, R821 and R901 -/

theorem palLenLegal_eq_false_iff (f : PixFmt) (n : Nat) :
    palLenLegal f n = false ↔ (if f.isIndexed then n == 0 || decide (n > 256) || (f == .indexed1 && n != 2)
      else n != 0) = true := by
  cases hf : f.isIndexed with
  | false => simp [palLenLegal, hf]
  | true =>
    simp only [palLenLegal, hf, if_true, Bool.and_eq_false_iff, Bool.or_eq_false_iff, Bool.or_eq_true, Bool.and_eq_true,
      decide_eq_false_iff_not, decide_eq_true_eq, bne_eq_false_iff_eq, beq_eq_false_iff_ne, beq_iff_eq, bne_iff_ne]
    exact or_congr (or_congr (by omega) (by omega)) Iff.rfl

theorem validateSource_raisesFirst (s : State) (f : PixFmt) : RaisesFirst (validateSource s f) (sourceChecks s f) := by
  refine .check ?_ (.check ?_ (.check ?_ (.check ?_ (.check ?_ (.check ?_ rfl)))))
  · simp
  · simp [stride]
  · simp
  · simp
  · exact palLenLegal_eq_false_iff f (srcPalLen s)
  · simp [maskLen, maskStride, stride, PixFmt.bpp]

theorem overlaps_eq_rangesOverlap (a n b m : Nat) : overlaps (a, a + n) (b, b + m) = rangesOverlap a n b m := rfl

/-- An empty range overlaps nothing, so a source without a mask passes the checks of its mask (R821). -/
theorem overlaps_srcMaskRange (s : State) (a n : Nat) :
    overlaps (a, a + n) (srcMaskRange s) = (s.src.maskPresent && rangesOverlap a n (srcMaskBase s) (maskLen s)) := by
  cases hm : s.src.maskPresent <;> simp [srcMaskRange, hm, overlaps, rangesOverlap]

theorem validateDestination_raisesFirst (s : State) (g : PixFmt) :
    RaisesFirst (validateDestination s g) (destinationChecks s g) := by
  have hmask : maskLen s = srcH s * ((srcW s + 31) / 32 * 4) := by simp [maskLen, maskStride, stride, PixFmt.bpp]
  refine .check ?_ (.check ?_ ?_)
  · simp [dstLen, stride]
  · rw [dstBufRange, srcBufRange, overlaps_srcMaskRange, overlaps_eq_rangesOverlap, hmask]
    rfl
  · cases hm : s.src.maskPresent with
    | false => rfl
    | true =>
      refine .check (c := .dstMaskRange) ?_ (.check (c := .dstMaskOverlap) ?_ rfl)
      · simp [hmask]
      · rw [show dstMaskRange s = (dstMaskBase s, dstMaskBase s + maskLen s) from if_pos hm, srcBufRange, dstBufRange,
          overlaps_srcMaskRange, overlaps_eq_rangesOverlap, overlaps_eq_rangesOverlap, hm, hmask]
        rfl

theorem validatePixelAccess_raisesFirst {s : State} {f : PixFmt} (hf : PixFmt.ofCode (srcFmtCode s) = some f) :
    RaisesFirst (validatePixelAccess s) (sourceChecks s f ++ coordinateCheck s) := by
  have hsrc := validateSource_raisesFirst s f
  simp only [validatePixelAccess, formatOperand, hf]
  cases hv : validateSource s f with
  | error e => exact (hv ▸ hsrc).append_error
  | ok u => exact .append_left (hsrc.none_iff.2 hv) (.check (by simp) rfl)

/-! ### The conversion table (R811, R812) -/

theorem PixFmt.ofCode_of_reserved {n : Nat} (h : 6 ≤ n) : PixFmt.ofCode n = none := by
  cases hn : PixFmt.ofCode n with
  | none => rfl
  | some f =>
    have hcode := PixFmt.code_of_ofCode hn
    have hlt : f.code < 6 := by cases f <;> decide
    omega

theorem PixFmt.ofCode_of_lt {n : Nat} (h : n < 6) : ∃ f, PixFmt.ofCode n = some f := by
  interval_cases n <;> exact ⟨_, rfl⟩

theorem routeTable_unsupported_iff (f g : PixFmt) : routeTable f g = .unsupported ↔ 3 ≤ f.code ∧ g.code = 0 := by
  cases f <;> cases g <;> decide

/-- The pairs of codes that R811 gives no routine. -/
def NoRoute (a b : Nat) : Prop := 6 ≤ a ∨ 6 ≤ b ∨ (3 ≤ a ∧ b = 0)

theorem selectRoute_of_noRoute {a b : Nat} (h : NoRoute a b) : selectRoute a b = .error .unsupportedConversion := by
  cases ha : PixFmt.ofCode a with
  | none => cases hb : PixFmt.ofCode b <;> simp only [selectRoute, ha, hb]
  | some f =>
    cases hb : PixFmt.ofCode b with
    | none => simp only [selectRoute, ha, hb]
    | some g =>
      have hpair : routeTable f g = .unsupported := by
        obtain h | h | h := h
        · cases ha.symm.trans (PixFmt.ofCode_of_reserved h)
        · cases hb.symm.trans (PixFmt.ofCode_of_reserved h)
        · rwa [routeTable_unsupported_iff, ← PixFmt.code_of_ofCode ha, ← PixFmt.code_of_ofCode hb]
      simp only [selectRoute, route, ha, hb, hpair, if_pos]

/-- Every other pair of codes is a pair of formats in the table. -/
theorem exists_routeTable_of_route {a b : Nat} (h : ¬ NoRoute a b) :
    ∃ f g, PixFmt.ofCode a = some f ∧ PixFmt.ofCode b = some g ∧ routeTable f g ≠ .unsupported := by
  simp only [NoRoute, not_or, Nat.not_le] at h
  obtain ⟨ha, hb, hpair⟩ := h
  obtain ⟨f, hf⟩ := PixFmt.ofCode_of_lt ha
  obtain ⟨g, hg⟩ := PixFmt.ofCode_of_lt hb
  refine ⟨f, g, hf, hg, fun hr => hpair ?_⟩
  rw [PixFmt.code_of_ofCode hf, PixFmt.code_of_ofCode hg]
  exact (routeTable_unsupported_iff f g).1 hr

/-- On a pair of the table REFORMAT runs the checks of the source and then those of the destination (R810). -/
theorem reformatChecks_raisesFirst {s : State} {n : Nat} {f g : PixFmt} (hf : PixFmt.ofCode (srcFmtCode s) = some f)
    (hg : PixFmt.ofCode n = some g) (hr : routeTable f g ≠ .unsupported) :
    RaisesFirst (reformatChecks s n) (sourceChecks s f ++ destinationChecks s g) := by
  have hsrc := validateSource_raisesFirst s f
  have hdst := validateDestination_raisesFirst s g
  simp only [reformatChecks, selectRoute, route, hf, hg, if_neg hr]
  cases hv : validateSource s f with
  | error e => exact (hv ▸ hsrc).append_error
  | ok u =>
    refine .append_left (hsrc.none_iff.2 hv) ?_
    dsimp only
    cases hw : validateDestination s g with
    | error e =>
      rw [hw] at hdst
      exact hdst
    | ok u => exact hdst.none_iff.2 hw

/-! ### The commands by their checks -/

theorem exec_reformat_checks_error {s : State} {n : Nat} {e : CmdError} (h : reformatChecks s n = .error e) :
    exec (.reformat n) s = .next (takeError e s) := by
  simp only [exec, execReformat, reformat, h, complete]

theorem exec_getpixel_error {s : State} {e : CmdError} (h : validatePixelAccess s = .error e) :
    exec .getpixel s = .next (takeError e s) := by
  simp only [exec, execGetpixel, h, complete]

theorem exec_setpixel_error {s : State} {e : CmdError} (h : validatePixelAccess s = .error e) :
    exec .setpixel s = .next (takeError e s) := by
  simp only [exec, execSetpixel, h, complete]

/-- Settles O27: each validation raises the first failure of its list, and passes exactly on a legal frame. -/
theorem frameChecksRunInOrder : Obligations.FrameChecksRunInOrder := by
  intro s f hf
  refine ⟨fun sub hsub => ?_, fun g sub hr hsub => ?_, ?_, fun g => ?_⟩
  · obtain ⟨c, hc, rfl⟩ := (validatePixelAccess_raisesFirst hf).error hsub
    exact ⟨exec_getpixel_error hc, exec_setpixel_error hc⟩
  · obtain ⟨c, hc, rfl⟩ := (reformatChecks_raisesFirst hf (PixFmt.ofCode_code g) hr).error hsub
    exact exec_reformat_checks_error hc
  · exact (validateSource_raisesFirst s f).none_iff.trans (validateSource_ok_iff hf)
  · exact (validateDestination_raisesFirst s g).none_iff.trans validateDestination_ok_iff

/-! ### The errors of the routines (R840, R850, R870) -/

/-- A loop fails only where its body fails. -/
theorem forPixels_error_of_body {σ : Type} {body : σ → Nat → Nat → Except CmdError σ} {ps : List (Nat × Nat)}
    {a : σ} {e : CmdError} (h : forPixels body ps a = .error e) : ∃ b x y, body b x y = .error e := by
  induction ps generalizing a with
  | nil => cases h
  | cons p ps ih =>
    obtain ⟨x, y⟩ := p
    rw [forPixels] at h
    split at h
    · rename_i hb
      cases h
      exact ⟨a, x, y, hb⟩
    · exact ih h

/-- The errors that pixels can raise: subcodes 11, 12 and 18, and CAPACITY_EXCEEDED. -/
def IsDataError (e : CmdError) : Prop :=
  e = .invalidArgument .indexNotInPalette ∨ e = .invalidArgument .indexTooWide ∨ e = .invalidArgument .dstPal1bpp ∨
    e = .capacityExceeded

theorem repack_error {s : State} {f g : PixFmt} {e : CmdError} (h : repack s f g = .error e) : IsDataError e := by
  unfold repack at h
  split at h
  · cases h
    exact .inr (.inr (.inl rfl))
  · split at h
    · rename_i hloop
      cases h
      obtain ⟨m, x, y, hb⟩ := forPixels_error_of_body hloop
      unfold repackPixel at hb
      dsimp only at hb
      split_ifs at hb <;> cases hb
      · exact .inl rfl
      · exact .inr (.inl rfl)
    · cases h

theorem colourOfRaw_error {s : State} {f : PixFmt} {raw : Raw} {e : CmdError} (h : colourOfRaw s f raw = .error e) :
    e = .invalidArgument .indexNotInPalette := by
  unfold colourOfRaw at h
  split_ifs at h
  cases h
  rfl

theorem expand_error {s : State} {f g : PixFmt} {e : CmdError} (h : expand s f g = .error e) : IsDataError e := by
  unfold expand at h
  split at h
  · rename_i hloop
    cases h
    obtain ⟨m, x, y, hb⟩ := forPixels_error_of_body hloop
    unfold expandPixel at hb
    split at hb
    · rename_i hc
      cases hb
      exact .inl (colourOfRaw_error hc)
    · cases hb
  · cases h

theorem convertTrue_ne_error {s : State} {f g : PixFmt} {e : CmdError} : convertTrue s f g ≠ .error e := by
  intro h
  unfold convertTrue at h
  split at h
  · rename_i hloop
    obtain ⟨m, x, y, hb⟩ := forPixels_error_of_body hloop
    cases hb
  · cases h

theorem indexed_of_routeTable_quantize {f g : PixFmt} (h : routeTable f g = .quantize) :
    g = .indexed4 ∨ g = .indexed8 := by
  cases f <;> cases g <;> simp_all [routeTable]

/-- The errors of the routines on legal frames, for every node store (R653, R840, R850, R870). -/
theorem runRoute_error {s : State} {f g : PixFmt} {r : Route} {e : CmdError} (hs : SourceLegal s f)
    (hd : DestinationLegal s g) (hr : routeTable f g = r) (hne : r ≠ .unsupported) (h : runRoute s f g r = .error e) :
    IsDataError e := by
  cases r with
  | clone => cases h
  | repack => exact repack_error h
  | expand => exact expand_error h
  | convert => exact absurd h convertTrue_ne_error
  | quantize =>
    obtain hT | ⟨hcap, -⟩ := build_ok_or_capacityExceeded hs
    · cases (quantize_of_build_error hT).symm.trans h
      exact .inr (.inr (.inr rfl))
    · have h8 := (two_pow_bpp_range (indexed_of_routeTable_quantize hr)).1
      exact .inr (.inr (.inr (quantize_error hs hd hcap h8 h)))
  | unsupported => exact absurd rfl hne

/-! ### The errors of REFORMAT (R810, R1003) -/

theorem frameCheck_range {s : State} {f g : PixFmt} {sub : Byte}
    (h : firstFailure (sourceChecks s f ++ destinationChecks s g) = some sub) : 1 ≤ sub.toNat ∧ sub.toNat ≤ 10 := by
  have hall : ∀ b ∈ ([1, 2, 3, 4, 5, 6, 7, 8, 9, 10] : List Byte), 1 ≤ b.toNat ∧ b.toNat ≤ 10 := by decide
  exact hall sub (firstFailure_mem h)

/-- On a pair of the table REFORMAT fails in a frame check or in its routine. -/
theorem reformat_error {s : State} {n : Nat} {e : CmdError} (hroute : ¬ NoRoute (srcFmtCode s) n)
    (h : reformat s n = .error e) :
    (∃ c, e = .invalidArgument c ∧ 1 ≤ c.number.toNat ∧ c.number.toNat ≤ 10) ∨ IsDataError e := by
  obtain ⟨f, g, hf, hg, hr⟩ := exists_routeTable_of_route hroute
  unfold reformat at h
  split at h
  · rename_i hc
    cases h
    obtain ⟨c, rfl, hfirst⟩ := hc ▸ reformatChecks_raisesFirst hf hg hr
    exact .inl ⟨c, rfl, frameCheck_range hfirst⟩
  · rename_i hc
    obtain ⟨-, rfl, hne, hs, hd⟩ := reformatChecks_ok_iff.1 hc
    split at h
    · rename_i ho
      cases h
      exact .inr (runRoute_error hs hd rfl hne ho)
    · cases h

theorem exec_reformat_of_noRoute {s : State} {n : Nat} (h : NoRoute (srcFmtCode s) n) :
    exec (.reformat n) s = .next (takeError .unsupportedConversion s) :=
  exec_reformat_checks_error (by rw [reformatChecks, selectRoute_of_noRoute h])

/-- Settles O28: a reserved source format has no checks to run, and no check or routine of a pair in the table raises
UNSUPPORTED_CONVERSION. -/
theorem unsupportedPairsAreRefusedFirst : Obligations.UnsupportedPairsAreRefusedFirst := by
  intro s n _
  refine ⟨fun hres => ?_, exec_reformat_of_noRoute, fun hroute => ?_⟩
  · have he : validatePixelAccess s = .error (.invalidArgument .fmtReserved) := by
      simp only [validatePixelAccess, formatOperand, PixFmt.ofCode_of_reserved hres]
    exact ⟨exec_getpixel_error he, exec_setpixel_error he⟩
  · obtain ⟨t, ht⟩ := exec_completes (.reformat n) s
    refine ⟨t, ht, ?_⟩
    obtain ⟨e, he, rfl⟩ | ⟨w, -, rfl⟩ := complete_cases (r := reformat s n) ht
    · obtain ⟨c, rfl, -⟩ | rfl | rfl | rfl | rfl := reformat_error hroute he <;> simp [CmdError.code]
    · simp

/-- Settles O39: a pair is refused by the table, or fails in a frame check or in its routine. -/
theorem reformatErrorsAreThoseListed : Obligations.ReformatErrorsAreThoseListed := by
  intro s t n _ h
  by_cases hroute : NoRoute (srcFmtCode s) n
  · cases (exec_reformat_of_noRoute hroute).symm.trans h
    exact .inr (.inl rfl)
  · obtain ⟨e, he, rfl⟩ | ⟨w, -, rfl⟩ := complete_cases (r := reformat s n) h
    · have h11 : 1 ≤ (11 : Byte).toNat ∧ (11 : Byte).toNat ≤ 12 := by decide
      have h12 : 1 ≤ (12 : Byte).toNat ∧ (12 : Byte).toNat ≤ 12 := by decide
      obtain ⟨c, rfl, h1, h10⟩ | rfl | rfl | rfl | rfl := reformat_error hroute he
      · exact .inr (.inr (.inr ⟨rfl, .inl ⟨h1, Nat.le_trans h10 (by decide)⟩⟩))
      · exact .inr (.inr (.inr ⟨rfl, .inl h11⟩))
      · exact .inr (.inr (.inr ⟨rfl, .inl h12⟩))
      · exact .inr (.inr (.inr ⟨rfl, .inr rfl⟩))
      · exact .inr (.inr (.inl rfl))
    · exact .inl rfl

end Sys2Proof.Machine
end

section
/-! PROOFS. The octree unit under the commands that do not use it (R704, R871): none reads it, and each leaves it. -/

namespace Sys2Proof.Machine

/-- A command whose rule commutes with replacing the octree unit does so as a whole. -/
theorem complete_setOct {s t : State} {r : Except CmdError State} {o : Octree} (h : complete s r = .next t) :
    complete (setOct o s) (r.map (setOct o)) = .next (setOct o t) := by
  obtain ⟨e, rfl, rfl⟩ | ⟨w, rfl, rfl⟩ := complete_cases h <;> rfl

theorem reformatChecks_setOct (o : Octree) (s : State) (n : Nat) : reformatChecks (setOct o s) n = reformatChecks s n := rfl

theorem runRoute_setOct (o : Octree) (s : State) (f g : PixFmt) (r : Route) :
    runRoute (setOct o s) f g r = runRoute s f g r := rfl

theorem validatePixelAccess_setOct (o : Octree) (s : State) :
    validatePixelAccess (setOct o s) = validatePixelAccess s := rfl

theorem addressedRaw_setOct (o : Octree) (s : State) (f : PixFmt) : addressedRaw (setOct o s) f = addressedRaw s f := rfl

theorem colourOfRaw_setOct (o : Octree) (s : State) (f : PixFmt) (raw : Raw) :
    colourOfRaw (setOct o s) f raw = colourOfRaw s f raw := rfl

/-- REFORMAT builds its octree from `Octree.empty`, never from the unit (R871). -/
theorem reformat_setOct (o : Octree) (s : State) (n : Nat) :
    reformat (setOct o s) n = (reformat s n).map (setOct o) := by
  unfold reformat
  rw [reformatChecks_setOct]
  cases reformatChecks s n with
  | error e => rfl
  | ok p =>
    obtain ⟨f, g, r⟩ := p
    simp only [runRoute_setOct]
    cases runRoute s f g r <;> rfl

/-- Settles O14: the rule of each of these commands gives the same working copy, but for the octree unit, in a state with
another unit. -/
theorem onlyOctCommandsUseTheOctreeUnit : Obligations.OnlyOctCommandsUseTheOctreeUnit := by
  intro i s t o h1 h2 h3 h4 h5 h
  suffices ∃ r, exec i s = complete s r ∧ exec i (setOct o s) = complete (setOct o s) (r.map (setOct o)) by
    obtain ⟨r, hr, hr'⟩ := this
    exact hr'.trans (complete_setOct (hr ▸ h))
  cases i with
  | octReset => exact absurd rfl h1
  | octAdd => exact absurd rfl h2
  | octReduce => exact absurd rfl h3
  | octPalette => exact absurd rfl h4
  | octIndex => exact absurd rfl h5
  | nop => exact ⟨.ok s, rfl, rfl⟩
  | reformat n => exact ⟨reformat s n, rfl, congrArg (complete (setOct o s)) (reformat_setOct o s n)⟩
  | getpixel =>
    refine ⟨_, rfl, congrArg (complete (setOct o s)) ?_⟩
    rw [validatePixelAccess_setOct]
    cases validatePixelAccess s with
    | error e => rfl
    | ok f =>
      dsimp only
      rw [colourOfRaw_setOct, addressedRaw_setOct]
      cases colourOfRaw s f (addressedRaw s f) <;> rfl
  | setpixel =>
    refine ⟨_, rfl, congrArg (complete (setOct o s)) ?_⟩
    rw [validatePixelAccess_setOct]
    cases validatePixelAccess s <;> rfl
  | palMatch =>
    refine ⟨_, rfl, congrArg (complete (setOct o s)) ?_⟩
    dsimp only
    by_cases hn : srcPalLen s < 1 ∨ 256 < srcPalLen s
    · rw [if_pos hn]
      exact if_pos hn
    · rw [if_neg hn]
      exact if_neg hn
  | pack n =>
    refine ⟨_, rfl, congrArg (complete (setOct o s)) ?_⟩
    cases truecolorOperand n <;> rfl
  | unpack n =>
    refine ⟨_, rfl, congrArg (complete (setOct o s)) ?_⟩
    cases truecolorOperand n <;> rfl
  | stride n =>
    refine ⟨_, rfl, congrArg (complete (setOct o s)) ?_⟩
    cases formatOperand n <;> rfl

end Sys2Proof.Machine
end

section
/-! PROOFS. The pixel accessors (R900 to R922): what GETPIXEL and SETPIXEL do on a pixel that passes the checks of R901, and
the stored value that one leaves for the other. -/

namespace Sys2Proof.Machine

/-! ### GETPIXEL (R537, R910) -/

section
variable {s : State} {f : PixFmt} {raw : Raw}

theorem colourOfRaw_of_index (hf : f.isIndexed = true) (h : raw.toNat < srcPalLen s) :
    colourOfRaw s f raw = .ok (srcPalAt s raw.toNat) := by
  rw [colourOfRaw, if_pos hf, if_neg (Nat.not_le.2 h)]

theorem colourOfRaw_of_bad_index (hf : f.isIndexed = true) (h : srcPalLen s ≤ raw.toNat) :
    colourOfRaw s f raw = .error (.invalidArgument .indexNotInPalette) := by
  rw [colourOfRaw, if_pos hf, if_pos h]

theorem colourOfRaw_of_truecolor (hf : f.isIndexed = false) : colourOfRaw s f raw = .ok (unpackPixel f raw) := by
  rw [colourOfRaw, if_neg (Bool.eq_false_iff.1 hf)]

theorem exec_getpixel_of_colour {c : Colour} (hok : validatePixelAccess s = .ok f) (hraw : addressedRaw s f = raw)
    (hc : colourOfRaw s f raw = .ok c) :
    exec .getpixel s = .next (finish (setResult1 (raw.setWidth 32) (setResult0 (c.setWidth 32) s))) := by
  simp only [exec, execGetpixel, hok, hraw, hc, complete]

theorem exec_getpixel_of_colour_error {e : CmdError} (hok : validatePixelAccess s = .ok f)
    (hraw : addressedRaw s f = raw) (hc : colourOfRaw s f raw = .error e) :
    exec .getpixel s = .next (takeError e s) := by
  simp only [exec, execGetpixel, hok, hraw, hc, complete]

end

/-- On a legal frame the declared stride is the one of R501. -/
theorem SourceLegal.addressedRaw_eq {s : State} {f : PixFmt} (h : SourceLegal s f) :
    addressedRaw s f = sourceRaw s f (xOperand s) (yOperand s) := by
  rw [addressedRaw, h.stride, sourceRaw]

/-- Settles O24: the checks pass, and the colour of the stored value decides. -/
theorem getpixelReadsColour : Obligations.GetpixelReadsColour := by
  intro s f hs hx hy raw
  have hok : validatePixelAccess s = .ok f := validatePixelAccess_ok_iff.2 ⟨hs, hx, hy⟩
  have hraw : addressedRaw s f = raw := hs.addressedRaw_eq
  refine ⟨fun hf hlt => ?_, fun hf hle => ?_, fun hf => ?_⟩
  · exact exec_getpixel_of_colour hok hraw (colourOfRaw_of_index hf hlt)
  · exact exec_getpixel_of_colour_error hok hraw (colourOfRaw_of_bad_index hf hle)
  · exact exec_getpixel_of_colour hok hraw (colourOfRaw_of_truecolor hf)

/-! ### The value that SETPIXEL stores (R920, R921) -/

section
variable {s : State} {f : PixFmt}

theorem pixelValue_of_truecolor (hf : f.isIndexed = false) (c : Colour) : pixelValue s f c = (packPixel f c, 0) := by
  rw [pixelValue, if_neg (Bool.eq_false_iff.1 hf)]

theorem SourceLegal.one_le_searchLength (h : SourceLegal s f) (hf : f.isIndexed = true) : 1 ≤ searchLength s f :=
  le_min (h.palette hf).1 Nat.one_le_two_pow

/-- The matched index is below 256, so the stored value holds it whole. -/
theorem SourceLegal.pixelValue_eq_match (h : SourceLegal s f) (hf : f.isIndexed = true) (c : Colour) :
    (pixelValue s f c).1.toNat = (matchPalette c (srcPalAt s) (searchLength s f)).1 ∧
      (pixelValue s f c).2 = (matchPalette c (srcPalAt s) (searchLength s f)).2 := by
  have hidx := (matchPalette_spec c (srcPalAt s) (h.one_le_searchLength hf)).1
  have hlen : searchLength s f ≤ 256 := (Nat.min_le_left _ _).trans (h.palette hf).2
  rw [pixelValue, if_pos hf]
  exact ⟨Nat.mod_eq_of_lt (by omega), rfl⟩

theorem SourceLegal.pixelValue_lt_searchLength (h : SourceLegal s f) (hf : f.isIndexed = true) (c : Colour) :
    (pixelValue s f c).1.toNat < searchLength s f := by
  rw [(h.pixelValue_eq_match hf c).1]
  exact (matchPalette_spec c (srcPalAt s) (h.one_le_searchLength hf)).1

/-- A pixel of the frame's depth can hold the value. -/
theorem SourceLegal.pixelValue_lt_two_pow (h : SourceLegal s f) (c : Colour) :
    (pixelValue s f c).1.toNat < 2 ^ f.bpp := by
  cases hf : f.isIndexed with
  | true => exact (h.pixelValue_lt_searchLength hf c).trans_le (Nat.min_le_right _ _)
  | false =>
    rw [pixelValue_of_truecolor hf]
    exact packPixel_toNat_lt f c

end

/-! ### SETPIXEL (R920) -/

/-- The value SETPIXEL stores in `s`, and the distance it reports. -/
def storedValue (s : State) (f : PixFmt) : Raw × Nat := pixelValue s f (colourOperand s.arg2)

/-- FMEM with that value stored at the addressed pixel. -/
def storedFmem (s : State) (f : PixFmt) : List Host.Cell :=
  writeRaw s.draws s.fmem f (srcBase s) (srcStride s) (xOperand s) (yOperand s) (storedValue s f).1

/-- The working copy that SETPIXEL commits. -/
def setpixelCopy (s : State) (f : PixFmt) : State :=
  setResult1 (BitVec.ofNat 32 (storedValue s f).2)
    (setResult0 ((storedValue s f).1.setWidth 32) (setFmem (storedFmem s f) s))

section
variable {s : State} {f : PixFmt}

theorem exec_setpixel_of_ok (hok : validatePixelAccess s = .ok f) :
    exec .setpixel s = .next (finish (setpixelCopy s f)) := by
  simp only [exec, execSetpixel, hok, complete, setpixelCopy, storedFmem, storedValue]

/-- The stored value fits the format, so the pixel reads back as it. -/
theorem SourceLegal.readRaw_storedFmem (h : SourceLegal s f) :
    readRaw s.draws (storedFmem s f) f (srcBase s) (srcStride s) (xOperand s) (yOperand s) = (storedValue s f).1 := by
  rw [storedFmem, readRaw_writeRaw_self]
  exact Raw.trim_of_lt (h.pixelValue_lt_two_pow _)

end

/-- Settles O12: an error changes none of these, and the working copy changes FMEM at the addressed pixel alone. -/
theorem frameOfSetpixel : Obligations.FrameOfSetpixel := by
  intro s t h
  refine ⟨exec_inputsKept h, ?_⟩
  cases hv : validatePixelAccess s with
  | error e =>
    cases (exec_setpixel_error hv).symm.trans h
    exact ⟨rfl, rfl, rfl, fun _ _ _ _ => rfl⟩
  | ok g =>
    cases (exec_setpixel_of_ok hv).symm.trans h
    refine ⟨rfl, rfl, rfl, fun f hf a ha => ?_⟩
    obtain ⟨hs, -, -⟩ := validatePixelAccess_ok_iff.1 hv
    obtain rfl : g = f := Option.some.inj (hs.fmt.symm.trans hf)
    apply get?_writeRaw_out
    unfold InRange at ha
    omega

/-- Settles O25: the matcher's answer over the search length of R921, or the packed colour, and a pixel write. -/
theorem setpixelStoresNearest : Obligations.SetpixelStoresNearest := by
  intro s f hs hx hy c
  have hok : validatePixelAccess s = .ok f := validatePixelAccess_ok_iff.2 ⟨hs, hx, hy⟩
  refine ⟨(pixelValue s f c).1, (pixelValue s f c).2, storedFmem s f, exec_setpixel_of_ok hok, fun hf => ?_, fun hf => ?_,
    hs.readRaw_storedFmem, fun x y hxy hne => ?_⟩
  · obtain ⟨hidx, hle, hdist, hleast, hfirst, -⟩ := matchPalette_nearest c (srcPalAt s) (hs.one_le_searchLength hf)
    obtain ⟨hindex, hdistance⟩ := hs.pixelValue_eq_match hf c
    rw [hindex, hdistance]
    exact ⟨hidx, hle, hdist, hleast, hfirst⟩
  · exact Prod.mk.inj (pixelValue_of_truecolor hf c)
  · have hpix : pixelOffset f s.arg0.toNat + pixelBytes f ≤ srcStride s := hs.stride ▸ pixelOffset_lt_stride hx
    rw [sourceRaw, ← hs.stride]
    exact readRaw_writeRaw_other _ _ _ _ _ hpix hxy hne

/-! ### GETPIXEL after SETPIXEL -/

/-- The second command passes the same checks, since no input changed, and finds the value that the first stored. -/
theorem exec_getpixel_setpixelCopy {s : State} {f : PixFmt} {c : Colour} (hok : validatePixelAccess s = .ok f)
    (hc : colourOfRaw s f (storedValue s f).1 = .ok c) :
    exec .getpixel (finish (setpixelCopy s f)) =
      .next (finish (setResult1 ((storedValue s f).1.setWidth 32)
        (setResult0 (c.setWidth 32) (finish (setpixelCopy s f))))) :=
  have hs : SourceLegal s f := (validatePixelAccess_ok_iff.1 hok).1
  exec_getpixel_of_colour (s := finish (setpixelCopy s f)) hok hs.readRaw_storedFmem hc

/-- Settles O26: the stored value is an index below the palette length, or a packed colour. -/
theorem getpixelAfterSetpixel : Obligations.GetpixelAfterSetpixel := by
  intro s t f hs hx hy h
  have hok : validatePixelAccess s = .ok f := validatePixelAccess_ok_iff.2 ⟨hs, hx, hy⟩
  obtain rfl := Host.Outcome.next.inj ((exec_setpixel_of_ok hok).symm.trans h)
  cases hf : f.isIndexed with
  | true =>
    have hlt : (storedValue s f).1.toNat < srcPalLen s :=
      (hs.pixelValue_lt_searchLength hf _).trans_le (Nat.min_le_left _ _)
    have hres : (finish (setpixelCopy s f)).result0.toNat = (storedValue s f).1.toNat :=
      BitVec.toNat_setWidth_of_le (by decide)
    refine ⟨_, exec_getpixel_setpixelCopy hok (colourOfRaw_of_index hf hlt), rfl, rfl, nofun, fun _ => ?_⟩
    rw [hres]
    rfl
  | false =>
    have hpack : (storedValue s f).1 = packPixel f (s.arg2.extractLsb' 0 24) :=
      congrArg Prod.fst (pixelValue_of_truecolor hf _)
    refine ⟨_, exec_getpixel_setpixelCopy hok (colourOfRaw_of_truecolor hf), rfl, rfl, fun _ => ?_, nofun⟩
    rw [← hpack]
    rfl

end Sys2Proof.Machine
end

section
/-! PROOFS. What a failed command leaves (R1030). -/

namespace Sys2Proof.Machine

/-- Settles O8: an error code can only come from the error entry on the old state, since normal completion clears ERR. -/
theorem failedCommandChangesOnlyStatus : Obligations.FailedCommandChangesOnlyStatus := by
  intro w s t h herr
  obtain ⟨e, rfl⟩ | ⟨u, rfl⟩ := completeWord_end h
  · exact ⟨rfl, CmdError.subcode_of_code_ne, CmdError.subcode_range, (takeError_cmd s e).trans⟩
  · exact absurd rfl herr

end Sys2Proof.Machine
end

section
/-! PROOFS. What the OCT_* commands leave unchanged (R122, R670 to R676). -/

namespace Sys2Proof.Machine

/-- Settles O11: a failed command changes the status alone, and one that succeeds commits the working copy of its rule. -/
theorem frameOfOctreeCommands : Obligations.FrameOfOctreeCommands := by
  intro s t i hi h
  refine ⟨exec_inputsKept h, ?_⟩
  obtain ⟨e, rfl⟩ | ⟨w, hw, rfl⟩ := exec_cases h
  · exact ⟨fun _ => rfl, rfl, fun _ => ⟨rfl, rfl⟩, fun _ => rfl, fun _ => rfl⟩
  · obtain rfl | rfl | rfl | rfl | rfl := hi <;> cases hw
    case octReset => exact ⟨fun _ => rfl, rfl, fun _ => ⟨rfl, rfl⟩, fun _ => rfl, fun _ => rfl⟩
    case octAdd | octIndex => exact ⟨fun _ => rfl, rfl, fun _ => ⟨rfl, rfl⟩, fun _ => rfl, nofun⟩
    case octReduce => exact ⟨fun _ => rfl, rfl, fun _ => ⟨rfl, rfl⟩, fun hne => absurd rfl hne, nofun⟩
    case octPalette => exact ⟨fun _ => rfl, rfl, fun hne => absurd rfl hne, fun _ => rfl, nofun⟩

end Sys2Proof.Machine
end
